-- ==== Sys2Proof/Word.lean ====
section
/-! DEFINITION. The word types of the block: every register, symbol and bus datum is 32 bits wide (R7, R24, R60). -/

namespace Sys2Proof

/-- A 32-bit word: a register, a bus datum, a command word (R24, R60, R80). -/
abbrev Word := BitVec 32

/-- One byte of the packed buffer (R42). -/
abbrev Byte := BitVec 8

/-- A symbol: a 32-bit unsigned value, whatever it stands for (R7 `SYM_W`, R16, R40). -/
abbrev Symbol := Word

/-- A bit string, first digit first (R9, R41); `true` is the digit 1. -/
abbrev BitString := List Bool

end Sys2Proof
end

