-- ==== Sys2Proof/Syntax.lean ====
section
/-! DEFINITION. The ten commands (30_encoding.md R82), one constructor per row of spec/opcode_table.json. -/

namespace Sys2Proof

/-- A symbol buffer, as the `S` and `D` fields select it (R80): 0 = SYM0, 1 = SYM1. -/
inductive SymBuf where
  | sym0
  | sym1
  deriving DecidableEq, Repr

/-- The commands of R82. `s` is the source symbol buffer and `d` the destination symbol buffer; every other operand is bound
to the command (R81). -/
inductive Instr where
  /-- BUILD_TREE (0x01), R160. -/
  | buildTree (s : SymBuf)
  /-- TREE_STORE (0x02), R171. -/
  | treeStore
  /-- TREE_LOAD (0x03), R172. -/
  | treeLoad
  /-- DERIVE_CODES (0x04), R191. -/
  | deriveCodes
  /-- HUF_ENC (0x05), R200. -/
  | hufEnc (s : SymBuf)
  /-- HUF_DEC (0x06), R201. -/
  | hufDec (d : SymBuf)
  /-- RLE_ENC (0x07), R141. -/
  | rleEnc (s d : SymBuf)
  /-- RLE_DEC (0x08), R142. -/
  | rleDec (s d : SymBuf)
  /-- PACK (0x09), R121. -/
  | pack
  /-- UNPACK (0x0A), R122. -/
  | unpack
  deriving DecidableEq, Repr

end Sys2Proof
end

