-- ==== Sys2Proof/WellFormed.lean ====
section
/-! DEFINITION. Which terms of `Instr` spell a command: RLE_ENC and RLE_DEC need S ≠ D (30_encoding.md R82, R85 (e)); every
other term is well formed. -/

namespace Sys2Proof

/-- The one check that the types do not make already: the block has no in-place mode (R85 (e), R260). -/
def Instr.wellFormed : Instr → Bool
  | .rleEnc s d => decide (s ≠ d)
  | .rleDec s d => decide (s ≠ d)
  | .buildTree _ => true
  | .treeStore => true
  | .treeLoad => true
  | .deriveCodes => true
  | .hufEnc _ => true
  | .hufDec _ => true
  | .pack => true
  | .unpack => true

end Sys2Proof
end

