-- ==== Sys2Proof/Decode.lean ====
section
/-! DEFINITION. The command word (30_encoding.md R80 to R86): decoding, total on every word and refusing by name, and the
encoder. -/

namespace Sys2Proof

/-- OP, bits 7:0 (R80). -/
def fieldOp (w : Word) : BitVec 8 := w.extractLsb' 0 8

/-- S, bit 8 (R80). -/
def fieldS (w : Word) : Bool := w.getLsbD 8

/-- D, bit 9 (R80). -/
def fieldD (w : Word) : Bool := w.getLsbD 9

/-- RSV, bits 31:10 (R80). -/
def fieldRsv (w : Word) : BitVec 22 := w.extractLsb' 10 22

/-- The buffer a field bit selects (R80). -/
def SymBuf.ofBit (b : Bool) : SymBuf := if b then .sym1 else .sym0

/-- The field bit that selects a buffer (R80). -/
def SymBuf.toBit : SymBuf → Bool
  | .sym0 => false
  | .sym1 => true

/-- `legal(w)` of R83. -/
def legal (w : Word) : Bool :=
  fieldRsv w == 0 &&
  match (fieldOp w).toNat with
  | 0x01 => !fieldD w
  | 0x05 => !fieldD w
  | 0x06 => !fieldS w
  | 0x07 => fieldS w != fieldD w
  | 0x08 => fieldS w != fieldD w
  | 0x02 => !fieldS w && !fieldD w
  | 0x03 => !fieldS w && !fieldD w
  | 0x04 => !fieldS w && !fieldD w
  | 0x09 => !fieldS w && !fieldD w
  | 0x0A => !fieldS w && !fieldD w
  | _ => false

/-- Why a word spells no command: the five cases of R85. All of them complete alike, with `IllegalCommand` (R102). -/
inductive Reject where
  /-- (a) OP = 0x00. -/
  | zeroOpcode
  /-- (b) OP = 0x0B to 0xFF. -/
  | reservedOpcode
  /-- (c) a bit of RSV is set. -/
  | reservedBits
  /-- (d) S = 1 for an opcode that does not use S, or D = 1 for one that does not use D. -/
  | unusedField
  /-- (e) RLE_ENC or RLE_DEC with S = D. -/
  | sameBuffer
  deriving DecidableEq, Repr

/-- The command of an opcode and its two field bits, before the field checks (R82). -/
def commandOf (op : Nat) (s d : Bool) : Option Instr :=
  match op with
  | 0x01 => some (.buildTree (.ofBit s))
  | 0x02 => some .treeStore
  | 0x03 => some .treeLoad
  | 0x04 => some .deriveCodes
  | 0x05 => some (.hufEnc (.ofBit s))
  | 0x06 => some (.hufDec (.ofBit d))
  | 0x07 => some (.rleEnc (.ofBit s) (.ofBit d))
  | 0x08 => some (.rleDec (.ofBit s) (.ofBit d))
  | 0x09 => some .pack
  | 0x0A => some .unpack
  | _ => none

/-- Does the command use S (R82)? -/
def Instr.usesS : Instr → Bool
  | .buildTree _ => true
  | .hufEnc _ => true
  | .rleEnc _ _ => true
  | .rleDec _ _ => true
  | .treeStore => false
  | .treeLoad => false
  | .deriveCodes => false
  | .hufDec _ => false
  | .pack => false
  | .unpack => false

/-- Does the command use D (R82)? -/
def Instr.usesD : Instr → Bool
  | .hufDec _ => true
  | .rleEnc _ _ => true
  | .rleDec _ _ => true
  | .buildTree _ => false
  | .treeStore => false
  | .treeLoad => false
  | .deriveCodes => false
  | .hufEnc _ => false
  | .pack => false
  | .unpack => false

/-- The decoder (R82, R83, R85), total on every word. -/
def decodeWord (w : Word) : Except Reject Instr :=
  if fieldRsv w ≠ 0 then .error .reservedBits
  else if fieldOp w = 0 then .error .zeroOpcode
  else match commandOf (fieldOp w).toNat (fieldS w) (fieldD w) with
    | none => .error .reservedOpcode
    | some i =>
      if (fieldS w && !i.usesS) || (fieldD w && !i.usesD) then .error .unusedField
      else if i.wellFormed then .ok i
      else .error .sameBuffer

/-- The command a word spells, if it spells one (R83). -/
def decode (w : Word) : Option Instr := (decodeWord w).toOption

/-- A word from its four fields (R80). -/
def assembleFields (op : BitVec 8) (s d : Bool) : Word :=
  ((0#22 ++ BitVec.ofBool d) ++ BitVec.ofBool s) ++ op

/-- The encoder (R82, R84). -/
def encode : Instr → Word
  | .buildTree s => assembleFields 0x01#8 s.toBit false
  | .treeStore => assembleFields 0x02#8 false false
  | .treeLoad => assembleFields 0x03#8 false false
  | .deriveCodes => assembleFields 0x04#8 false false
  | .hufEnc s => assembleFields 0x05#8 s.toBit false
  | .hufDec d => assembleFields 0x06#8 false d.toBit
  | .rleEnc s d => assembleFields 0x07#8 s.toBit d.toBit
  | .rleDec s d => assembleFields 0x08#8 s.toBit d.toBit
  | .pack => assembleFields 0x09#8 false false
  | .unpack => assembleFields 0x0A#8 false false

/-- What the decoder reads from a table row's word. Every command is exactly one 32-bit word, and every row of the table has 32 bits
(R86), so a word of another length, shorter or longer, spells nothing. -/
def decodeTableWord (nbits w : Nat) : Option Instr :=
  if nbits = 32 ∧ w < 2 ^ 32 then decode (BitVec.ofNat 32 w) else none

end Sys2Proof
end

