-- ==== Sys2Proof/Machine/Bits.lean ====
section
/-! DEFINITION. Bit strings, bytes and words: the orders the spec fixes (20_memory.md R65, R66, R70; 41_bitpack.md R120). -/

namespace Sys2Proof.Machine

/-- The number a bit string spells, its first bit most significant. -/
def natOfBits (bs : BitString) : Nat := bs.foldl (fun n b => 2 * n + b.toNat) 0

/-- The `width` low bits of a number, most significant first ("zero-padded on the left", R122). -/
def bitsOfNat : Nat → Nat → BitString
  | 0, _ => []
  | width + 1, n => n.testBit width :: bitsOfNat width n

/-- A byte from its bits, the first bit most significant (R120). -/
def byteOfBits (bs : BitString) : Byte := BitVec.ofNat 8 (natOfBits bs)

/-- A byte's eight bits, most significant first (R122). -/
def bitsOfByte (b : Byte) : BitString := bitsOfNat 8 b.toNat

/-- A BITS-window word from its 32 bits: word bit 31 − k is the k-th (R65). -/
def wordOfBits (bs : BitString) : Word := BitVec.ofNat 32 (natOfBits bs)

/-- The 32 bits a BITS-window word holds, first bit at word bit 31 (R65). -/
def bitsOfWord (w : Word) : BitString := bitsOfNat 32 w.toNat

/-- A word from its four byte lanes, lane 0 at bits 7:0 (R66). -/
def wordOfLanes (b0 b1 b2 b3 : Byte) : Word := ((b3 ++ b2) ++ b1) ++ b0

/-- Byte lane j of a word, bits 8j+7 to 8j (R66). -/
def laneOfWord (w : Word) (j : Nat) : Byte := w.extractLsb' (8 * j) 8

/-- ⌈n/d⌉. -/
def ceilDiv (n d : Nat) : Nat := (n + d - 1) / d

end Sys2Proof.Machine
end

