-- ==== Sys2Proof/Config.lean ====
section
/-! DEFINITION. What an implementation fixes (00_scope.md R7; 92_eei_decisions.md D4 to D9, D19) and the free values the
spec leaves open (93_implementation_defined.md U2, U4, U5, U6). -/

namespace Sys2Proof

/-- The parameters of R7 that are free, and the platform's base address (R62, R234; U12). The defaults are the spec's.
A machine holds one of these and no step changes it. -/
structure Config where
  /-- `MAX_SYMS`: capacity of each symbol buffer, in symbols. -/
  maxSyms : Nat := 524288
  /-- `MAX_BITS`: capacity of BITS, in bits. -/
  maxBits : Nat := 16777216
  /-- `MAX_ALPHA`: most distinct symbols a tree or a code table holds. -/
  maxAlpha : Nat := 1024
  /-- The base address the platform adds to every address of the block's map (R62). -/
  platformBase : Word := 0
  deriving DecidableEq, Repr

namespace Config

/-- `MAX_BYTES` = 1 + `MAX_BITS`/8, derived (R7, R42). -/
def maxBytes (c : Config) : Nat := 1 + c.maxBits / 8

/-- `MAX_TSER` = 2·`MAX_ALPHA` − 1, derived (R7, R43). -/
def maxTser (c : Config) : Nat := 2 * c.maxAlpha - 1

/-- `MAX_CODE_LEN`: 32, fixed (R7). -/
def maxCodeLen : Nat := 32

/-- The legal ranges of R7. The base address keeps words aligned (log entry 12). -/
abbrev Legal (c : Config) : Prop :=
  2 ≤ c.maxSyms ∧ c.maxSyms ≤ 4194304 ∧
  c.maxBits % 32 = 0 ∧ 32 ≤ c.maxBits ∧ c.maxBits ≤ 67108864 ∧
  1 ≤ c.maxAlpha ∧ c.maxAlpha ≤ 65535 ∧
  c.platformBase.toNat % 4 = 0

/-- The block with every parameter at its default (R7). -/
def default : Config := {}

/-- Free value, no body: the bits a host read returns where the spec says "unspecified" (U2, U4, U5, U6). It is applied to a
counter that every such read advances, so that nothing relates two draws (log entry 2). -/
opaque freeWord : Nat → Word

end Config

end Sys2Proof
end

