-- ==== Sys2Proof/Machine/State.lean ====
section
/-! DEFINITION. The state of the block (10_state.md R20), of its host (00_scope.md R4) and of the model's own bookkeeping, as
plain data; the reasons a step can stop; the state after reset (70_reset_and_hazards.md R250). -/

namespace Sys2Proof.Machine

/-! ### Contents of the stores -/

/-- A buffer: the entries written since reset, each with its index (R49). An index that is not listed has not been written, and
reads as no value. The canonical form has the indexes strictly rising (`Store.wf`). -/
abbrev Store (α : Type) := List (Nat × α)

/-- A tree node (R14). -/
inductive Node where
  | leaf (sym : Symbol)
  | inner (left right : Node)
  deriving DecidableEq, Repr

/-- A tree value (R14). -/
inductive Tree where
  | empty
  | root (node : Node)
  deriving DecidableEq, Repr

/-- An entry of the code table (R15): a symbol and its codeword, first bit first. -/
structure CodeEntry where
  sym : Symbol
  code : BitString
  deriving DecidableEq, Repr

/-- A code table, in the order of R190. -/
abbrev CodeTable := List CodeEntry

/-- The five buffers of R20. SYM0 and SYM1 have one 32-bit entry per index (R40), BITS one bit (R41), BYTES one byte (R42); an
entry of TSER is two words that are written separately (R43, R67). -/
structure Memory where
  sym0 : Store Symbol := []
  sym1 : Store Symbol := []
  bits : Store Bool := []
  bytes : Store Byte := []
  tserTag : Store Word := []
  tserSym : Store Word := []
  deriving DecidableEq, Repr

/-! ### Registers -/

/-- The result codes of R220. `shapeMismatch` is reserved for the host: the block never writes it (R222). -/
inductive ResultCode where
  | ok
  | invalidFormat
  | corruptStream
  | unknownSymbol
  | shapeMismatch
  | illegalCommand
  | capacityExceeded
  | notReady
  | invariantViolation
  deriving DecidableEq, Repr

/-- The fields of `STATUS` (R29). -/
structure Status where
  busy : Bool := false
  done : Bool := false
  err : ResultCode := .ok
  werr : Bool := false
  deriving DecidableEq, Repr

/-- The five length registers (R31 to R34). Each stores any 32-bit value. -/
structure Lengths where
  sym0 : Word := 0
  sym1 : Word := 0
  bits : Word := 0
  bytes : Word := 0
  tser : Word := 0
  deriving DecidableEq, Repr

/-! ### The host and the model's own bookkeeping -/

/-- One operation of the host (R60, R88, R89, R251). Addresses are platform addresses: the block's own plus the platform base. -/
inductive HostOp where
  /-- `wr addr, value`: a write of a whole word (R88). -/
  | wr (addr value : Word)
  /-- `rd addr`: a read of a whole word (R88). -/
  | rd (addr : Word)
  /-- `expect addr, value`: a read, and the program fails unless it returns `value` (R88). -/
  | expect (addr value : Word)
  /-- A write with the given byte enables (R61: narrower than a word unless all four are set). -/
  | wrBytes (addr value : Word) (enables : BitVec 4)
  /-- A read with the given byte enables (R61). -/
  | rdBytes (addr : Word) (enables : BitVec 4)
  /-- `wait`: read STATUS until DONE = 1, then clear DONE (R89). -/
  | wait
  /-- The `wait` of `run <command> -> <err>`: as `wait`, and the program fails unless the last read of STATUS returns ERR = `err` in
  bits 11:8 (R89; log entry 18). -/
  | waitErr (err : BitVec 4)
  /-- The block's reset input is asserted (R251). -/
  | resetInput
  deriving DecidableEq, Repr

/-- What the bus answers to one access (R60, R61). -/
inductive BusResponse where
  /-- A read returned this word. -/
  | data (value : Word)
  /-- A write was taken without an error. -/
  | ack
  /-- `BusError`: the access changed nothing and returned nothing (R61). -/
  | busError
  deriving DecidableEq, Repr

/-- The two agents (R4). -/
inductive Agent where
  | host
  | engine
  deriving DecidableEq, Repr

/-- What is not the block: the host's program and what it has seen, and the model's own data. -/
structure Env where
  /-- The host's operations still to perform, in program order (R72). -/
  pending : List HostOp := []
  /-- The bus responses so far, newest first. -/
  responses : List BusResponse := []
  /-- An `expect`, or the `-> <err>` of a `run`, has failed: the program has ended (R88, R89). -/
  failed : Bool := false
  /-- Which agent moves next; when the list is empty, the engine moves while a command is in flight and the host otherwise. Any
  finite delay of a completion is some list, and no list delays it for ever (R262). -/
  turns : List Agent := []
  /-- How many free values have been drawn (`Config.freeWord`). -/
  draws : Nat := 0
  deriving DecidableEq, Repr

/-! ### Reasons to stop -/

/-- The buffers, as a fault names them. -/
inductive Buffer where
  | sym (b : SymBuf)
  | bits
  | bytes
  | tserTag
  | tserSym
  deriving DecidableEq, Repr

/-- Why the machine stops. -/
inductive Fault where
  /-- A command read a buffer entry that has not been written since reset: "A command that reads an entry not written since
  reset is a model fault" (R49; U1). Raised by every meaning that reads a source sequence. Safe: the hardware goes on with
  whatever the memory holds, the model claims nothing of it. -/
  | unwrittenEntry (buffer : Buffer) (index : Nat)
  deriving DecidableEq, Repr

/-- Why the model gives an instruction no meaning. -/
inductive Refusal where
  /-- Raised by an arm of `exec` whose instruction has no meaning yet; no arm does. Safe. -/
  | notModelled (mnemonic : String)
  deriving DecidableEq, Repr

/-! ### The state -/

/-- The state of the machine. -/
structure State where
  /-- The parameters of the build (R7); the `CAP_*` registers read them (R38). No step changes it. -/
  cfg : Config := .default
  /-- The buffers SYM0, SYM1, BITS, BYTES and TSER (R40 to R43). -/
  mem : Memory := {}
  /-- `CTRL.IE` (R28). -/
  ie : Bool := false
  /-- `STATUS` (R29). -/
  status : Status := {}
  /-- `cmd_last`, the value `CMD` reads (R30). -/
  cmdLast : Word := 0
  /-- The length registers (R31 to R34). -/
  lens : Lengths := {}
  /-- `ERR_INFO` (R37). -/
  errInfo : Word := 0
  /-- TREE with its validity bit: `none` is `tree_valid` = 0 (R44). -/
  tree : Option Tree := none
  /-- CODE with its validity bit: `none` is `code_valid` = 0 (R45). -/
  code : Option CodeTable := none
  /-- The command accepted and not yet completed (R47). -/
  inflight : Option Word := none
  /-- The host and the model's own bookkeeping. -/
  env : Env := {}
  deriving DecidableEq, Repr

/-- The machine right after reset (R250): every register at the value R250 gives, no tree, no code table, every buffer entry
unwritten, the parameters at their defaults, a host with nothing to do. -/
def State.reset : State := {}

end Sys2Proof.Machine
end

