-- ==== Sys2Proof/Machine/Store.lean ====
section
/-! DEFINITION. Reading and writing buffer entries. An entry that is not listed has not been written since reset (10_state.md
R49). -/

namespace Sys2Proof.Machine

namespace Store

/-- The entry at an index, `none` when it has not been written since reset (R49). -/
def get? {α : Type} : Store α → Nat → Option α
  | [], _ => none
  | (k, a) :: rest, i => if k = i then some a else get? rest i

/-- Write one entry and mark it written (R49), keeping the indexes rising. -/
def set {α : Type} : Store α → Nat → α → Store α
  | [], i, a => [(i, a)]
  | (k, b) :: rest, i, a =>
    if i < k then (i, a) :: (k, b) :: rest
    else if i = k then (i, a) :: rest
    else (k, b) :: set rest i a

/-- Write consecutive entries from an index on. -/
def setMany {α : Type} (m : Store α) (i : Nat) : List α → Store α
  | [] => m
  | a :: rest => setMany (m.set i a) (i + 1) rest

/-- A list numbered from an index on. -/
def number {α : Type} (i : Nat) : List α → Store α
  | [] => []
  | a :: rest => (i, a) :: number (i + 1) rest

/-- The whole-sequence write of a destination buffer from index 0 (R112): the entries below the length are replaced, and those at
or beyond it keep what was last written to them (U3). -/
def overwrite {α : Type} (m : Store α) (out : List α) : Store α :=
  number 0 out ++ m.filter (fun c => decide (out.length ≤ c.1))

/-- The canonical form: the indexes rise strictly from `lo` on and stay below the capacity. -/
def wfFrom {α : Type} (cap : Nat) : Nat → Store α → Bool
  | _, [] => true
  | lo, (k, _) :: rest => decide (lo ≤ k) && decide (k < cap) && wfFrom cap (k + 1) rest

/-- The canonical form of a buffer of the given capacity. -/
def wf {α : Type} (cap : Nat) (m : Store α) : Bool := wfFrom cap 0 m

end Store

namespace Memory

/-- SYM0 or SYM1. -/
def sym (m : Memory) : SymBuf → Store Symbol
  | .sym0 => m.sym0
  | .sym1 => m.sym1

/-- Replace SYM0 or SYM1. -/
def setSym (m : Memory) (b : SymBuf) (st : Store Symbol) : Memory :=
  match b with
  | .sym0 => { m with sym0 := st }
  | .sym1 => { m with sym1 := st }

/-- Every buffer is in canonical form, within the capacity R7 gives it. -/
def wf (c : Config) (m : Memory) : Bool :=
  m.sym0.wf c.maxSyms && m.sym1.wf c.maxSyms && m.bits.wf c.maxBits && m.bytes.wf c.maxBytes &&
  m.tserTag.wf c.maxTser && m.tserSym.wf c.maxTser

end Memory

namespace Lengths

/-- SYM0_LEN or SYM1_LEN (R31). -/
def sym (l : Lengths) : SymBuf → Word
  | .sym0 => l.sym0
  | .sym1 => l.sym1

/-- Write SYM0_LEN or SYM1_LEN. -/
def setSym (l : Lengths) (b : SymBuf) (v : Word) : Lengths :=
  match b with
  | .sym0 => { l with sym0 := v }
  | .sym1 => { l with sym1 := v }

end Lengths

end Sys2Proof.Machine
end

