-- ==== Sys2Proof/Machine/Flags.lean ====
section
/-! DEFINITION. The block has no condition codes (10_state.md R23): its flags are fields of `STATUS` and `TREE_STAT`, computed
here with `CODE_COUNT` and the interrupt output. -/

namespace Sys2Proof.Machine

/-- The number of a result code in `STATUS.ERR` (R220). -/
def ResultCode.toBits : ResultCode → BitVec 4
  | .ok => 0
  | .invalidFormat => 1
  | .corruptStream => 2
  | .unknownSymbol => 3
  | .shapeMismatch => 4
  | .illegalCommand => 5
  | .capacityExceeded => 6
  | .notReady => 7
  | .invariantViolation => 8

/-- The leaves of a node, left to right. -/
def Node.leaves : Node → List Symbol
  | .leaf s => [s]
  | .inner l r => l.leaves ++ r.leaves

/-- The leaves of a tree, left to right. -/
def Tree.leaves : Tree → List Symbol
  | .empty => []
  | .root n => n.leaves

/-- TREE_KIND of a tree (R36). -/
def Tree.kind : Tree → BitVec 2
  | .empty => 0
  | .root (.leaf _) => 1
  | .root (.inner _ _) => 2

namespace State

/-- The word `STATUS` reads (R29). -/
def statusWord (s : State) : Word :=
  (((((0#15 ++ BitVec.ofBool s.status.werr) ++ 0#4) ++ s.status.err.toBits) ++ 0#6) ++ BitVec.ofBool s.status.done) ++
    BitVec.ofBool s.status.busy

/-- The word `CTRL` reads: SRST and the reserved bits read 0 (R28). -/
def ctrlWord (s : State) : Word := 0#31 ++ BitVec.ofBool s.ie

/-- LEAF_COUNT, 0 when no tree is held (R36). -/
def leafCount (s : State) : Nat :=
  match s.tree with
  | some t => t.leaves.length
  | none => 0

/-- TREE_KIND, 0 when no tree is held (R36). -/
def treeKind (s : State) : BitVec 2 :=
  match s.tree with
  | some t => t.kind
  | none => 0

/-- The word `TREE_STAT` reads (R36). -/
def treeStatWord (s : State) : Word :=
  (((BitVec.ofNat 16 s.leafCount ++ 0#12) ++ s.treeKind) ++ BitVec.ofBool s.code.isSome) ++ BitVec.ofBool s.tree.isSome

/-- `CODE_COUNT`, 0 when `code_valid` = 0 (R35). -/
def codeCount (s : State) : Nat :=
  match s.code with
  | some c => c.length
  | none => 0

/-- The interrupt output `irq` = `CTRL.IE` AND `STATUS.DONE` (R228). -/
def irq (s : State) : Bool := s.ie && s.status.done

end State

end Sys2Proof.Machine
end

