-- ==== Sys2Proof/Machine/Operands.lean ====
section
/-! DEFINITION. The operands of a command (30_encoding.md R81; 40_common.md R103, R112): whole sequences, read below a length
register, with the source capacity check; and the outcome of evaluating a command's rule (00_scope.md R13). -/

namespace Sys2Proof.Machine

/-- What evaluating a command's rule over its operands gives (R13, R101). -/
inductive Eval (α : Type) where
  /-- The results, to be written at completion. -/
  | value (a : α)
  /-- `raise <Error>(info)` (R13). -/
  | raise (e : ResultCode) (info : Nat)
  /-- The machine stops (R49). -/
  | stop (f : Fault)
  deriving DecidableEq, Repr

/-- Evaluate one part of a rule and then the next. -/
def Eval.bind {α β : Type} (x : Eval α) (f : α → Eval β) : Eval β :=
  match x with
  | .value a => f a
  | .raise e info => .raise e info
  | .stop r => .stop r

/-- R103: a source length above the buffer's capacity raises `CapacityExceeded(0)`, before anything is read. -/
def checkSource {α : Type} (len cap : Nat) (rest : Eval α) : Eval α :=
  if cap < len then .raise .capacityExceeded 0 else rest

/-- R104: an output longer than the destination's capacity raises `CapacityExceeded(0)`. -/
def checkOutput {α : Type} (len cap : Nat) (rest : Eval α) : Eval α :=
  if cap < len then .raise .capacityExceeded 0 else rest

/-- One entry of a source; an entry not written since reset is a fault (R49, U1). -/
def readEntry {α : Type} (buf : Buffer) (m : Store α) (i : Nat) : Eval α :=
  match m.get? i with
  | some a => .value a
  | none => .stop (.unwrittenEntry buf i)

/-- The `n` entries of a source from index `i` on (R112). -/
def readFrom {α : Type} (buf : Buffer) (m : Store α) : Nat → Nat → Eval (List α)
  | _, 0 => .value []
  | i, n + 1 => (readEntry buf m i).bind fun a => (readFrom buf m (i + 1) n).bind fun as => .value (a :: as)

namespace State

/-- `SYMb_LEN` as a number. -/
def symLen (s : State) (b : SymBuf) : Nat := (s.lens.sym b).toNat

/-- `BIT_LEN` as a number. -/
def bitLen (s : State) : Nat := s.lens.bits.toNat

/-- `BYTE_LEN` as a number. -/
def byteLen (s : State) : Nat := s.lens.bytes.toNat

/-- `TSER_LEN` as a number. -/
def tserLen (s : State) : Nat := s.lens.tser.toNat

/-- `symseq(b)` = `SYM[b][0..SYMb_LEN)` (R11). -/
def symseq (s : State) (b : SymBuf) : Eval (List Symbol) := readFrom (.sym b) (s.mem.sym b) 0 (s.symLen b)

/-- `bitseq` = `BITS[0..BIT_LEN)` (R11). -/
def bitseq (s : State) : Eval BitString := readFrom .bits s.mem.bits 0 s.bitLen

end State

end Sys2Proof.Machine
end

