-- ==== Sys2Proof/Machine/Ops.lean ====
section
/-! DEFINITION. The operations every command and every access share: acceptance (40_common.md R100), the writing of results
(R112), the error effects (R106), completion (R105), reset (70_reset_and_hazards.md R250, R251) and the drawing of a free
value. The block has no trap (60_exceptions.md R224): what other machines do in taking an exception is here completion with an
error code, one shared operation (`State.completeWithError`), and there is nothing to return from (R226). -/

namespace Sys2Proof.Machine

/-- What a command writes (R82). -/
inductive Dest where
  | sym (b : SymBuf)
  | bits
  | bytes
  | tser
  | tree
  | code
  deriving DecidableEq, Repr

/-- Bits of BITS up to the end of the 32-bit window word that holds the last output bit, 0 beyond the output (R112). -/
def fillBits (out : BitString) : BitString :=
  out ++ List.replicate (32 * ceilDiv out.length 32 - out.length) false

/-- Bytes of BYTES up to the end of the window word that holds the last output byte, 0 beyond the output (R112); the lanes at or
beyond `MAX_BYTES` do not exist (R66; log entry 5). -/
def fillBytes (c : Config) (out : List Byte) : List Byte :=
  out ++ List.replicate (min (4 * ceilDiv out.length 4) c.maxBytes - out.length) 0

namespace State

/-! ### Results -/

/-- Write a symbol sequence: `SYM[D]` from index 0, then `SYMD_LEN` (R112). -/
def storeSyms (b : SymBuf) (out : List Symbol) (s : State) : State :=
  { s with
    mem := s.mem.setSym b ((s.mem.sym b).overwrite out)
    lens := s.lens.setSym b (BitVec.ofNat 32 out.length) }

/-- Write a bit string with the window-word fill, then `BIT_LEN` (R112). -/
def storeBits (out : BitString) (s : State) : State :=
  { s with
    mem := { s.mem with bits := s.mem.bits.overwrite (fillBits out) }
    lens := { s.lens with bits := BitVec.ofNat 32 out.length } }

/-- Write a packed buffer with the window-word fill, then `BYTE_LEN` (R112). -/
def storeBytes (out : List Byte) (s : State) : State :=
  { s with
    mem := { s.mem with bytes := s.mem.bytes.overwrite (fillBytes s.cfg out) }
    lens := { s.lens with bytes := BitVec.ofNat 32 out.length } }

/-- Write a serialized tree, its (tag, sym) entries, then `TSER_LEN` (R171). -/
def storeTser (out : List (Word × Word)) (s : State) : State :=
  { s with
    mem :=
      { s.mem with
        tserTag := s.mem.tserTag.overwrite (out.map Prod.fst)
        tserSym := s.mem.tserSym.overwrite (out.map Prod.snd) }
    lens := { s.lens with tser := BitVec.ofNat 32 out.length } }

/-- Write TREE: `tree_valid` becomes 1 and `code_valid` 0 (R46 (a)). -/
def storeTree (t : Tree) (s : State) : State := { s with tree := some t, code := none }

/-- Write CODE: `code_valid` becomes 1 (R46 (c)). -/
def storeCode (c : CodeTable) (s : State) : State := { s with code := some c }

/-! ### Error effects -/

/-- What a failing command does to the destination it would have written (R106 (b) to (d)): a length register becomes 0 and its
buffer's entries unwritten; TREE loses both validity bits, CODE its own. -/
def voidDest (d : Dest) (s : State) : State :=
  match d with
  | .sym b => { s with mem := s.mem.setSym b [], lens := s.lens.setSym b 0 }
  | .bits => { s with mem := { s.mem with bits := [] }, lens := { s.lens with bits := 0 } }
  | .bytes => { s with mem := { s.mem with bytes := [] }, lens := { s.lens with bytes := 0 } }
  | .tser => { s with mem := { s.mem with tserTag := [], tserSym := [] }, lens := { s.lens with tser := 0 } }
  | .tree => { s with tree := none, code := none }
  | .code => { s with code := none }

/-! ### Life of a command -/

/-- Acceptance of a command word (R100). The snapshot of R100 is not stored: no access made while the command is in flight can
change what it reads (R68, R101; log entry 4). -/
def accept (w : Word) (s : State) : State :=
  { s with
    cmdLast := w
    status := { s.status with busy := true, done := false, err := .ok }
    inflight := some w }

/-- Completion with a result code and the `ERR_INFO` value (R105). -/
def complete (e : ResultCode) (info : Nat) (s : State) : State :=
  { s with
    status := { s.status with busy := false, done := true, err := e }
    errInfo := if e = .ok then 0 else BitVec.ofNat 32 info
    inflight := none }

/-- A legal command ends with an error: the error effects on its destination, and completion (R105, R106, R224). -/
def completeWithError (d : Dest) (e : ResultCode) (info : Nat) (s : State) : State :=
  complete e info (voidDest d s)

/-- An illegal command word completes with `IllegalCommand` and no other effect (R102). -/
def completeIllegal (s : State) : State := complete .illegalCommand 0 s

/-! ### Reset -/

/-- The reset of the block by its reset input or by `CTRL.SRST` (R250, R251, R252). The build, the host and the model's own
bookkeeping are not the block's state. -/
def hardReset (s : State) : State := { State.reset with cfg := s.cfg, env := s.env }

/-! ### Free values -/

/-- A read returns `known`, and a free value on the bits of `open`: each such read draws a fresh one (U2, U4, U5, U6). -/
def draw (known : Word) (mask : Word) (s : State) : Word × State :=
  if mask = 0 then (known, s)
  else ((known &&& ~~~mask) ||| (Config.freeWord s.env.draws &&& mask),
    { s with env := { s.env with draws := s.env.draws + 1 } })

end State

/-- A command's end (R101, R105): its results written and completion with `OK`, or the error effects and completion with the
error. -/
def finish {α : Type} (d : Dest) (store : α → State → State) (r : Eval α) (s : State) :
    Host.Outcome State Fault Refusal :=
  match r with
  | .value a => .next ((store a s).complete .ok 0)
  | .raise e info => .next (s.completeWithError d e info)
  | .stop f => .fault f

end Sys2Proof.Machine
end

