-- ==== Sys2Proof/Machine/BitPack.lean ====
section
/-! DEFINITION. bit_packer and bit_unpacker: PACK and UNPACK (41_bitpack.md). -/

namespace Sys2Proof.Machine

/-- The padding count of a bit string of length L (R120). -/
def paddingOf (len : Nat) : Nat := (8 - len % 8) % 8

/-- `packed(b)` (R120): the header byte, then the bits, filled up with zeros, eight to a byte. -/
def packed (b : BitString) : List Byte :=
  let ext := b ++ List.replicate (paddingOf b.length) false
  BitVec.ofNat 8 (paddingOf b.length) ::
    (List.range (ceilDiv b.length 8)).map (fun j => byteOfBits ((ext.drop (8 * j)).take 8))

/-- The rule of PACK up to its writes (R121). -/
def packEval (s : State) : Eval (List Byte) :=
  checkSource s.bitLen s.cfg.maxBits <|
  s.bitseq.bind fun b => .value (packed b)

/-- PACK (R121). -/
def execPack (s : State) : Host.Outcome State Fault Refusal :=
  finish .bytes State.storeBytes (packEval s) s

/-- The bits of the data bytes, less the padding (R122). -/
def unpackBits (padding : Nat) (data : List Byte) : BitString :=
  let bits := data.flatMap bitsOfByte
  bits.take (bits.length - padding)

/-- The rule of UNPACK up to its writes (R122). -/
def unpackEval (s : State) : Eval BitString :=
  checkSource s.byteLen s.cfg.maxBytes <|
  if s.byteLen = 0 then .raise .invalidFormat 0
  else
    (readEntry .bytes s.mem.bytes 0).bind fun header =>
    if 7 < header.toNat then .raise .invalidFormat header.toNat
    else if s.byteLen = 1 ∧ header.toNat ≠ 0 then .raise .invalidFormat header.toNat
    else
      (readFrom .bytes s.mem.bytes 1 (s.byteLen - 1)).bind fun data => .value (unpackBits header.toNat data)

/-- UNPACK (R122). -/
def execUnpack (s : State) : Host.Outcome State Fault Refusal :=
  finish .bits State.storeBits (unpackEval s) s

end Sys2Proof.Machine
end

