-- ==== Sys2Proof/Machine/HuffmanCodes.lean ====
section
/-! DEFINITION. canonical_code_generator: DERIVE_CODES (44_huffman_codes.md). -/

namespace Sys2Proof.Machine

/-- `walk(n, p)` (R190): the leaves left to right, each with its path from the root, 0 for left and 1 for right. -/
def Node.walk : Node → BitString → CodeTable
  | .leaf s, p => [⟨s, p⟩]
  | .inner l r, p => l.walk (p ++ [false]) ++ r.walk (p ++ [true])

/-- `codes(t)` (R190). The codeword of a single leaf is "0". -/
def Tree.codes : Tree → CodeTable
  | .empty => []
  | .root (.leaf s) => [⟨s, [false]⟩]
  | .root (.inner l r) => l.walk [false] ++ r.walk [true]

/-- Does a codeword exceed `MAX_CODE_LEN` (R104, R191)? -/
def tooLong (table : CodeTable) : Bool := table.any (fun e => decide (Config.maxCodeLen < e.code.length))

/-- The rule of DERIVE_CODES up to its writes (R191). -/
def deriveCodesEval (s : State) : Eval CodeTable :=
  match s.tree with
  | none => .raise .notReady 0
  | some t => if tooLong t.codes then .raise .capacityExceeded 0 else .value t.codes

/-- DERIVE_CODES (R191). -/
def execDeriveCodes (s : State) : Host.Outcome State Fault Refusal :=
  finish .code State.storeCode (deriveCodesEval s) s

end Sys2Proof.Machine
end

