-- ==== Sys2Proof/Machine/HuffmanCoding.lean ====
section
/-! DEFINITION. huffman_encoder and huffman_decoder: HUF_ENC and HUF_DEC (45_huffman_coding.md). -/

namespace Sys2Proof.Machine

/-- The codeword of the entry with the given symbol (R200). -/
def codeFor (table : CodeTable) (s : Symbol) : Option BitString :=
  match table with
  | [] => none
  | e :: rest => if e.sym = s then some e.code else codeFor rest s

/-- The loop of HUF_ENC over the symbols from index i on (R200): each symbol's codeword in input order. -/
def encodeFrom (table : CodeTable) : Nat → List Symbol → Eval BitString
  | _, [] => .value []
  | i, s :: rest =>
    match codeFor table s with
    | none => .raise .unknownSymbol i
    | some c => (encodeFrom table (i + 1) rest).bind fun out => .value (c ++ out)

/-- The rule of HUF_ENC up to its writes (R200). The whole source is read before the loop (R49, R112). -/
def hufEncEval (b : SymBuf) (s : State) : Eval BitString :=
  match s.code with
  | none => .raise .notReady 0
  | some table =>
    checkSource (s.symLen b) s.cfg.maxSyms <|
    (s.symseq b).bind fun src =>
    (encodeFrom table 0 src).bind fun out =>
    checkOutput out.length s.cfg.maxBits <| .value out

/-- HUF_ENC (R200). -/
def execHufEnc (b : SymBuf) (s : State) : Host.Outcome State Fault Refusal :=
  finish .bits State.storeBits (hufEncEval b s) s

/-- The child one bit leads to: 0 = left, 1 = right (R201). The walk never stands on a leaf. -/
def Node.child : Node → Bool → Node
  | .leaf s, _ => .leaf s
  | .inner l r, b => if b then r else l

/-- The loop of HUF_DEC over a tree whose root is an inner node (R201): `node` is where the walk stands, `start` the index of the
first bit of the codeword begun, `k` the index of the next bit. -/
def decodeLoop (root : Node) : Node → Nat → Nat → BitString → Eval (List Symbol)
  | _, start, k, [] => if start < k then .raise .corruptStream start else .value []
  | node, start, k, b :: rest =>
    match node.child b with
    | .leaf s => (decodeLoop root root (k + 1) (k + 1) rest).bind fun out => .value (s :: out)
    | .inner l r => decodeLoop root (.inner l r) start (k + 1) rest

/-- HUF_DEC's output for a tree and a bit string (R201). The single-leaf tree does not examine the bit values. -/
def decodeBits (b : BitString) : Tree → Eval (List Symbol)
  | .empty => if b = [] then .value [] else .raise .corruptStream 0
  | .root (.leaf sym) => .value (List.replicate b.length sym)
  | .root (.inner l r) => decodeLoop (.inner l r) (.inner l r) 0 0 b

/-- The rule of HUF_DEC up to its writes (R201). The whole bit string is read before the tree is looked at (R49, R112). -/
def hufDecEval (s : State) : Eval (List Symbol) :=
  match s.tree with
  | none => .raise .notReady 0
  | some t =>
    checkSource s.bitLen s.cfg.maxBits <|
    s.bitseq.bind fun b =>
    (decodeBits b t).bind fun out =>
    checkOutput out.length s.cfg.maxSyms <| .value out

/-- HUF_DEC (R201). -/
def execHufDec (d : SymBuf) (s : State) : Host.Outcome State Fault Refusal :=
  finish (.sym d) (State.storeSyms d) (hufDecEval s) s

end Sys2Proof.Machine
end

