-- ==== Sys2Proof/Machine/HuffmanTree.lean ====
section
/-! DEFINITION. huffman_tree_builder: BUILD_TREE, TREE_STORE and TREE_LOAD (43_huffman_tree.md). -/

namespace Sys2Proof.Machine

/-! ### BUILD_TREE -/

/-- Insert a symbol into a strictly rising list of symbols, once (R160; symbols compare as unsigned, R9). -/
def insertSym (s : Symbol) : List Symbol → List Symbol
  | [] => [s]
  | t :: rest => if s.toNat < t.toNat then s :: t :: rest else if s = t then t :: rest else t :: insertSym s rest

/-- The distinct symbols of a sequence, ascending (R160). -/
def distinctSyms (src : List Symbol) : List Symbol := src.foldr insertSym []

/-- An element of the queue Q (R160): its key is (freq, seq). -/
structure QItem where
  freq : Nat
  seq : Nat
  node : Node
  deriving DecidableEq, Repr

/-- The lexicographic order of the keys (R161). -/
def QItem.before (x y : QItem) : Bool := decide (x.freq < y.freq) || (decide (x.freq = y.freq) && decide (x.seq < y.seq))

/-- `pop_min(Q)` (R161): the element of least key and the rest, `none` for the empty queue. -/
def popMin : List QItem → Option (QItem × List QItem)
  | [] => none
  | x :: rest =>
    match popMin rest with
    | none => some (x, [])
    | some (m, others) => if m.before x then some (m, x :: others) else some (x, rest)

/-- One leaf per distinct symbol, keyed by its frequency and numbered in ascending symbol order (R160, R161). -/
def leafQueue (src : List Symbol) : Nat → List Symbol → List QItem
  | _, [] => []
  | i, s :: rest => ⟨src.count s, i, .leaf s⟩ :: leafQueue src (i + 1) rest

/-- The merge loop (R160): while two elements are left, the two of least key become one, the first popped its left child (R162).
Every turn takes one element away, so as many turns as elements are enough. -/
def mergeLoop : Nat → Nat → List QItem → List QItem
  | 0, _, q => q
  | turns + 1, next, q =>
    match popMin q with
    | none => []
    | some (x, q1) =>
      match popMin q1 with
      | none => [x]
      | some (y, q2) => mergeLoop turns (next + 1) (⟨x.freq + y.freq, next, .inner x.node y.node⟩ :: q2)

/-- The tree of a sequence (R160). -/
def buildTree (src : List Symbol) : Tree :=
  let syms := distinctSyms src
  match mergeLoop syms.length syms.length (leafQueue src 0 syms) with
  | [] => .empty
  | x :: _ => .root x.node

/-- The rule of BUILD_TREE up to its writes (R160). -/
def buildTreeEval (b : SymBuf) (s : State) : Eval Tree :=
  checkSource (s.symLen b) s.cfg.maxSyms <|
  (s.symseq b).bind fun src =>
  checkOutput (distinctSyms src).length s.cfg.maxAlpha <| .value (buildTree src)

/-- BUILD_TREE (R160). -/
def execBuildTree (b : SymBuf) (s : State) : Host.Outcome State Fault Refusal :=
  finish .tree State.storeTree (buildTreeEval b s) s

/-! ### The portable form -/

/-- `ser` (R170): preorder, a leaf (1, s), an inner node (0, 0). -/
def Node.serialize : Node → List (Word × Word)
  | .leaf s => [(1, s)]
  | .inner l r => (0, 0) :: (l.serialize ++ r.serialize)

/-- `serialize` (R170). -/
def Tree.serialize : Tree → List (Word × Word)
  | .empty => []
  | .root n => n.serialize

/-- The rule of TREE_STORE up to its writes (R171). -/
def treeStoreEval (s : State) : Eval (List (Word × Word)) :=
  match s.tree with
  | none => .raise .notReady 0
  | some t => .value t.serialize

/-- TREE_STORE (R171). -/
def execTreeStore (s : State) : Host.Outcome State Fault Refusal :=
  finish .tser State.storeTser (treeStoreEval s) s

/-! ### TREE_LOAD -/

/-- `parse(i)` of R172 over the `n` entries of TSER: the node at index i and the next index. The first argument bounds the depth
of the recursion; `n + 1` is enough, since every level starts at a higher index and index n raises. -/
def parseNode (m : Memory) (n : Nat) : Nat → Nat → Eval (Node × Nat)
  | 0, _ => .raise .invalidFormat n
  | depth + 1, i =>
    if n ≤ i then .raise .invalidFormat n
    else
      (readEntry .tserTag m.tserTag i).bind fun tag =>
      if tag = 1 then (readEntry .tserSym m.tserSym i).bind fun sym => .value (.leaf sym, i + 1)
      else if tag = 0 then
        (parseNode m n depth (i + 1)).bind fun lj =>
        (parseNode m n depth lj.2).bind fun rk => .value (.inner lj.1 rk.1, rk.2)
      else .raise .invalidFormat i

/-- How many entries a node serializes into. -/
def Node.size : Node → Nat
  | .leaf _ => 1
  | .inner l r => 1 + l.size + r.size

/-- The leaves of a node in preorder, each with the TSER index it came from when the node came from index i (R172). -/
def Node.leavesAt : Node → Nat → List (Symbol × Nat)
  | .leaf s, i => [(s, i)]
  | .inner l r, i => l.leavesAt (i + 1) ++ r.leavesAt (i + 1 + l.size)

/-- The index of the first leaf whose symbol equals an earlier leaf's (R172). -/
def firstDuplicate : List Symbol → List (Symbol × Nat) → Option Nat
  | _, [] => none
  | seen, (s, i) :: rest => if s ∈ seen then some i else firstDuplicate (s :: seen) rest

/-- The rule of TREE_LOAD up to its writes (R172). -/
def treeLoadEval (s : State) : Eval Tree :=
  checkSource s.tserLen s.cfg.maxTser <|
  if s.tserLen = 0 then .value .empty
  else
    (parseNode s.mem s.tserLen (s.tserLen + 1) 0).bind fun rk =>
    if rk.2 ≠ s.tserLen then .raise .invalidFormat rk.2
    else
      match firstDuplicate [] (rk.1.leavesAt 0) with
      | some i => .raise .invalidFormat i
      | none => .value (.root rk.1)

/-- TREE_LOAD (R172). -/
def execTreeLoad (s : State) : Host.Outcome State Fault Refusal :=
  finish .tree State.storeTree (treeLoadEval s) s

end Sys2Proof.Machine
end

