-- ==== Sys2Proof/Machine/Rle.lean ====
section
/-! DEFINITION. rle_encoder and rle_decoder: RLE_ENC and RLE_DEC (42_rle.md). -/

namespace Sys2Proof.Machine

/-- The runs of a sequence: each maximal run of equal consecutive symbols with its length (R141). -/
def runs : List Symbol → List (Symbol × Nat)
  | [] => []
  | v :: rest =>
    match runs rest with
    | [] => [(v, 1)]
    | (u, c) :: more => if v = u then (u, c + 1) :: more else (v, 1) :: (u, c) :: more

/-- A pair sequence as two consecutive symbols a pair, value then count (R140). -/
def flattenPairs : List (Symbol × Nat) → List Symbol
  | [] => []
  | (v, c) :: rest => v :: BitVec.ofNat 32 c :: flattenPairs rest

/-- RLE_ENC's output (R141). -/
def rleEncode (src : List Symbol) : List Symbol := flattenPairs (runs src)

/-- The pairs of a flattened stream of even length (R140, R142). -/
def pairsOf : List Symbol → List (Symbol × Nat)
  | v :: c :: rest => (v, c.toNat) :: pairsOf rest
  | _ => []

/-- The length of RLE_DEC's output: the sum of the counts, taken without wrap-around (R110, R142). -/
def totalCount : List (Symbol × Nat) → Nat
  | [] => 0
  | (_, c) :: rest => c + totalCount rest

/-- RLE_DEC's output: each pair expanded into count repetitions of value (R142). -/
def expandPairs : List (Symbol × Nat) → List Symbol
  | [] => []
  | (v, c) :: rest => List.replicate c v ++ expandPairs rest

/-- The rule of RLE_ENC up to its writes (R141). -/
def rleEncEval (b : SymBuf) (s : State) : Eval (List Symbol) :=
  checkSource (s.symLen b) s.cfg.maxSyms <|
  (s.symseq b).bind fun src =>
  checkOutput (rleEncode src).length s.cfg.maxSyms <| .value (rleEncode src)

/-- RLE_ENC (R141). A word with S = D spells no command: `IllegalCommand` (R85 (e), R102). -/
def execRleEnc (b d : SymBuf) (s : State) : Host.Outcome State Fault Refusal :=
  if b = d then .next s.completeIllegal else finish (.sym d) (State.storeSyms d) (rleEncEval b s) s

/-- The rule of RLE_DEC up to its writes (R142). The output's length is compared before the output is formed. -/
def rleDecEval (b : SymBuf) (s : State) : Eval (List Symbol) :=
  checkSource (s.symLen b) s.cfg.maxSyms <|
  if s.symLen b % 2 = 1 then .raise .invariantViolation (s.symLen b)
  else
    (s.symseq b).bind fun src =>
    checkOutput (totalCount (pairsOf src)) s.cfg.maxSyms <| .value (expandPairs (pairsOf src))

/-- RLE_DEC (R142). A word with S = D spells no command: `IllegalCommand` (R85 (e), R102). -/
def execRleDec (b d : SymBuf) (s : State) : Host.Outcome State Fault Refusal :=
  if b = d then .next s.completeIllegal else finish (.sym d) (State.storeSyms d) (rleDecEval b s) s

end Sys2Proof.Machine
end

