-- ==== Sys2Proof/Machine/Dispatch.lean ====
section
/-! DEFINITION. The meaning of every command (30_encoding.md R82), one arm per constructor. -/

namespace Sys2Proof.Machine

def exec (i : Instr) (s : State) : Host.Outcome State Fault Refusal :=
  match i with
  | .buildTree b => Sys2Proof.Machine.execBuildTree b s
  | .treeStore => Sys2Proof.Machine.execTreeStore s
  | .treeLoad => Sys2Proof.Machine.execTreeLoad s
  | .deriveCodes => Sys2Proof.Machine.execDeriveCodes s
  | .hufEnc b => Sys2Proof.Machine.execHufEnc b s
  | .hufDec d => Sys2Proof.Machine.execHufDec d s
  | .rleEnc b d => Sys2Proof.Machine.execRleEnc b d s
  | .rleDec b d => Sys2Proof.Machine.execRleDec b d s
  | .pack => Sys2Proof.Machine.execPack s
  | .unpack => Sys2Proof.Machine.execUnpack s

end Sys2Proof.Machine
end

