-- ==== Sys2Proof/Machine/Bus.lean ====
section
/-! DEFINITION. The host bus: the address map (20_memory.md R62), the CSR block (10_state.md R24 to R38), the six windows
(R63 to R67), the accesses while a command is in flight (R26, R68) and the bus error (R61, R69). Addresses here are the block's
own. -/

namespace Sys2Proof.Machine

/-- The registers of R24. -/
inductive Csr where
  | id
  | ctrl
  | status
  | cmd
  | sym0Len
  | sym1Len
  | bitLen
  | byteLen
  | tserLen
  | codeCount
  | treeStat
  | errInfo
  | capSyms
  | capBits
  | capBytes
  | capAlpha
  | capCodeLen
  deriving DecidableEq, Repr

/-- The offset of a register (R24). -/
def Csr.offset : Csr → Nat
  | .id => 0x000
  | .ctrl => 0x004
  | .status => 0x008
  | .cmd => 0x00C
  | .sym0Len => 0x010
  | .sym1Len => 0x014
  | .bitLen => 0x018
  | .byteLen => 0x01C
  | .tserLen => 0x020
  | .codeCount => 0x024
  | .treeStat => 0x028
  | .errInfo => 0x02C
  | .capSyms => 0x040
  | .capBits => 0x044
  | .capBytes => 0x048
  | .capAlpha => 0x04C
  | .capCodeLen => 0x050

/-- The register at an offset; the other word offsets are reserved (R24, R25). -/
def Csr.ofOffset : Nat → Option Csr
  | 0x000 => some .id
  | 0x004 => some .ctrl
  | 0x008 => some .status
  | 0x00C => some .cmd
  | 0x010 => some .sym0Len
  | 0x014 => some .sym1Len
  | 0x018 => some .bitLen
  | 0x01C => some .byteLen
  | 0x020 => some .tserLen
  | 0x024 => some .codeCount
  | 0x028 => some .treeStat
  | 0x02C => some .errInfo
  | 0x040 => some .capSyms
  | 0x044 => some .capBits
  | 0x048 => some .capBytes
  | 0x04C => some .capAlpha
  | 0x050 => some .capCodeLen
  | _ => none

/-- What an address that is no bus error names. -/
inductive Region where
  /-- A register of R24. -/
  | csr (r : Csr)
  /-- A reserved word of the CSR block (R25). -/
  | reserved
  /-- Entry i of a SYM window (R63). -/
  | sym (b : SymBuf) (i : Nat)
  /-- Word w of the BITS window (R65). -/
  | bits (w : Nat)
  /-- Word w of the BYTES window (R66). -/
  | bytes (w : Nat)
  /-- The tag word of entry i of the TSER window (R67). -/
  | tserTag (i : Nat)
  /-- The sym word of entry i of the TSER window (R67). -/
  | tserSym (i : Nat)
  /-- Word `field` (0 to 3) of entry i of the CODE window (R64). -/
  | code (i : Nat) (field : Nat)
  deriving DecidableEq, Repr

/-- A region below its buffer's capacity, a bus error at or beyond it (R69). -/
def within (i cap : Nat) (r : Region) : Option Region := if i < cap then some r else none

/-- The region of a block address; `none` is a bus error: misaligned, unmapped, or at or beyond a buffer's capacity (R61, R62,
R69). -/
def regionOf (c : Config) (addr : Word) : Option Region :=
  let a := addr.toNat
  let offset := a % 0x1000000
  if a % 4 ≠ 0 then none
  else if a < 0x1000 then
    match Csr.ofOffset a with
    | some r => some (.csr r)
    | none => some .reserved
  else
    match a / 0x1000000 with
    | 1 => within (offset / 4) c.maxSyms (.sym .sym0 (offset / 4))
    | 2 => within (offset / 4) c.maxSyms (.sym .sym1 (offset / 4))
    | 3 => within (offset / 4) (c.maxBits / 32) (.bits (offset / 4))
    | 4 => within (offset / 4) (ceilDiv c.maxBytes 4) (.bytes (offset / 4))
    | 5 => within (offset / 8) c.maxTser (if offset % 8 = 0 then .tserTag (offset / 8) else .tserSym (offset / 8))
    | 6 => within (offset / 16) c.maxAlpha (.code (offset / 16) (offset % 16 / 4))
    | _ => none

/-! ### Reading -/

/-- The constant `ID` reads (R27). -/
def idWord : Word := 0x48420007#32

/-- The value a register holds (R27 to R38). -/
def readCsr (s : State) : Csr → Word
  | .id => idWord
  | .ctrl => s.ctrlWord
  | .status => s.statusWord
  | .cmd => s.cmdLast
  | .sym0Len => s.lens.sym0
  | .sym1Len => s.lens.sym1
  | .bitLen => s.lens.bits
  | .byteLen => s.lens.bytes
  | .tserLen => s.lens.tser
  | .codeCount => BitVec.ofNat 32 s.codeCount
  | .treeStat => s.treeStatWord
  | .errInfo => s.errInfo
  | .capSyms => BitVec.ofNat 32 s.cfg.maxSyms
  | .capBits => BitVec.ofNat 32 s.cfg.maxBits
  | .capBytes => BitVec.ofNat 32 s.cfg.maxBytes
  | .capAlpha => BitVec.ofNat 32 s.cfg.maxAlpha
  | .capCodeLen => BitVec.ofNat 32 Config.maxCodeLen

/-- The registers whose value is unspecified while a command is in flight (R26). -/
def Csr.hiddenWhileBusy : Csr → Bool
  | .sym0Len => true
  | .sym1Len => true
  | .bitLen => true
  | .byteLen => true
  | .tserLen => true
  | .codeCount => true
  | .treeStat => true
  | .errInfo => true
  | .id => false
  | .ctrl => false
  | .status => false
  | .cmd => false
  | .capSyms => false
  | .capBits => false
  | .capBytes => false
  | .capAlpha => false
  | .capCodeLen => false

/-- A word to be read: the bits the spec gives, and the mask of those it leaves unspecified. -/
structure Sample where
  known : Word
  mask : Word
  deriving DecidableEq, Repr

/-- A word the spec gives whole. -/
def Sample.exact (v : Word) : Sample := ⟨v, 0#32⟩

/-- A word the spec leaves unspecified. -/
def Sample.unspecified : Sample := ⟨0#32, BitVec.allOnes 32⟩

/-- A whole-word entry: unspecified when it has not been written since reset (R49, U2). -/
def sampleEntry (m : Store Word) (i : Nat) : Sample :=
  match m.get? i with
  | some v => .exact v
  | none => .unspecified

/-- Word w of the BITS window: word bit 31 − k is `BITS[32·w + k]` (R65). -/
def sampleBits (m : Store Bool) (w : Nat) : Sample :=
  let entries := (List.range 32).map (fun k => m.get? (32 * w + k))
  ⟨wordOfBits (entries.map (fun e => e.getD false)), wordOfBits (entries.map Option.isNone)⟩

/-- One lane of the BYTES window: its byte and the mask of its unspecified bits; a lane beyond the capacity reads 0 (R66). -/
def sampleLane (c : Config) (m : Store Byte) (i : Nat) : Byte × Byte :=
  if c.maxBytes ≤ i then (0, 0)
  else
    match m.get? i with
    | some b => (b, 0)
    | none => (0, BitVec.allOnes 8)

/-- Word w of the BYTES window: `BYTES[4·w + j]` in word bits 8j+7 to 8j (R66). -/
def sampleBytes (c : Config) (m : Store Byte) (w : Nat) : Sample :=
  let lane := fun j => sampleLane c m (4 * w + j)
  ⟨wordOfLanes (lane 0).1 (lane 1).1 (lane 2).1 (lane 3).1, wordOfLanes (lane 0).2 (lane 1).2 (lane 2).2 (lane 3).2⟩

/-- Word `field` of a code table entry: sym, len, the codeword right-aligned, 0 (R64). -/
def codeField (e : CodeEntry) (field : Nat) : Word :=
  match field with
  | 0 => e.sym
  | 1 => BitVec.ofNat 32 e.code.length
  | 2 => wordOfBits e.code
  | _ => 0

/-- A word of the CODE window: the first three are unspecified without a code table or at or beyond `CODE_COUNT` (R64, U6). -/
def sampleCode (code : Option CodeTable) (i field : Nat) : Sample :=
  match code.bind (fun table => table[i]?) with
  | some e => .exact (codeField e field)
  | none => if field < 3 then .unspecified else .exact 0#32

/-- What a read of a region finds (R26, R63 to R68). -/
def sample (s : State) : Region → Sample
  | .csr r => if s.status.busy && r.hiddenWhileBusy then .unspecified else .exact (readCsr s r)
  | .reserved => .exact 0#32
  | .sym b i => if s.status.busy then .unspecified else sampleEntry (s.mem.sym b) i
  | .bits w => if s.status.busy then .unspecified else sampleBits s.mem.bits w
  | .bytes w => if s.status.busy then .unspecified else sampleBytes s.cfg s.mem.bytes w
  | .tserTag i => if s.status.busy then .unspecified else sampleEntry s.mem.tserTag i
  | .tserSym i => if s.status.busy then .unspecified else sampleEntry s.mem.tserSym i
  | .code i field => if s.status.busy then .unspecified else sampleCode s.code i field

/-- `MemRead(addr, 4)` at a block address: the word and the state after, which differs only in the draws; `none` is a bus error
(R12, R61, R71). -/
def busRead (addr : Word) (s : State) : Option (Word × State) :=
  match regionOf s.cfg addr with
  | none => none
  | some r => some (s.draw (sample s r).known (sample s r).mask)

/-! ### Writing -/

/-- A write to `CTRL`: SRST = 1 resets whatever IE is written; otherwise IE is stored (R28, R251). -/
def writeCtrl (v : Word) (s : State) : State := if v.getLsbD 1 then s.hardReset else { s with ie := v.getLsbD 0 }

/-- A write to `STATUS`: each W1C bit written as 1 is cleared (R29). -/
def writeStatus (v : Word) (s : State) : State :=
  { s with
    status := { s.status with done := s.status.done && !v.getLsbD 1, werr := s.status.werr && !v.getLsbD 16 } }

/-- A write to a register of an idle block; a write to a read-only register is ignored (R25). -/
def writeCsr (r : Csr) (v : Word) (s : State) : State :=
  match r with
  | .ctrl => writeCtrl v s
  | .status => writeStatus v s
  | .cmd => s.accept v
  | .sym0Len => { s with lens := { s.lens with sym0 := v } }
  | .sym1Len => { s with lens := { s.lens with sym1 := v } }
  | .bitLen => { s with lens := { s.lens with bits := v } }
  | .byteLen => { s with lens := { s.lens with bytes := v } }
  | .tserLen => { s with lens := { s.lens with tser := v } }
  | .id => s
  | .codeCount => s
  | .treeStat => s
  | .errInfo => s
  | .capSyms => s
  | .capBits => s
  | .capBytes => s
  | .capAlpha => s
  | .capCodeLen => s

/-- The bytes a BYTES-window word writes: its in-range lanes (R66). -/
def lanesOfWord (c : Config) (w : Nat) (v : Word) : List Byte :=
  ((List.range 4).map (laneOfWord v)).take (c.maxBytes - 4 * w)

/-- A write to a region of an idle block (R25, R63 to R67). The CODE window takes no write (R64). -/
def writeRegion (r : Region) (v : Word) (s : State) : State :=
  match r with
  | .csr r => writeCsr r v s
  | .reserved => s
  | .sym b i => { s with mem := s.mem.setSym b ((s.mem.sym b).set i v) }
  | .bits w => { s with mem := { s.mem with bits := s.mem.bits.setMany (32 * w) (bitsOfWord v) } }
  | .bytes w => { s with mem := { s.mem with bytes := s.mem.bytes.setMany (4 * w) (lanesOfWord s.cfg w v) } }
  | .tserTag i => { s with mem := { s.mem with tserTag := s.mem.tserTag.set i v } }
  | .tserSym i => { s with mem := { s.mem with tserSym := s.mem.tserSym.set i v } }
  | .code _ _ => s

/-- Does a write to the region take effect while a command is in flight (R68 (a))? -/
def Region.writableWhileBusy : Region → Bool
  | .csr r => decide (r = .ctrl) || decide (r = .status)
  | .reserved => false
  | .sym _ _ => false
  | .bits _ => false
  | .bytes _ => false
  | .tserTag _ => false
  | .tserSym _ => false
  | .code _ _ => false

/-- May the region be written at all? A write to the CODE window ends with a bus error (R64). -/
def Region.writable : Region → Bool
  | .code _ _ => false
  | .csr _ => true
  | .reserved => true
  | .sym _ _ => true
  | .bits _ => true
  | .bytes _ => true
  | .tserTag _ => true
  | .tserSym _ => true

/-- A write dropped because the block was busy: it changes nothing but sets `STATUS.WERR` (R68 (b)). -/
def dropWrite (s : State) : State := { s with status := { s.status with werr := true } }

/-- `MemWrite(addr, 4, v)` at a block address; `none` is a bus error (R12, R61, R64, R68). -/
def busWrite (addr v : Word) (s : State) : Option State :=
  match regionOf s.cfg addr with
  | none => none
  | some r =>
    if !r.writable then none
    else if s.status.busy && !r.writableWhileBusy then some (dropWrite s)
    else some (writeRegion r v s)

end Sys2Proof.Machine
end

