-- ==== Sys2Proof/Machine/HostProgram.lean ====
section
/-! DEFINITION. The host agent (00_scope.md R4): its operations performed one at a time in program order (20_memory.md R72), and
the operations and pseudo-instructions of host programs (30_encoding.md R88, R89). -/

namespace Sys2Proof.Machine

/-- The block's address for a platform address (R62, R234). -/
def blockAddr (c : Config) (addr : Word) : Word := addr - c.platformBase

/-- The platform's address for an address of the block's map. -/
def platformAddr (c : Config) (addr : Word) : Word := c.platformBase + addr

/-- A read with byte enables: narrower than a word is a bus error (R61). -/
def hostRead (addr : Word) (enables : BitVec 4) (s : State) : BusResponse × State :=
  if enables ≠ 15#4 then (.busError, s)
  else
    match busRead (blockAddr s.cfg addr) s with
    | some (v, t) => (.data v, t)
    | none => (.busError, s)

/-- A write with byte enables: narrower than a word is a bus error (R61). -/
def hostWrite (addr v : Word) (enables : BitVec 4) (s : State) : BusResponse × State :=
  if enables ≠ 15#4 then (.busError, s)
  else
    match busWrite (blockAddr s.cfg addr) v s with
    | some t => (.ack, t)
    | none => (.busError, s)

/-- The host notes a bus response. -/
def note (r : BusResponse × State) : State := { r.2 with env := { r.2.env with responses := r.1 :: r.2.env.responses } }

/-- The host puts an operation before those still to perform. -/
def State.push (op : HostOp) (s : State) : State := { s with env := { s.env with pending := op :: s.env.pending } }

/-- An `expect`, or the `-> <err>` of a `run`, has failed: the program ends (R88, R89; log entries 9 and 18). -/
def State.failProgram (s : State) : State := { s with env := { s.env with failed := true, pending := [] } }

/-- The platform address of `STATUS`. -/
def statusAddr (c : Config) : Word := platformAddr c (BitVec.ofNat 32 Csr.status.offset)

/-- Is this the response to a STATUS read with DONE = 1? -/
def showsDone : BusResponse → Bool
  | .data v => v.getLsbD 1
  | .ack => false
  | .busError => false

/-- Does the response to a STATUS read have this ERR, bits 11:8 (R29, R89)? -/
def showsErr (err : BitVec 4) : BusResponse → Bool
  | .data v => v.extractLsb' 8 4 == err
  | .ack => false
  | .busError => false

/-- The turn of a `wait` that has read `r` from STATUS: not DONE yet, it stays the next operation; DONE, it clears DONE if the read is
as the program states, and else the program fails (R89; log entry 18). -/
def waitTurn (again : HostOp) (asStated : Bool) (r : BusResponse × State) : State :=
  if showsDone r.1 then
    if asStated then (note r).push (.wr (statusAddr r.2.cfg) 2#32) else (note r).failProgram
  else (note r).push again

/-- One operation of the host (R88, R89, R251). `wait` reads STATUS once a turn; it stays the next operation until it has read
DONE = 1, and then clears DONE. -/
def performHostOp (op : HostOp) (s : State) : State :=
  match op with
  | .wr addr v => note (hostWrite addr v 15#4 s)
  | .rd addr => note (hostRead addr 15#4 s)
  | .expect addr v =>
    let r := hostRead addr 15#4 s
    if r.1 = .data v then note r else (note r).failProgram
  | .wrBytes addr v enables => note (hostWrite addr v enables s)
  | .rdBytes addr enables => note (hostRead addr enables s)
  | .wait => waitTurn .wait true (hostRead (statusAddr s.cfg) 15#4 s)
  | .waitErr err =>
    let r := hostRead (statusAddr s.cfg) 15#4 s
    waitTurn (.waitErr err) (showsErr err r.1) r
  | .resetInput => s.hardReset

/-- The host's turn: its next operation, or nothing. -/
def hostStep (s : State) : State :=
  match s.env.pending with
  | [] => s
  | op :: rest => performHostOp op { s with env := { s.env with pending := rest } }

/-! ### Addresses by name (R88) and pseudo-instructions (R89) -/

/-- The platform address of a register. -/
def csrAddr (c : Config) (r : Csr) : Word := platformAddr c (BitVec.ofNat 32 r.offset)

/-- `SYM<b>[i]` (R63). -/
def symAddr (c : Config) (b : SymBuf) (i : Nat) : Word :=
  match b with
  | .sym0 => platformAddr c (BitVec.ofNat 32 (0x01000000 + 4 * i))
  | .sym1 => platformAddr c (BitVec.ofNat 32 (0x02000000 + 4 * i))

/-- `BITS.w[i]` (R65). -/
def bitsAddr (c : Config) (w : Nat) : Word := platformAddr c (BitVec.ofNat 32 (0x03000000 + 4 * w))

/-- `BYTES.w[i]` (R66). -/
def bytesAddr (c : Config) (w : Nat) : Word := platformAddr c (BitVec.ofNat 32 (0x04000000 + 4 * w))

/-- `TSER[i].tag` (R67). -/
def tserTagAddr (c : Config) (i : Nat) : Word := platformAddr c (BitVec.ofNat 32 (0x05000000 + 8 * i))

/-- `TSER[i].sym` (R67). -/
def tserSymAddr (c : Config) (i : Nat) : Word := platformAddr c (BitVec.ofNat 32 (0x05000000 + 8 * i + 4))

/-- `CODE[i].sym`, `CODE[i].len`, `CODE[i].code` and the fourth word, for field 0 to 3 (R64). -/
def codeAddr (c : Config) (i field : Nat) : Word := platformAddr c (BitVec.ofNat 32 (0x06000000 + 16 * i + 4 * field))

/-- `SYM<b>_LEN`. -/
def symLenReg : SymBuf → Csr
  | .sym0 => .sym0Len
  | .sym1 => .sym1Len

/-- `issue` of a command word (R89). -/
def issue (c : Config) (w : Word) : List HostOp := [.wr (csrAddr c .cmd) w]

/-- `run` of a command word (R89). -/
def runWord (c : Config) (w : Word) : List HostOp := issue c w ++ [.wait]

/-- `run` of a command word `-> err` (R89). -/
def runWordErr (c : Config) (w : Word) (err : BitVec 4) : List HostOp := issue c w ++ [.waitErr err]

/-- The entry writes of `load`. -/
def loadFrom (c : Config) (b : SymBuf) : Nat → List Symbol → List HostOp
  | _, [] => []
  | i, v :: rest => .wr (symAddr c b i) v :: loadFrom c b (i + 1) rest

/-- `load SYM<b>, [v0, v1, …]` (R89). -/
def load (c : Config) (b : SymBuf) (vs : List Symbol) : List HostOp :=
  loadFrom c b 0 vs ++ [.wr (csrAddr c (symLenReg b)) (BitVec.ofNat 32 vs.length)]

end Sys2Proof.Machine
end

