-- ==== Sys2Proof/Machine/Step.lean ====
section
/-! DEFINITION. One step of the machine: a turn of the host or of the command engine (00_scope.md R4, 40_common.md R101,
70_reset_and_hazards.md R262). -/

namespace Sys2Proof.Machine

/-- The engine's turn (R101): it performs the command in flight whole; with none in flight it does nothing (R4). A word that
spells no command completes with `IllegalCommand` (R102). -/
def engineStep (s : State) : Host.Outcome State Fault Refusal :=
  match s.inflight with
  | none => .next s
  | some w =>
    match decode w with
    | some i => exec i s
    | none => .next s.completeIllegal

/-- The state with its first turn taken. -/
def State.tail (s : State) : State := { s with env := { s.env with turns := s.env.turns.tail } }

/-- Who moves next (R4, R262): the agent the list of turns names; without one, the engine while a command is in flight and the host
otherwise. -/
def State.mover (s : State) : Agent :=
  match s.env.turns with
  | a :: _ => a
  | [] => if s.inflight.isSome then .engine else .host

/-- One step. -/
def step (s : State) : Host.Outcome State Fault Refusal :=
  match s.mover with
  | .engine => engineStep s.tail
  | .host => .next (hostStep s.tail)

/-- The state in which the very next step runs a command word: the word has just been accepted, as by the write to `CMD` that
supplies it (R22, R100), and the engine has the next turn (log entry 3). -/
def State.withFetchWord (s : State) (nbits w : Nat) : State :=
  let t := s.accept (BitVec.ofNat 32 (w % 2 ^ nbits))
  { t with env := { t.env with turns := .engine :: t.env.turns } }

end Sys2Proof.Machine
end

