-- ==== Sys2Proof/Safety.lean ====
section
/-! DEFINITION. The terms claims use: what a buffer holds, how a command has completed, what an access or a command left alone, the
invariant of the machine, and the Huffman construction of 43_huffman_tree.md R160 to R162 as a relation. -/

namespace Sys2Proof.Machine

namespace State

/-! ### What the buffers hold (R11) -/

/-- `symseq(b)` is `xs`: the length register says its length and every entry below it has been written. -/
abbrev HoldsSyms (s : State) (b : SymBuf) (xs : List Symbol) : Prop :=
  s.symLen b = xs.length ∧ ∀ i, i < xs.length → (s.mem.sym b).get? i = xs[i]?

/-- `bitseq` is `xs`. -/
abbrev HoldsBits (s : State) (xs : BitString) : Prop :=
  s.bitLen = xs.length ∧ ∀ i, i < xs.length → s.mem.bits.get? i = xs[i]?

/-- `byteseq` is `xs`. -/
abbrev HoldsBytes (s : State) (xs : List Byte) : Prop :=
  s.byteLen = xs.length ∧ ∀ i, i < xs.length → s.mem.bytes.get? i = xs[i]?

/-- `tserseq` is `xs`, each entry its (tag, sym) words. -/
abbrev HoldsTser (s : State) (xs : List (Word × Word)) : Prop :=
  s.tserLen = xs.length ∧
    ∀ i, i < xs.length → s.mem.tserTag.get? i = (xs.map Prod.fst)[i]? ∧ s.mem.tserSym.get? i = (xs.map Prod.snd)[i]?

/-! ### Completion and frames -/

/-- `t` is `s` with the command completed with code `e` and this `ERR_INFO` (R105): BUSY 0, DONE 1, ERR `e`, nothing in flight,
WERR as before. -/
abbrev CompletedWith (s t : State) (e : ResultCode) (info : Word) : Prop :=
  t.status = { busy := false, done := true, err := e, werr := s.status.werr } ∧ t.errInfo = info ∧ t.inflight = none

/-- What no command touches: the build, `CTRL`, `cmd_last`, `WERR`, the host. -/
abbrev SameControl (s t : State) : Prop :=
  t.cfg = s.cfg ∧ t.ie = s.ie ∧ t.cmdLast = s.cmdLast ∧ t.status.werr = s.status.werr ∧ t.env = s.env

/-- TREE and CODE as before. -/
abbrev SameStores (s t : State) : Prop := t.tree = s.tree ∧ t.code = s.code

/-- What a command reads: the buffers, the length registers, TREE and CODE, and the command in flight (R101). -/
abbrev SameOperands (s t : State) : Prop :=
  t.cfg = s.cfg ∧ t.mem = s.mem ∧ t.lens = s.lens ∧ t.tree = s.tree ∧ t.code = s.code ∧ t.errInfo = s.errInfo ∧
    t.inflight = s.inflight ∧ t.cmdLast = s.cmdLast

/-- The data a command computes from and writes to: the build, the buffers, the length registers, TREE and CODE. Two states that
agree on it differ only in control, status, the command in flight and the host. -/
abbrev SameData (s t : State) : Prop :=
  t.cfg = s.cfg ∧ t.mem = s.mem ∧ t.lens = s.lens ∧ t.tree = s.tree ∧ t.code = s.code

/-- All the data but what a command with this destination writes: the other buffers whole, the other length registers, and the
stores. -/
abbrev SameExcept (s t : State) : Dest → Prop
  | .sym .sym0 => t.mem = { s.mem with sym0 := t.mem.sym0 } ∧ t.lens = { s.lens with sym0 := t.lens.sym0 } ∧ SameStores s t
  | .sym .sym1 => t.mem = { s.mem with sym1 := t.mem.sym1 } ∧ t.lens = { s.lens with sym1 := t.lens.sym1 } ∧ SameStores s t
  | .bits => t.mem = { s.mem with bits := t.mem.bits } ∧ t.lens = { s.lens with bits := t.lens.bits } ∧ SameStores s t
  | .bytes => t.mem = { s.mem with bytes := t.mem.bytes } ∧ t.lens = { s.lens with bytes := t.lens.bytes } ∧ SameStores s t
  | .tser =>
    t.mem = { s.mem with tserTag := t.mem.tserTag, tserSym := t.mem.tserSym } ∧
      t.lens = { s.lens with tser := t.lens.tser } ∧ SameStores s t
  | .tree => t.mem = s.mem ∧ t.lens = s.lens
  | .code => t.mem = s.mem ∧ t.lens = s.lens ∧ t.tree = s.tree

/-- The destination after an error (R106 (b) to (d)): the length register 0 and every entry unwritten, or the validity bits 0. -/
def Voided (t : State) : Dest → Prop
  | .sym b => t.symLen b = 0 ∧ ∀ i, (t.mem.sym b).get? i = none
  | .bits => t.bitLen = 0 ∧ ∀ i, t.mem.bits.get? i = none
  | .bytes => t.byteLen = 0 ∧ ∀ i, t.mem.bytes.get? i = none
  | .tser => t.tserLen = 0 ∧ (∀ i, t.mem.tserTag.get? i = none) ∧ ∀ i, t.mem.tserSym.get? i = none
  | .tree => t.tree = none ∧ t.code = none
  | .code => t.code = none

end State

/-- What a command writes (R82). -/
def destOf : Instr → Dest
  | .buildTree _ => .tree
  | .treeStore => .tser
  | .treeLoad => .tree
  | .deriveCodes => .code
  | .hufEnc _ => .bits
  | .hufDec d => .sym d
  | .rleEnc _ d => .sym d
  | .rleDec _ d => .sym d
  | .pack => .bytes
  | .unpack => .bits

/-- The command completes with `OK`, touches nothing but its destination, and leaves a state that satisfies `P`. -/
def Succeeds (i : Instr) (s : State) (P : State → Prop) : Prop :=
  ∃ t, exec i s = .next t ∧ s.CompletedWith t .ok 0 ∧ s.SameControl t ∧ s.SameExcept t (destOf i) ∧ P t

/-- The command completes with the error `e` and this `ERR_INFO`, voids its destination and touches nothing else (R105, R106). -/
def FailsWith (i : Instr) (s : State) (e : ResultCode) (info : Nat) : Prop :=
  ∃ t, exec i s = .next t ∧ s.CompletedWith t e (BitVec.ofNat 32 info) ∧ s.SameControl t ∧ s.SameExcept t (destOf i) ∧
    t.Voided (destOf i)

/-- Entry `k` of this buffer is a source entry of the command, below its length register, and has not been written (R49, R79). -/
def State.UnwrittenSource (s : State) (k : Nat) : Instr → Buffer → Prop
  | .buildTree b, .sym c => c = b ∧ k < s.symLen b ∧ (s.mem.sym b).get? k = none
  | .hufEnc b, .sym c => c = b ∧ k < s.symLen b ∧ (s.mem.sym b).get? k = none
  | .rleEnc b _, .sym c => c = b ∧ k < s.symLen b ∧ (s.mem.sym b).get? k = none
  | .rleDec b _, .sym c => c = b ∧ k < s.symLen b ∧ (s.mem.sym b).get? k = none
  | .hufDec _, .bits => k < s.bitLen ∧ s.mem.bits.get? k = none
  | .pack, .bits => k < s.bitLen ∧ s.mem.bits.get? k = none
  | .unpack, .bytes => k < s.byteLen ∧ s.mem.bytes.get? k = none
  | .treeLoad, .tserTag => k < s.tserLen ∧ s.mem.tserTag.get? k = none
  | .treeLoad, .tserSym => k < s.tserLen ∧ s.mem.tserSym.get? k = none
  | _, _ => False

/-- The first `k` entries of TSER agree with the first `k` of a node's portable form; the sym word of an inner node's entry is
ignored, written or not (R170, R172). -/
def State.TserAgrees (s : State) (n : Node) (k : Nat) : Prop :=
  ∀ i, i < k → ∀ e, n.serialize[i]? = some e →
    s.mem.tserTag.get? i = some e.1 ∧ (e.1 = 1 → s.mem.tserSym.get? i = some e.2)

/-! ### Trees and codes -/

/-- The node a path leads to from a node: 0 = left, 1 = right; `none` when the path goes on below a leaf. -/
def Node.follow : Node → BitString → Option Node
  | n, [] => some n
  | .leaf _, _ :: _ => none
  | .inner l r, b :: rest => if b then r.follow rest else l.follow rest

/-- The depth of a node's deepest leaf. -/
def Node.depth : Node → Nat
  | .leaf _ => 0
  | .inner l r => 1 + max l.depth r.depth

/-- The number of inner nodes. -/
def Node.innerCount : Node → Nat
  | .leaf _ => 0
  | .inner l r => 1 + l.innerCount + r.innerCount

/-- The Huffman construction of R160 to R162 as a relation: `HuffmanMerge next q n` says that merging the queue `q`, the next inner
node numbered `next`, ends in the root `n`. In each merge `x` is the element of least key and `y` the element of least key among the
others; `x` becomes the left child. -/
inductive HuffmanMerge : Nat → List QItem → Node → Prop
  | done (next : Nat) (x : QItem) : HuffmanMerge next [x] x.node
  | merge (next : Nat) (q : List QItem) (x y : QItem) (others : List QItem) (n : Node)
      (hq : q.Perm (x :: y :: others))
      (hx : ∀ z ∈ y :: others, x.before z = true)
      (hy : ∀ z ∈ others, y.before z = true)
      (hn : HuffmanMerge (next + 1) (⟨x.freq + y.freq, next, .inner x.node y.node⟩ :: others) n) :
      HuffmanMerge next q n

/-! ### The invariant -/

/-- What holds of the machine between any two steps: the parameters are legal (R7); the buffers are in canonical form; BUSY = 1
exactly while a command is in flight (R47), and then DONE = 0 and ERR = 0 (R29, R100) and `CMD` reads that command (R30); the block
never reports `ShapeMismatch` (R222); `ERR_INFO` is 0 with the codes that carry no information (R223); the tree held has distinct
leaves, at most `MAX_ALPHA` (R44); the code table is that of the tree held, its codewords 1 to 32 bits long (R45, R46). -/
structure Inv (s : State) : Prop where
  cfgLegal : s.cfg.Legal
  memWf : s.mem.wf s.cfg = true
  busyInflight : s.status.busy = s.inflight.isSome
  busyClears : s.status.busy = true → s.status.done = false ∧ s.status.err = .ok
  cmdInflight : ∀ w, s.inflight = some w → s.cmdLast = w
  errOwn : s.status.err ≠ .shapeMismatch
  errInfoZero : s.status.busy = false →
    s.status.err ∈ [ResultCode.ok, .illegalCommand, .notReady, .capacityExceeded] → s.errInfo = 0
  treeLeaves : ∀ t, s.tree = some t → t.leaves.Nodup ∧ t.leaves.length ≤ s.cfg.maxAlpha
  codeOfTree : ∀ c, s.code = some c → ∃ t, s.tree = some t ∧ c = t.codes ∧
    ∀ e ∈ c, 1 ≤ e.code.length ∧ e.code.length ≤ Config.maxCodeLen

end Sys2Proof.Machine
end

