-- ==== Sys2Proof/Certificates/Slice0/Obligations.lean ====
section
/-! DEFINITION. The statements for the provers, in the order of OBLIGATIONS.json: encoding, reset and the machine as a whole, the
registers and the bus, the ten commands, the laws. Every docstring says which rule of spec/ the statement formalises. -/

open Sys2Proof Sys2Proof.Machine

/-! ### Encoding -/

/-- R82, R84, R87: the fifteen words, each with the command it spells. -/
def Obligations.SpecWordsDecode : Prop :=
  decode 0x00000001#32 = some (.buildTree .sym0) ∧ decode 0x00000101#32 = some (.buildTree .sym1) ∧
  decode 0x00000002#32 = some .treeStore ∧ decode 0x00000003#32 = some .treeLoad ∧
  decode 0x00000004#32 = some .deriveCodes ∧
  decode 0x00000005#32 = some (.hufEnc .sym0) ∧ decode 0x00000105#32 = some (.hufEnc .sym1) ∧
  decode 0x00000006#32 = some (.hufDec .sym0) ∧ decode 0x00000206#32 = some (.hufDec .sym1) ∧
  decode 0x00000207#32 = some (.rleEnc .sym0 .sym1) ∧ decode 0x00000107#32 = some (.rleEnc .sym1 .sym0) ∧
  decode 0x00000208#32 = some (.rleDec .sym0 .sym1) ∧ decode 0x00000108#32 = some (.rleDec .sym1 .sym0) ∧
  decode 0x00000009#32 = some .pack ∧ decode 0x0000000A#32 = some .unpack

/-- R83, R84: the legal words are exactly these fifteen, each spelling the command beside it. (R84 is the spec's own inference from
R83.) -/
def Obligations.LegalWordsAreFifteen : Prop :=
  ∀ w : Word,
    (legal w = true ↔
      w ∈ [0x00000001#32, 0x00000101#32, 0x00000002#32, 0x00000003#32, 0x00000004#32, 0x00000005#32, 0x00000105#32,
        0x00000006#32, 0x00000206#32, 0x00000207#32, 0x00000107#32, 0x00000208#32, 0x00000108#32, 0x00000009#32,
        0x0000000A#32]) ∧
    ∀ i : Instr, decode w = some i ↔
      (w, i) ∈ [(0x00000001#32, Instr.buildTree .sym0), (0x00000101#32, .buildTree .sym1), (0x00000002#32, .treeStore),
        (0x00000003#32, .treeLoad), (0x00000004#32, .deriveCodes), (0x00000005#32, .hufEnc .sym0), (0x00000105#32, .hufEnc .sym1),
        (0x00000006#32, .hufDec .sym0), (0x00000206#32, .hufDec .sym1), (0x00000207#32, .rleEnc .sym0 .sym1),
        (0x00000107#32, .rleEnc .sym1 .sym0), (0x00000208#32, .rleDec .sym0 .sym1), (0x00000108#32, .rleDec .sym1 .sym0),
        (0x00000009#32, .pack), (0x0000000A#32, .unpack)]

/-- R80 to R83: the decoder reads exactly the legal words; decoding the word of a well-formed command gives it back; and a word that
decodes is the word of what it decodes to. -/
def Obligations.DecodeEncodeAgree : Prop :=
  (∀ w : Word, (decode w).isSome = legal w) ∧
  (∀ i : Instr, i.wellFormed = true → decode (encode i) = some i) ∧
  ∀ (w : Word) (i : Instr), decode w = some i → i.wellFormed = true ∧ encode i = w

/-! ### Reset and the machine as a whole -/

/-- R4, R100, R101: on the engine's turn a step is the meaning of the command in flight, on the state with that turn taken; a
command word handed over by `withFetchWord` runs in the very next step. Whose turn it is, and the handing over, are the model's
choice (log entries 3 and 6). -/
def Obligations.StepRunsDecodedCommand : Prop :=
  (∀ (s : State) (w : Word) (i : Instr), s.mover = .engine → s.inflight = some w → decode w = some i →
    step s = exec i { s with env := { s.env with turns := s.env.turns.tail } }) ∧
  (∀ s : State, s.mover = .host → step s = .next (hostStep { s with env := { s.env with turns := s.env.turns.tail } })) ∧
  ∀ (s : State) (w : Word) (i : Instr), decode w = some i →
    step (s.withFetchWord 32 w.toNat) =
      exec i { s with
        cmdLast := w
        status := { s.status with busy := true, done := false, err := .ok }
        inflight := some w }

/-- R102: an illegal command word completes with `IllegalCommand`, `ERR_INFO` = 0, and no other effect. Whose turn it is, and
that the turn taken leaves the list, is the model's choice (log entry 6). -/
def Obligations.IllegalWordHasNoOtherEffect : Prop :=
  ∀ (s : State) (w : Word), legal w = false → s.mover = .engine → s.inflight = some w →
    ∃ t, step s = .next t ∧ s.CompletedWith t .illegalCommand 0 ∧ s.SameData t ∧ t.ie = s.ie ∧ t.cmdLast = s.cmdLast ∧
      t.env = { s.env with turns := s.env.turns.tail }

/-- R250: the state after reset, register by register as the host reads it, with no tree, no code table, nothing in flight and every
buffer entry unwritten. That the build is the one with the default parameters is the model's choice (log entry 10). -/
def Obligations.ResetState : Prop :=
  (∀ r : Csr, readCsr State.reset r =
    match r with
    | .id => 0x48420007#32
    | .capSyms => 524288#32
    | .capBits => 16777216#32
    | .capBytes => 2097153#32
    | .capAlpha => 1024#32
    | .capCodeLen => 32#32
    | _ => 0#32) ∧
  State.reset.status = { busy := false, done := false, err := .ok, werr := false } ∧ State.reset.ie = false ∧
  State.reset.irq = false ∧ State.reset.inflight = none ∧ State.reset.tree = none ∧ State.reset.code = none ∧
  (∀ b i, (State.reset.mem.sym b).get? i = none) ∧ (∀ i, State.reset.mem.bits.get? i = none) ∧
  (∀ i, State.reset.mem.bytes.get? i = none) ∧ (∀ i, State.reset.mem.tserTag.get? i = none) ∧
  ∀ i, State.reset.mem.tserSym.get? i = none

/-- R251, R252: the reset input, and a write to `CTRL` with `SRST` = 1, busy or not, within that access, give the reset state of the
same build; a command in flight is aborted. That a reset keeps the build and the host is the model's choice (log entries 9 and 10). -/
def Obligations.ResetEvents : Prop :=
  ∀ s : State,
    performHostOp .resetInput s = { State.reset with cfg := s.cfg, env := s.env } ∧
    (∀ v : Word, v.getLsbD 1 = true → busWrite 0x004#32 v s = some { State.reset with cfg := s.cfg, env := s.env })

/-- R7, R29, R44 to R47, R222, R223: the invariant holds at reset. -/
def Obligations.ResetMeetsInvariant : Prop := Inv State.reset

/-- R7, R29, R44 to R47, R222, R223: whatever the state and whoever moves, a step keeps the invariant. -/
def Obligations.StepKeepsInvariant : Prop := ∀ s t : State, Inv s → step s = .next t → Inv t

/-- R20: the parameters are configuration: no step changes them (that the state holds them is the model's choice, log entry 10). -/
def Obligations.StepKeepsParameters : Prop := ∀ s t : State, step s = .next t → t.cfg = s.cfg

/-- R29, R105, R251: while a command is in flight `BUSY` stays 1 except through that command's completion, which sets `DONE`, or
through a reset. -/
def Obligations.BusyEndsOnlyByCompletionOrReset : Prop :=
  ∀ s t : State, Inv s → s.status.busy = true → step s = .next t → t.status.busy = false →
    (s.mover = .engine ∧ t.status.done = true ∧ t.inflight = none ∧ t.cmdLast = s.cmdLast) ∨
      (s.mover = .host ∧ t = { State.reset with cfg := s.cfg, env := t.env })

/-- R29: `DONE` rises only at the completion of a command, in the engine's step. -/
def Obligations.DoneRisesOnlyAtCompletion : Prop :=
  ∀ s t : State, step s = .next t → s.status.done = false → t.status.done = true →
    s.mover = .engine ∧ s.inflight.isSome = true ∧ t.status.busy = false ∧ t.inflight = none

/-- R68, R76, R101: whatever the host does in a turn while a command is in flight, it changes nothing the command reads, unless it
resets the block. (So the state the engine sees is the snapshot of R100.) -/
def Obligations.HostTurnWhileBusyKeepsOperands : Prop :=
  ∀ s : State, s.status.busy = true →
    s.SameOperands (hostStep s) ∨ hostStep s = { State.reset with cfg := s.cfg, env := (hostStep s).env }

/-- R262: whatever finite delay the list of turns gives, an accepted command has completed, been aborted by a reset or met an entry
never written, at the latest when the list is used up and one step more is taken. The list is the model's choice (log entry 6). -/
def Obligations.CommandsCompleteInBoundedSteps : Prop :=
  ∀ s : State, s.inflight.isSome = true →
    ∃ k, k ≤ s.env.turns.length + 1 ∧
      ((∃ f, core.run k s = .fault f) ∨ ∃ t : State, core.run k s = .next t ∧ t.inflight = none)

/-- R46: the validity transitions (a) to (e), and what follows from them: after any step a code table held is that of the tree held.
(The last clause is the sentence of R46 "Hence `code_valid` = 1 implies …", which the spec marks as its own inference from (a) to
(e).) -/
def Obligations.ValidityTransitions : Prop :=
  (∀ (i : Instr) (s t : State), i.wellFormed = true → exec i s = .next t →
    match i with
    | .buildTree _ =>
      (t.status.err = .ok → t.tree.isSome = true ∧ t.code = none) ∧ (t.status.err ≠ .ok → t.tree = none ∧ t.code = none)
    | .treeLoad =>
      (t.status.err = .ok → t.tree.isSome = true ∧ t.code = none) ∧ (t.status.err ≠ .ok → t.tree = none ∧ t.code = none)
    | .deriveCodes =>
      t.tree = s.tree ∧ (t.status.err = .ok → t.code.isSome = true) ∧ (t.status.err ≠ .ok → t.code = none)
    | _ => t.tree = s.tree ∧ t.code = s.code) ∧
  (∀ s : State, s.hardReset.tree = none ∧ s.hardReset.code = none) ∧
  ∀ (s t : State) (c : CodeTable), Inv s → step s = .next t → t.code = some c → ∃ tree, t.tree = some tree ∧ c = tree.codes

/-! ### The registers and the bus (addresses are the block's own) -/

/-- R30: `CMD` issues a command when idle, drops the write when busy, and reads the last word accepted. The clause
for an accepted write is the whole next state, so it says also that acceptance leaves `ERR_INFO` as it was: R100 does not list it
(DEDUCED, log entry 22). -/
def Obligations.CmdRegister : Prop :=
  (∀ (s : State) (w : Word), s.status.busy = false →
    busWrite 0x00C#32 w s = some { s with
      cmdLast := w
      status := { s.status with busy := true, done := false, err := .ok }
      inflight := some w }) ∧
  (∀ (s : State) (w : Word), s.status.busy = true →
    busWrite 0x00C#32 w s = some { s with status := { s.status with werr := true } }) ∧
  (∀ s : State, busRead 0x00C#32 s = some (s.cmdLast, s)) ∧
  busRead 0x00C#32 State.reset = some (0#32, State.reset)

/-- R31 to R34: with the block idle, each length register stores any 32-bit value, which then reads back, and the write changes
nothing else. -/
def Obligations.LengthRegisters : Prop :=
  ∀ (s : State) (v : Word), s.status.busy = false →
    (let t := { s with lens := { s.lens with sym0 := v } }; busWrite 0x010#32 v s = some t ∧ busRead 0x010#32 t = some (v, t)) ∧
    (let t := { s with lens := { s.lens with sym1 := v } }; busWrite 0x014#32 v s = some t ∧ busRead 0x014#32 t = some (v, t)) ∧
    (let t := { s with lens := { s.lens with bits := v } }; busWrite 0x018#32 v s = some t ∧ busRead 0x018#32 t = some (v, t)) ∧
    (let t := { s with lens := { s.lens with bytes := v } }; busWrite 0x01C#32 v s = some t ∧ busRead 0x01C#32 t = some (v, t)) ∧
    (let t := { s with lens := { s.lens with tser := v } }; busWrite 0x020#32 v s = some t ∧ busRead 0x020#32 t = some (v, t))

/-- R25, with the block idle (R68 governs a busy one): a reserved word offset reads 0 and ignores writes; a read-only register
ignores writes; the reserved bits of `CTRL`, `STATUS` and `TREE_STAT` read 0. -/
def Obligations.ReservedAndReadOnly : Prop :=
  ∀ s : State, s.status.busy = false →
    (∀ a : Word, a.toNat % 4 = 0 → (0x030 ≤ a.toNat ∧ a.toNat ≤ 0x03C ∨ 0x054 ≤ a.toNat ∧ a.toNat ≤ 0xFFC) →
      busRead a s = some (0#32, s) ∧ ∀ v, busWrite a v s = some s) ∧
    (∀ a ∈ [0x000#32, 0x024#32, 0x028#32, 0x02C#32, 0x040#32, 0x044#32, 0x048#32, 0x04C#32, 0x050#32],
      ∀ v, busWrite a v s = some s) ∧
    (∀ k, 2 ≤ k → s.ctrlWord.getLsbD k = false) ∧ s.ctrlWord.getLsbD 1 = false ∧
    (∀ k, 2 ≤ k ∧ k < 8 ∨ 12 ≤ k ∧ k < 16 ∨ 17 ≤ k → s.statusWord.getLsbD k = false) ∧
    ∀ k, 4 ≤ k ∧ k < 16 → s.treeStatWord.getLsbD k = false

/-- R28: `CTRL`, idle or busy. That the reset of `SRST` keeps the build and the host is the model's choice (log entries 9 and 10). -/
def Obligations.ControlRegister : Prop :=
  (State.reset.ie = false ∧ State.reset.ctrlWord = 0#32) ∧
  ∀ s : State,
    (busRead 0x004#32 s = some (s.ctrlWord, s) ∧ s.ctrlWord.getLsbD 0 = s.ie ∧
      ∀ k, 1 ≤ k → s.ctrlWord.getLsbD k = false) ∧
    s.irq = (s.ie && s.status.done) ∧
    (∀ v : Word, v.getLsbD 1 = false → busWrite 0x004#32 v s = some { s with ie := v.getLsbD 0 }) ∧
    ∀ v : Word, v.getLsbD 1 = true → ∃ t, busWrite 0x004#32 v s = some t ∧ t = { State.reset with cfg := s.cfg, env := s.env } ∧
      t.ie = false

/-- R29, idle or busy: the fields `STATUS` reads, and a write, which changes only the W1C bits written as 1. -/
def Obligations.StatusRegister : Prop :=
  ∀ s : State,
    busRead 0x008#32 s = some (s.statusWord, s) ∧
    s.statusWord.getLsbD 0 = s.status.busy ∧ s.statusWord.getLsbD 1 = s.status.done ∧
    s.statusWord.extractLsb' 8 4 = s.status.err.toBits ∧ s.statusWord.getLsbD 16 = s.status.werr ∧
    ∀ v : Word, ∃ t, busWrite 0x008#32 v s = some t ∧ t = { s with status := t.status } ∧
      t.status.busy = s.status.busy ∧ t.status.err = s.status.err ∧
      t.status.done = (if v.getLsbD 1 then false else s.status.done) ∧
      t.status.werr = (if v.getLsbD 16 then false else s.status.werr)

/-- R35, R36: the fields `TREE_STAT` and `CODE_COUNT` read when the block is idle; and R37: what a read of `ERR_INFO` returns then. -/
def Obligations.TreeStatRegister : Prop :=
  (State.reset.treeStatWord = 0#32 ∧ readCsr State.reset .codeCount = 0#32) ∧
  ∀ s : State, Inv s → s.status.busy = false →
    busRead 0x02C#32 s = some (s.errInfo, s) ∧
    busRead 0x028#32 s = some (s.treeStatWord, s) ∧
    s.treeStatWord.getLsbD 0 = s.tree.isSome ∧ s.treeStatWord.getLsbD 1 = s.code.isSome ∧
    (∀ k, 4 ≤ k → k < 16 → s.treeStatWord.getLsbD k = false) ∧
    (s.tree = none → s.treeStatWord.extractLsb' 2 2 = 0#2 ∧ s.treeStatWord.toNat / 65536 = 0) ∧
    (∀ t, s.tree = some t → s.treeStatWord.toNat / 65536 = t.leaves.length ∧
      s.treeStatWord.extractLsb' 2 2 =
        match t with
        | .empty => 0#2
        | .root (.leaf _) => 1#2
        | .root (.inner _ _) => 2#2) ∧
    (s.code = none → busRead 0x024#32 s = some (0#32, s)) ∧
    ∀ c, s.code = some c → ∃ v, busRead 0x024#32 s = some (v, s) ∧ v.toNat = c.length

/-- R27, R38: `ID` and the `CAP_*` registers read their constants, idle or busy; reading them changes nothing, and writing them never
changes what they read. -/
def Obligations.ConstantRegisters : Prop :=
  ∀ s : State, s.cfg.Legal →
    busRead 0x000#32 s = some (0x48420007#32, s) ∧
    (∃ v, busRead 0x040#32 s = some (v, s) ∧ v.toNat = s.cfg.maxSyms) ∧
    (∃ v, busRead 0x044#32 s = some (v, s) ∧ v.toNat = s.cfg.maxBits) ∧
    (∃ v, busRead 0x048#32 s = some (v, s) ∧ v.toNat = 1 + s.cfg.maxBits / 8) ∧
    (∃ v, busRead 0x04C#32 s = some (v, s) ∧ v.toNat = s.cfg.maxAlpha) ∧
    busRead 0x050#32 s = some (32#32, s) ∧
    ∀ a ∈ [0x000#32, 0x040#32, 0x044#32, 0x048#32, 0x04C#32, 0x050#32], ∀ v, ∃ t, busWrite a v s = some t ∧ t.cfg = s.cfg

/-- R228: `irq` = `CTRL.IE` AND `STATUS.DONE`: pending from any completion, cleared by writing 1 to DONE, by acceptance and by reset,
masked by IE = 0 without losing the pending DONE. -/
def Obligations.InterruptOutput : Prop :=
  ∀ s : State,
    (s.irq = true ↔ s.ie = true ∧ s.status.done = true) ∧
    (∀ e info, (s.complete e info).irq = s.ie) ∧
    (∀ v t, v.getLsbD 1 = true → busWrite 0x008#32 v s = some t → t.irq = false) ∧
    (∀ w, (s.accept w).irq = false) ∧ s.hardReset.irq = false ∧
    ∀ v t, v.getLsbD 1 = false → v.getLsbD 0 = false → busWrite 0x004#32 v s = some t →
      t.irq = false ∧ t.status.done = s.status.done

/-- R26, R68: accesses while busy. A write to `CTRL` or `STATUS` takes effect as usual; every other write that is no bus error is
dropped and sets WERR; a read of a window, of a length register, of `CODE_COUNT`, `TREE_STAT` or `ERR_INFO` returns a value nothing
constrains and changes nothing; the other registers read their current values; what is a bus error when idle is one when busy. That a
write to a read-only register or a reserved offset sets WERR is log entry 14, that the fourth word of a CODE entry is hidden too is
log entry 19, and the form of the values nothing constrains is log entry 2. -/
def Obligations.AccessesWhileBusy : Prop :=
  ∀ s : State, s.status.busy = true →
    (∀ v : Word,
      busWrite 0x004#32 v s =
        some (if v.getLsbD 1 then { State.reset with cfg := s.cfg, env := s.env } else { s with ie := v.getLsbD 0 }) ∧
      busWrite 0x008#32 v s =
        some { s with
          status := { s.status with
            done := s.status.done && !v.getLsbD 1
            werr := s.status.werr && !v.getLsbD 16 } }) ∧
    (∀ a v t, a ≠ 0x004#32 → a ≠ 0x008#32 → busWrite a v s = some t → t = { s with status := { s.status with werr := true } }) ∧
    (∀ a v t, busRead a s = some (v, t) → 0x1000 ≤ a.toNat ∨
        a ∈ [0x010#32, 0x014#32, 0x018#32, 0x01C#32, 0x020#32, 0x024#32, 0x028#32, 0x02C#32] →
      v = Config.freeWord s.env.draws ∧ t = { s with env := { s.env with draws := s.env.draws + 1 } }) ∧
    (∀ r ∈ [Csr.id, .ctrl, .status, .cmd, .capSyms, .capBits, .capBytes, .capAlpha, .capCodeLen],
      busRead (BitVec.ofNat 32 r.offset) s = some (readCsr s r, s)) ∧
    ∀ a v, ((busRead a s).isNone = (busRead a { s with status := { s.status with busy := false } }).isNone) ∧
      ((busWrite a v s).isNone = (busWrite a v { s with status := { s.status with busy := false } }).isNone)

/-- R61, R62, R64, R69: which accesses end with a bus error, and that they change nothing and return nothing. `a` is the block's
address of the access: the platform's less the base, modulo 2^32, the base a multiple of 4 (log entry 12). -/
def Obligations.BusErrors : Prop :=
  ∀ (s : State) (addr v : Word) (enables : BitVec 4), s.cfg.Legal →
    (let a := (addr - s.cfg.platformBase).toNat
     let badRead := a % 4 ≠ 0 ∨ enables ≠ 15#4 ∨ (0x1000 ≤ a ∧ a < 0x1000000) ∨ 0x7000000 ≤ a ∨
       (0x1000000 ≤ a ∧ a < 0x2000000 ∧ s.cfg.maxSyms ≤ (a - 0x1000000) / 4) ∨
       (0x2000000 ≤ a ∧ a < 0x3000000 ∧ s.cfg.maxSyms ≤ (a - 0x2000000) / 4) ∨
       (0x3000000 ≤ a ∧ a < 0x4000000 ∧ s.cfg.maxBits / 32 ≤ (a - 0x3000000) / 4) ∨
       (0x4000000 ≤ a ∧ a < 0x5000000 ∧ (s.cfg.maxBytes + 3) / 4 ≤ (a - 0x4000000) / 4) ∨
       (0x5000000 ≤ a ∧ a < 0x6000000 ∧ s.cfg.maxTser ≤ (a - 0x5000000) / 8) ∨
       (0x6000000 ≤ a ∧ a < 0x7000000 ∧ s.cfg.maxAlpha ≤ (a - 0x6000000) / 16)
     (badRead → hostRead addr enables s = (.busError, s)) ∧
     (badRead ∨ (0x6000000 ≤ a ∧ a < 0x7000000) → hostWrite addr v enables s = (.busError, s)) ∧
     (¬ badRead → ∃ u t, hostRead addr enables s = (.data u, t)) ∧
     (¬ badRead → ¬ (0x6000000 ≤ a ∧ a < 0x7000000) → ∃ t, hostWrite addr v enables s = (.ack, t)))

/-- R71: no read has a side effect: only the count of free values drawn can change (log entry 2). -/
def Obligations.ReadsHaveNoSideEffect : Prop :=
  ∀ (s t : State) (a v : Word), busRead a s = some (v, t) → t = { s with env := { s.env with draws := t.env.draws } }

/-- R63: the word at `0x0100_0000·(b+1) + 4·i` is `SYM[b][i]`: a read of an idle block returns it, a write stores it, marks it written
and changes nothing else. -/
def Obligations.SymWindow : Prop :=
  ∀ (s : State) (b : SymBuf) (i : Nat), s.cfg.Legal → s.status.busy = false → i < s.cfg.maxSyms →
    let a := BitVec.ofNat 32 (0x1000000 * (if b = .sym0 then 1 else 2) + 4 * i)
    (∀ v, (s.mem.sym b).get? i = some v → busRead a s = some (v, s)) ∧
    ∀ v, ∃ t, busWrite a v s = some t ∧ t = { s with mem := t.mem } ∧ (t.mem.sym b).get? i = some v ∧
      (∀ j, j ≠ i → (t.mem.sym b).get? j = (s.mem.sym b).get? j) ∧ (∀ c, c ≠ b → t.mem.sym c = s.mem.sym c) ∧
      t.mem.bits = s.mem.bits ∧ t.mem.bytes = s.mem.bytes ∧ t.mem.tserTag = s.mem.tserTag ∧ t.mem.tserSym = s.mem.tserSym

/-- R65: word bit 31 − k of BITS-window word w is `BITS[32·w + k]`, for reads and for writes. -/
def Obligations.BitsWindow : Prop :=
  ∀ (s : State) (w : Nat) (v : Word), s.cfg.Legal → s.status.busy = false → w < s.cfg.maxBits / 32 →
    let a := BitVec.ofNat 32 (0x3000000 + 4 * w)
    ((∀ k, k < 32 → s.mem.bits.get? (32 * w + k) = some (v.getLsbD (31 - k))) → busRead a s = some (v, s)) ∧
    ∃ t, busWrite a v s = some t ∧ t = { s with mem := { s.mem with bits := t.mem.bits } } ∧
      (∀ k, k < 32 → t.mem.bits.get? (32 * w + k) = some (v.getLsbD (31 - k))) ∧
      ∀ j, j < 32 * w ∨ 32 * w + 32 ≤ j → t.mem.bits.get? j = s.mem.bits.get? j

/-- R66: byte lane j of BYTES-window word w is `BYTES[4·w + j]`; lanes at or beyond `MAX_BYTES` read 0 and ignore writes. -/
def Obligations.BytesWindow : Prop :=
  ∀ (s : State) (w : Nat) (v : Word), s.cfg.Legal → s.status.busy = false → 4 * w < s.cfg.maxBytes →
    let a := BitVec.ofNat 32 (0x4000000 + 4 * w)
    ((∀ j, j < 4 → if 4 * w + j < s.cfg.maxBytes then s.mem.bytes.get? (4 * w + j) = some (v.extractLsb' (8 * j) 8)
        else v.extractLsb' (8 * j) 8 = 0#8) → busRead a s = some (v, s)) ∧
    ∃ t, busWrite a v s = some t ∧ t = { s with mem := { s.mem with bytes := t.mem.bytes } } ∧
      (∀ j, j < 4 → 4 * w + j < s.cfg.maxBytes → t.mem.bytes.get? (4 * w + j) = some (v.extractLsb' (8 * j) 8)) ∧
      ∀ j, j < 4 * w ∨ 4 * w + 4 ≤ j ∨ s.cfg.maxBytes ≤ j → t.mem.bytes.get? j = s.mem.bytes.get? j

/-- R67: entry i of TSER is two words, each read and written whole. -/
def Obligations.TserWindow : Prop :=
  ∀ (s : State) (i : Nat), s.cfg.Legal → s.status.busy = false → i < s.cfg.maxTser →
    let tag := BitVec.ofNat 32 (0x5000000 + 8 * i)
    let sym := BitVec.ofNat 32 (0x5000000 + 8 * i + 4)
    (∀ v, s.mem.tserTag.get? i = some v → busRead tag s = some (v, s)) ∧
    (∀ v, s.mem.tserSym.get? i = some v → busRead sym s = some (v, s)) ∧
    (∀ v, ∃ t, busWrite tag v s = some t ∧ t = { s with mem := { s.mem with tserTag := t.mem.tserTag } } ∧
      t.mem.tserTag.get? i = some v ∧ ∀ j, j ≠ i → t.mem.tserTag.get? j = s.mem.tserTag.get? j) ∧
    ∀ v, ∃ t, busWrite sym v s = some t ∧ t = { s with mem := { s.mem with tserSym := t.mem.tserSym } } ∧
      t.mem.tserSym.get? i = some v ∧ ∀ j, j ≠ i → t.mem.tserSym.get? j = s.mem.tserSym.get? j

/-- R64: the four words of a code table entry, the codeword right-aligned with its first bit at bit `len` − 1; without a code table, or
at or beyond `CODE_COUNT`, the first three read a value nothing constrains; a write is a bus error. That such a
value is `Config.freeWord` of the draw counter is the model's form for it (DESIGN CHOICE, log entry 2). -/
def Obligations.CodeWindow : Prop :=
  ∀ (s : State) (i : Nat), s.cfg.Legal → s.status.busy = false → i < s.cfg.maxAlpha →
    let a := fun field => BitVec.ofNat 32 (0x6000000 + 16 * i + 4 * field)
    (∀ table e, s.code = some table → table[i]? = some e → e.code.length ≤ 32 →
      busRead (a 0) s = some (e.sym, s) ∧
      (∃ v, busRead (a 1) s = some (v, s) ∧ v.toNat = e.code.length) ∧
      (∃ v, busRead (a 2) s = some (v, s) ∧
        ∀ k, v.getLsbD k = if k < e.code.length then e.code.getD (e.code.length - 1 - k) false else false)) ∧
    busRead (a 3) s = some (0#32, s) ∧
    ((∀ table, s.code = some table → table.length ≤ i) → ∀ field, field < 3 →
      busRead (a field) s = some (Config.freeWord s.env.draws, { s with env := { s.env with draws := s.env.draws + 1 } })) ∧
    ∀ field v, field < 4 → busWrite (a field) v s = none

/-! ### The commands -/

/-- R120: the packed buffer of a bit string. -/
def Obligations.PackedBufferFormat : Prop :=
  ∀ b : BitString,
    (packed b).length = 1 + (b.length + 7) / 8 ∧
    (packed b)[0]? = some (BitVec.ofNat 8 ((8 - b.length % 8) % 8)) ∧
    ∀ j, j < (b.length + 7) / 8 →
      (packed b)[1 + j]? =
        some (BitVec.ofNat 8 (∑ k ∈ Finset.range 8, (b.getD (8 * j + k) false).toNat <<< (7 - k)))

/-- R121: PACK. The zero fill of the last window word ends at `MAX_BYTES`, beyond which there is no lane (R66; DEDUCED, log entry 5). -/
def Obligations.PackRule : Prop :=
  decode 0x00000009#32 = some .pack ∧
  ∀ s : State, s.cfg.Legal →
    (s.cfg.maxBits < s.bitLen → FailsWith .pack s .capacityExceeded 0) ∧
    ∀ b, s.HoldsBits b → b.length ≤ s.cfg.maxBits →
      Succeeds .pack s fun t =>
        t.HoldsBytes (packed b) ∧
        (∀ i, (packed b).length ≤ i → i < 4 * (((packed b).length + 3) / 4) → i < s.cfg.maxBytes →
          t.mem.bytes.get? i = some 0#8) ∧
        ∀ i, 4 * (((packed b).length + 3) / 4) ≤ i → t.mem.bytes.get? i = s.mem.bytes.get? i

/-- R122: UNPACK. The clauses for a rejected header ask byte 0 alone to be written: that UNPACK rejects a header before it reads the
data bytes is the model's reading of R49 and R112 (DEDUCED, log entry 7). -/
def Obligations.UnpackRule : Prop :=
  decode 0x0000000A#32 = some .unpack ∧
  ∀ s : State, s.cfg.Legal →
    (s.cfg.maxBytes < s.byteLen → FailsWith .unpack s .capacityExceeded 0) ∧
    (s.byteLen = 0 → FailsWith .unpack s .invalidFormat 0) ∧
    (∀ h, 0 < s.byteLen → s.byteLen ≤ s.cfg.maxBytes → s.mem.bytes.get? 0 = some h → 7 < h.toNat →
      FailsWith .unpack s .invalidFormat h.toNat) ∧
    (∀ h, s.byteLen = 1 → s.mem.bytes.get? 0 = some h → h.toNat ≠ 0 → FailsWith .unpack s .invalidFormat h.toNat) ∧
    ∀ h data, s.HoldsBytes (h :: data) → data.length + 1 ≤ s.cfg.maxBytes → h.toNat ≤ 7 → (data = [] → h.toNat = 0) →
      let n := 8 * data.length - h.toNat
      Succeeds .unpack s fun t =>
        t.bitLen = n ∧
        (∀ i, i < n → t.mem.bits.get? i = some ((data.getD (i / 8) 0#8).getLsbD (7 - i % 8))) ∧
        (∀ i, n ≤ i → i < 32 * ((n + 31) / 32) → t.mem.bits.get? i = some false) ∧
        ∀ i, 32 * ((n + 31) / 32) ≤ i → t.mem.bits.get? i = s.mem.bits.get? i

/-- R140, R141: RLE_ENC. The output is the flattened pairs of the runs: pairs that expand to the input, with counts of at least 1 and no
two adjacent values equal; it must fit the destination. -/
def Obligations.RleEncRule : Prop :=
  decode 0x00000207#32 = some (.rleEnc .sym0 .sym1) ∧ decode 0x00000107#32 = some (.rleEnc .sym1 .sym0) ∧
  ∀ (s : State) (b d : SymBuf), s.cfg.Legal → b ≠ d →
    (s.cfg.maxSyms < s.symLen b → FailsWith (.rleEnc b d) s .capacityExceeded 0) ∧
    ∀ src, s.HoldsSyms b src → src.length ≤ s.cfg.maxSyms →
      ∃ ps : List (Symbol × Nat),
        ps.flatMap (fun p => List.replicate p.2 p.1) = src ∧ (∀ p ∈ ps, 1 ≤ p.2) ∧ ps.IsChain (fun p q => p.1 ≠ q.1) ∧
        (2 * ps.length ≤ s.cfg.maxSyms →
          Succeeds (.rleEnc b d) s fun t =>
            t.HoldsSyms d (ps.flatMap fun p => [p.1, BitVec.ofNat 32 p.2]) ∧
            ∀ i, 2 * ps.length ≤ i → (t.mem.sym d).get? i = (s.mem.sym d).get? i) ∧
        (s.cfg.maxSyms < 2 * ps.length → FailsWith (.rleEnc b d) s .capacityExceeded 0)

/-- R142: RLE_DEC. A stream of even length is pairs of a value and a count; the sum of the counts is taken without wrap-around. -/
def Obligations.RleDecRule : Prop :=
  decode 0x00000208#32 = some (.rleDec .sym0 .sym1) ∧ decode 0x00000108#32 = some (.rleDec .sym1 .sym0) ∧
  ∀ (s : State) (b d : SymBuf), s.cfg.Legal → b ≠ d →
    (s.cfg.maxSyms < s.symLen b → FailsWith (.rleDec b d) s .capacityExceeded 0) ∧
    (s.symLen b ≤ s.cfg.maxSyms → s.symLen b % 2 = 1 → FailsWith (.rleDec b d) s .invariantViolation (s.symLen b)) ∧
    ∀ ps : List (Symbol × Word), s.HoldsSyms b (ps.flatMap fun p => [p.1, p.2]) → 2 * ps.length ≤ s.cfg.maxSyms →
      let total := (ps.map fun p => p.2.toNat).sum
      (total ≤ s.cfg.maxSyms →
        Succeeds (.rleDec b d) s fun t =>
          t.HoldsSyms d (ps.flatMap fun p => List.replicate p.2.toNat p.1) ∧
          ∀ i, total ≤ i → (t.mem.sym d).get? i = (s.mem.sym d).get? i) ∧
      (s.cfg.maxSyms < total → FailsWith (.rleDec b d) s .capacityExceeded 0)

/-- R160 to R162: BUILD_TREE. The distinct symbols ascending are the leaves 0 to N − 1, keyed by their frequencies; two or more are
merged by the construction `HuffmanMerge`. -/
def Obligations.BuildTreeRule : Prop :=
  decode 0x00000001#32 = some (.buildTree .sym0) ∧ decode 0x00000101#32 = some (.buildTree .sym1) ∧
  ∀ (s : State) (b : SymBuf), s.cfg.Legal →
    (s.cfg.maxSyms < s.symLen b → FailsWith (.buildTree b) s .capacityExceeded 0) ∧
    ∀ src, s.HoldsSyms b src → src.length ≤ s.cfg.maxSyms →
      ∃ syms : List Symbol, syms.Pairwise (fun x y => x.toNat < y.toNat) ∧ (∀ x, x ∈ syms ↔ x ∈ src) ∧
        (s.cfg.maxAlpha < syms.length → FailsWith (.buildTree b) s .capacityExceeded 0) ∧
        (syms.length ≤ s.cfg.maxAlpha →
          Succeeds (.buildTree b) s fun t =>
            t.code = none ∧
            (syms = [] → t.tree = some .empty) ∧
            (∀ x, syms = [x] → t.tree = some (.root (.leaf x))) ∧
            (2 ≤ syms.length →
              ∃ n, t.tree = some (.root n) ∧
                HuffmanMerge syms.length (syms.zipIdx.map fun p => ⟨src.count p.1, p.2, .leaf p.1⟩) n))

/-- R170: the portable form: preorder, a leaf (1, s), an inner node (0, 0) before its subtrees; 2N − 1 entries for N leaves. -/
def Obligations.SerializedTreeFormat : Prop :=
  (∀ s, (Node.leaf s).serialize = [(1#32, s)]) ∧
  (∀ l r : Node, (Node.inner l r).serialize = [(0#32, 0#32)] ++ l.serialize ++ r.serialize) ∧
  Tree.empty.serialize = [] ∧ (∀ n : Node, (Tree.root n).serialize = n.serialize) ∧
  (∀ n : Node, (Tree.root n).serialize.length = 2 * (Tree.root n).leaves.length - 1) ∧
  ∀ (c : Config) (t : Tree), t.leaves.length ≤ c.maxAlpha → t.serialize.length ≤ c.maxTser

/-- R171: TREE_STORE. -/
def Obligations.TreeStoreRule : Prop :=
  decode 0x00000002#32 = some .treeStore ∧
  ∀ s : State, s.cfg.Legal →
    (s.tree = none → FailsWith .treeStore s .notReady 0) ∧
    ∀ t, s.tree = some t → t.leaves.length ≤ s.cfg.maxAlpha →
      Succeeds .treeStore s fun u =>
        u.HoldsTser t.serialize ∧
        ∀ i, t.serialize.length ≤ i →
          u.mem.tserTag.get? i = s.mem.tserTag.get? i ∧ u.mem.tserSym.get? i = s.mem.tserSym.get? i

/-- R172: TREE_LOAD. Entries that are a tree's portable form load that tree, the sym words of inner nodes ignored; a tag other than 0
or 1, a stream that ends inside a tree, entries left after it, and a repeated leaf symbol raise `InvalidFormat` with the index the
rule names. The error clauses ask nothing of the entries after the one at which the parse raises, and no clause asks the sym word of
an inner node to be written: that TREE_LOAD reads entry by entry is the model's reading of R49 and R112 (DEDUCED, log entry 7). -/
def Obligations.TreeLoadRule : Prop :=
  decode 0x00000003#32 = some .treeLoad ∧
  ∀ s : State, s.cfg.Legal →
    (s.cfg.maxTser < s.tserLen → FailsWith .treeLoad s .capacityExceeded 0) ∧
    (s.tserLen ≤ s.cfg.maxTser →
      (s.tserLen = 0 → Succeeds .treeLoad s fun t => t.tree = some .empty ∧ t.code = none) ∧
      ∀ n : Node,
        (∀ i tag, s.TserAgrees n i → i < n.serialize.length → i < s.tserLen → s.mem.tserTag.get? i = some tag →
          tag ≠ 0#32 → tag ≠ 1#32 → FailsWith .treeLoad s .invalidFormat i) ∧
        (s.TserAgrees n s.tserLen → 0 < s.tserLen → s.tserLen < n.serialize.length →
          FailsWith .treeLoad s .invalidFormat s.tserLen) ∧
        (s.TserAgrees n n.serialize.length → n.serialize.length < s.tserLen →
          FailsWith .treeLoad s .invalidFormat n.serialize.length) ∧
        (s.TserAgrees n n.serialize.length → s.tserLen = n.serialize.length →
          (n.leaves.Nodup → Succeeds .treeLoad s fun t => t.tree = some (.root n) ∧ t.code = none) ∧
          ∀ i x, n.serialize[i]? = some (1#32, x) → (∃ j, j < i ∧ n.serialize[j]? = some (1#32, x)) →
            (∀ k y, k < i → n.serialize[k]? = some (1#32, y) → ¬ ∃ j, j < k ∧ n.serialize[j]? = some (1#32, y)) →
            FailsWith .treeLoad s .invalidFormat i))

/-- R190: the code table of a tree: its symbols are the leaves left to right, each codeword is the path to its leaf, and the single leaf
has the codeword "0". -/
def Obligations.CodesArePaths : Prop :=
  Tree.empty.codes = [] ∧ (∀ s, (Tree.root (.leaf s)).codes = [⟨s, [false]⟩]) ∧
  ∀ l r : Node,
    let n := Node.inner l r
    (Tree.root n).codes.map CodeEntry.sym = n.leaves ∧
    ∀ e ∈ (Tree.root n).codes, n.follow e.code = some (.leaf e.sym)

/-- R191: DERIVE_CODES. -/
def Obligations.DeriveCodesRule : Prop :=
  decode 0x00000004#32 = some .deriveCodes ∧
  ∀ s : State,
    (s.tree = none → FailsWith .deriveCodes s .notReady 0) ∧
    (s.tree = some .empty → Succeeds .deriveCodes s fun t => t.code = some []) ∧
    ∀ n, s.tree = some (.root n) →
      (32 < n.depth → FailsWith .deriveCodes s .capacityExceeded 0) ∧
      (n.depth ≤ 32 → Succeeds .deriveCodes s fun t => t.code = some (Tree.root n).codes ∧ t.codeCount = n.leaves.length)

/-- R200: HUF_ENC. -/
def Obligations.HufEncRule : Prop :=
  decode 0x00000005#32 = some (.hufEnc .sym0) ∧ decode 0x00000105#32 = some (.hufEnc .sym1) ∧
  ∀ (s : State) (b : SymBuf), s.cfg.Legal →
    (s.code = none → FailsWith (.hufEnc b) s .notReady 0) ∧
    ∀ table, s.code = some table → (table.map CodeEntry.sym).Nodup →
      (s.cfg.maxSyms < s.symLen b → FailsWith (.hufEnc b) s .capacityExceeded 0) ∧
      (s.symLen b ≤ s.cfg.maxSyms →
        (∀ src i x, s.HoldsSyms b src → src[i]? = some x → x ∉ table.map CodeEntry.sym →
          (∀ j y, j < i → src[j]? = some y → y ∈ table.map CodeEntry.sym) → FailsWith (.hufEnc b) s .unknownSymbol i) ∧
        ∀ src cs, s.HoldsSyms b src → List.Forall₂ (fun x c => (⟨x, c⟩ : CodeEntry) ∈ table) src cs →
          let out := cs.flatten
          (out.length ≤ s.cfg.maxBits →
            Succeeds (.hufEnc b) s fun t =>
              t.HoldsBits out ∧
              (∀ i, out.length ≤ i → i < 32 * ((out.length + 31) / 32) → t.mem.bits.get? i = some false) ∧
              ∀ i, 32 * ((out.length + 31) / 32) ≤ i → t.mem.bits.get? i = s.mem.bits.get? i) ∧
          (s.cfg.maxBits < out.length → FailsWith (.hufEnc b) s .capacityExceeded 0))

/-- R201: HUF_DEC. With an inner root every bit string is paths to leaves followed by `rest`, a path that ends at an inner node (the
last clause): when `rest` is empty its leaves are the output, else the first bit of `rest` is reported. -/
def Obligations.HufDecRule : Prop :=
  decode 0x00000006#32 = some (.hufDec .sym0) ∧ decode 0x00000206#32 = some (.hufDec .sym1) ∧
  (∀ (s : State) (d : SymBuf), s.cfg.Legal →
    (s.tree = none → FailsWith (.hufDec d) s .notReady 0) ∧
    (s.tree.isSome = true → s.cfg.maxBits < s.bitLen → FailsWith (.hufDec d) s .capacityExceeded 0) ∧
    (s.bitLen ≤ s.cfg.maxBits →
      (s.tree = some .empty →
        (s.bitLen = 0 → Succeeds (.hufDec d) s fun t => t.symLen d = 0 ∧ t.mem = s.mem) ∧
        ∀ b, s.HoldsBits b → b ≠ [] → FailsWith (.hufDec d) s .corruptStream 0) ∧
      (∀ x b, s.tree = some (.root (.leaf x)) → s.HoldsBits b →
        (b.length ≤ s.cfg.maxSyms →
          Succeeds (.hufDec d) s fun t =>
            t.HoldsSyms d (List.replicate b.length x) ∧
            ∀ i, b.length ≤ i → (t.mem.sym d).get? i = (s.mem.sym d).get? i) ∧
        (s.cfg.maxSyms < b.length → FailsWith (.hufDec d) s .capacityExceeded 0)) ∧
      ∀ l r, s.tree = some (.root (.inner l r)) →
        ∀ (xs : List Symbol) (cs : List BitString) (rest : BitString), s.HoldsBits (cs.flatten ++ rest) →
          List.Forall₂ (fun x c => (Node.inner l r).follow c = some (.leaf x)) xs cs →
          (∃ u v, (Node.inner l r).follow rest = some (.inner u v)) →
          (rest = [] → xs.length ≤ s.cfg.maxSyms →
            Succeeds (.hufDec d) s fun t =>
              t.HoldsSyms d xs ∧ ∀ i, xs.length ≤ i → (t.mem.sym d).get? i = (s.mem.sym d).get? i) ∧
          (rest = [] → s.cfg.maxSyms < xs.length → FailsWith (.hufDec d) s .capacityExceeded 0) ∧
          (rest ≠ [] → FailsWith (.hufDec d) s .corruptStream cs.flatten.length))) ∧
  ∀ (l r : Node) (bits : BitString), ∃ (xs : List Symbol) (cs : List BitString) (rest : BitString), bits = cs.flatten ++ rest ∧
    List.Forall₂ (fun x c => (Node.inner l r).follow c = some (.leaf x)) xs cs ∧
    ∃ u v, (Node.inner l r).follow rest = some (.inner u v)

/-- R79, R106 (a), R112: the frame of every command: whatever its result, it changes its own destination only, and control, `cmd_last`,
`WERR`, the host and the build not at all. -/
def Obligations.CommandsChangeOnlyTheirDestination : Prop :=
  ∀ (i : Instr) (s t : State), exec i s = .next t →
    s.SameControl t ∧ t.inflight = none ∧ t.status.busy = false ∧ t.status.done = true ∧
    (i.wellFormed = true → s.SameExcept t (destOf i)) ∧
    (i.wellFormed = false → s.SameData t ∧ t.status.err = .illegalCommand)

/-- R106: the error effects of a legal command. -/
def Obligations.ErrorEffects : Prop :=
  ∀ (i : Instr) (s t : State), i.wellFormed = true → exec i s = .next t → t.status.err ≠ .ok →
    s.SameControl t ∧ s.SameExcept t (destOf i) ∧ t.Voided (destOf i)

/-- R220, R221: the results each command can report. -/
def Obligations.PossibleResults : Prop :=
  ∀ (i : Instr) (s t : State), i.wellFormed = true → exec i s = .next t →
    t.status.err ∈
      match i with
      | .buildTree _ => [ResultCode.ok, .capacityExceeded]
      | .treeStore => [.ok, .notReady]
      | .treeLoad => [.ok, .invalidFormat, .capacityExceeded]
      | .deriveCodes => [.ok, .capacityExceeded, .notReady]
      | .hufEnc _ => [.ok, .unknownSymbol, .capacityExceeded, .notReady]
      | .hufDec _ => [.ok, .corruptStream, .capacityExceeded, .notReady]
      | .rleEnc _ _ => [.ok, .capacityExceeded]
      | .rleDec _ _ => [.ok, .capacityExceeded, .invariantViolation]
      | .pack => [.ok, .capacityExceeded]
      | .unpack => [.ok, .invalidFormat, .capacityExceeded]

/-- R49, R79: no command is refused; a command stops only at an entry of its source, below the length register, that has not been
written since reset; and it does stop at such an entry when the checks its rule makes before reading it pass. (Which entries count
as read where a rule reads them one by one, UNPACK and TREE_LOAD, is log entry 7.) -/
def Obligations.StopsOnlyAtUnwrittenEntries : Prop :=
  (∀ (i : Instr) (s : State),
    (∀ q, exec i s ≠ .refused q) ∧
    ∀ f, exec i s = .fault f → ∃ buf k, f = .unwrittenEntry buf k ∧ s.UnwrittenSource k i buf) ∧
  ∀ (s : State) (k : Nat),
    (∀ b, s.symLen b ≤ s.cfg.maxSyms → k < s.symLen b → (s.mem.sym b).get? k = none →
      (∃ f, exec (.buildTree b) s = .fault f) ∧
      (s.code.isSome = true → ∃ f, exec (.hufEnc b) s = .fault f) ∧
      ∀ d, b ≠ d → (∃ f, exec (.rleEnc b d) s = .fault f) ∧ (s.symLen b % 2 = 0 → ∃ f, exec (.rleDec b d) s = .fault f)) ∧
    (s.bitLen ≤ s.cfg.maxBits → k < s.bitLen → s.mem.bits.get? k = none →
      (∃ f, exec .pack s = .fault f) ∧ ∀ d, s.tree.isSome = true → ∃ f, exec (.hufDec d) s = .fault f) ∧
    (s.byteLen ≤ s.cfg.maxBytes → k < s.byteLen → s.mem.bytes.get? k = none →
      (∀ h, s.mem.bytes.get? 0 = some h → h.toNat ≤ 7) → ∃ f, exec .unpack s = .fault f) ∧
    ∀ n : Node, s.tserLen ≤ s.cfg.maxTser → s.TserAgrees n k → k < n.serialize.length → k < s.tserLen →
      s.mem.tserTag.get? k = none ∨ s.mem.tserTag.get? k = some 1#32 ∧ s.mem.tserSym.get? k = none →
      ∃ f, exec .treeLoad s = .fault f

/-! ### Laws -/

/-- R123: PACK then UNPACK gives the bit string back. Between the two the host may do anything that leaves the data alone. -/
def Obligations.PackUnpackRoundTrip : Prop :=
  ∀ (s : State) (b : BitString), s.cfg.Legal → s.HoldsBits b → b.length ≤ s.cfg.maxBits →
    ∃ t, exec .pack s = .next t ∧ t.status.err = .ok ∧
      ∀ t', t.SameData t' → ∃ u, exec .unpack t' = .next u ∧ u.status.err = .ok ∧ u.HoldsBits b

/-- R124: what PACK writes is a legal UNPACK input, and UNPACK gives the same bit string whatever the filler bits are. -/
def Obligations.UnpackIgnoresFillerBits : Prop :=
  (∀ b : BitString, ∃ h data, packed b = h :: data ∧ h.toNat ≤ 7 ∧ (data = [] → h.toNat = 0)) ∧
  ∀ (s t : State) (h : Byte) (data data' : List Byte), s.cfg.Legal → t.cfg = s.cfg → data.length = data'.length →
    s.HoldsBytes (h :: data) → t.HoldsBytes (h :: data') → data.length + 1 ≤ s.cfg.maxBytes → h.toNat ≤ 7 →
    (data = [] → h.toNat = 0) →
    (∀ i, i < 8 * data.length - h.toNat →
      (data.getD (i / 8) 0#8).getLsbD (7 - i % 8) = (data'.getD (i / 8) 0#8).getLsbD (7 - i % 8)) →
    ∃ u v b, exec .unpack s = .next u ∧ exec .unpack t = .next v ∧ u.status.err = .ok ∧ v.status.err = .ok ∧
      u.HoldsBits b ∧ v.HoldsBits b

/-- R143: RLE_ENC then RLE_DEC back gives the sequence back, whenever RLE_ENC's output fits (it has two entries a run). -/
def Obligations.RleRoundTrip : Prop :=
  ∀ (s : State) (b c : SymBuf) (xs : List Symbol), s.cfg.Legal → b ≠ c → s.HoldsSyms b xs → xs.length ≤ s.cfg.maxSyms →
    2 * (xs.zip (xs.drop 1)).countP (fun p => p.1 != p.2) + 2 ≤ s.cfg.maxSyms →
    ∃ t, exec (.rleEnc b c) s = .next t ∧ t.status.err = .ok ∧
      ∀ t', t.SameData t' → ∃ u, exec (.rleDec c b) t' = .next u ∧ u.status.err = .ok ∧ u.HoldsSyms b xs

/-- R144: RLE_DEC then RLE_ENC back gives a stream that meets the pair invariant and expands alike; on a stream that meets it already,
the same stream. -/
def Obligations.RleNormalises : Prop :=
  ∀ (s : State) (b c : SymBuf) (ps : List (Symbol × Word)), s.cfg.Legal → b ≠ c →
    s.HoldsSyms b (ps.flatMap fun p => [p.1, p.2]) → 2 * ps.length ≤ s.cfg.maxSyms →
    (ps.map fun p => p.2.toNat).sum ≤ s.cfg.maxSyms →
    ∃ t, exec (.rleDec b c) s = .next t ∧ t.status.err = .ok ∧
      ∀ t', t.SameData t' → ∃ u, exec (.rleEnc c b) t' = .next u ∧ u.status.err = .ok ∧
        ∃ qs : List (Symbol × Word), u.HoldsSyms b (qs.flatMap fun p => [p.1, p.2]) ∧
          qs.flatMap (fun p => List.replicate p.2.toNat p.1) = ps.flatMap (fun p => List.replicate p.2.toNat p.1) ∧
          (∀ p ∈ qs, 1 ≤ p.2.toNat) ∧ qs.IsChain (fun p q => p.1 ≠ q.1) ∧
          ((∀ p ∈ ps, 1 ≤ p.2.toNat) → ps.IsChain (fun p q => p.1 ≠ q.1) → qs = ps)

/-- R163: the tree BUILD_TREE leaves: one leaf for each distinct symbol, pairwise distinct, and one inner node less. -/
def Obligations.BuiltTreeShape : Prop :=
  ∀ (s t : State) (b : SymBuf) (src : List Symbol), s.HoldsSyms b src → exec (.buildTree b) s = .next t → t.status.err = .ok →
    ∃ tree, t.tree = some tree ∧ tree.leaves.Nodup ∧ (∀ x, x ∈ tree.leaves ↔ x ∈ src) ∧
      (tree = .empty ↔ src = []) ∧
      (∀ n, tree = .root n → n.innerCount + 1 = n.leaves.length) ∧
      ∀ n, tree = .root n → (n.leaves.length = 1 ↔ ∃ x, n = .leaf x)

/-- R174: BUILD_TREE over equal sequences gives equal trees, whatever else the two states hold. -/
def Obligations.BuildTreeIsDeterministic : Prop :=
  ∀ (s s' t t' : State) (b b' : SymBuf) (src : List Symbol), s.HoldsSyms b src → s'.HoldsSyms b' src →
    exec (.buildTree b) s = .next t → exec (.buildTree b') s' = .next t' → t.status.err = .ok → t'.status.err = .ok →
    t.tree = t'.tree

/-- R173: TREE_STORE then TREE_LOAD completes with `OK` and leaves TREE as it was, so the codes derived after are those before. -/
def Obligations.TreeRoundTrip : Prop :=
  ∀ (s : State) (tree : Tree), Inv s → s.tree = some tree →
    ∃ t, exec .treeStore s = .next t ∧ t.status.err = .ok ∧
      ∀ t', t.SameData t' → ∃ u, exec .treeLoad t' = .next u ∧ u.status.err = .ok ∧ u.tree = some tree ∧
        ∀ v w, exec .deriveCodes s = .next v → exec .deriveCodes u = .next w → v.code = w.code ∧ v.status.err = w.status.err

/-- R192: the table DERIVE_CODES writes is prefix-free with pairwise distinct symbols. -/
def Obligations.CodesArePrefixFree : Prop :=
  ∀ (s t : State) (table : CodeTable), Inv s → exec .deriveCodes s = .next t → t.status.err = .ok → t.code = some table →
    (table.map CodeEntry.sym).Nodup ∧ table.Pairwise (fun e f => ¬ e.code <+: f.code ∧ ¬ f.code <+: e.code)

/-- R193: the Fibonacci bound on the depth of a built tree, and that DERIVE_CODES never fails on one. -/
def Obligations.BuiltTreesAreShallow : Prop :=
  ∀ (s t : State) (b : SymBuf) (src : List Symbol) (n : Node), s.cfg.Legal → s.HoldsSyms b src →
    exec (.buildTree b) s = .next t → t.status.err = .ok → t.tree = some (.root n) →
    Nat.fib (n.depth + 2) ≤ src.length ∧ n.depth ≤ 31 ∧ (s.cfg.maxSyms ≤ 524288 → n.depth ≤ 27) ∧
      ∀ t', t.SameData t' → ∃ u, exec .deriveCodes t' = .next u ∧ u.status.err = .ok

/-- R202, R204: BUILD_TREE over a sequence, DERIVE_CODES, HUF_ENC over it and HUF_DEC all complete with `OK` when the encoded length fits,
and the decoded sequence is the sequence. The encoded length is the sum of the codeword lengths. -/
def Obligations.HuffmanRoundTrip : Prop :=
  ∀ (s : State) (b d : SymBuf) (xs : List Symbol), s.cfg.Legal → s.HoldsSyms b xs → xs.length ≤ s.cfg.maxSyms →
    xs.dedup.length ≤ s.cfg.maxAlpha →
    ∃ t, exec (.buildTree b) s = .next t ∧ t.status.err = .ok ∧
      ∀ t', t.SameData t' → ∃ u table, exec .deriveCodes t' = .next u ∧ u.status.err = .ok ∧ u.code = some table ∧
        (∀ x ∈ xs, ∃ c, (⟨x, c⟩ : CodeEntry) ∈ table) ∧
        ((xs.map fun x => ((codeFor table x).getD []).length).sum ≤ s.cfg.maxBits →
          ∀ u', u.SameData u' → ∃ v, exec (.hufEnc b) u' = .next v ∧ v.status.err = .ok ∧
            v.bitLen = (xs.map fun x => ((codeFor table x).getD []).length).sum ∧
            ∀ v', v.SameData v' → ∃ w, exec (.hufDec d) v' = .next w ∧ w.status.err = .ok ∧ w.HoldsSyms d xs)

/-- R204: the length of HUF_ENC's output, and that with a single-leaf tree it is the input's length. -/
def Obligations.EncodedLength : Prop :=
  ∀ (s t : State) (b : SymBuf) (src : List Symbol) (table : CodeTable), Inv s → s.HoldsSyms b src → s.code = some table →
    exec (.hufEnc b) s = .next t → t.status.err = .ok →
    (∀ lens : List Nat, List.Forall₂ (fun x n => ∃ e ∈ table, e.sym = x ∧ e.code.length = n) src lens → t.bitLen = lens.sum) ∧
    ∀ x, s.tree = some (.root (.leaf x)) → t.bitLen = src.length

/-! ### The host's turn -/

/-- R60, R62, R72, R88, R89: the host's turn performs its next operation: `wr` and `rd` are the access at the block's address, the
platform's less the base, with the response noted; `expect` is `rd`, and the program ends unless it returns the value; an access with
byte enables not all set is a bus error; `wait` reads `STATUS` until it shows DONE and then clears DONE, and the `wait` of
`run <command> -> <err>` ends the program unless that last read has ERR = `err`; `run` and `load` are their expansions. The host as
data and the end of a program are log entries 9 and 18, the base modulo 2^32 log entry 12. -/
def Obligations.HostTurnPerformsTheAccess : Prop :=
  (∀ (s : State) (op : HostOp) (rest : List HostOp), s.mover = .host → s.env.pending = op :: rest →
    step s = .next (performHostOp op { s with env := { s.env with turns := s.env.turns.tail, pending := rest } })) ∧
  (∀ (s : State) (addr v : Word),
    let a := addr - s.cfg.platformBase
    (∀ t, busWrite a v s = some t →
      performHostOp (.wr addr v) s = { t with env := { t.env with responses := .ack :: t.env.responses } }) ∧
    (busWrite a v s = none →
      performHostOp (.wr addr v) s = { s with env := { s.env with responses := .busError :: s.env.responses } }) ∧
    (∀ u t, busRead a s = some (u, t) →
      performHostOp (.rd addr) s = { t with env := { t.env with responses := .data u :: t.env.responses } } ∧
      performHostOp (.expect addr v) s =
        if u = v then { t with env := { t.env with responses := .data u :: t.env.responses } }
        else { t with env := { t.env with responses := .data u :: t.env.responses, failed := true, pending := [] } }) ∧
    (busRead a s = none →
      performHostOp (.rd addr) s = { s with env := { s.env with responses := .busError :: s.env.responses } } ∧
      performHostOp (.expect addr v) s =
        { s with env := { s.env with responses := .busError :: s.env.responses, failed := true, pending := [] } }) ∧
    ∀ enables : BitVec 4,
      performHostOp (.wrBytes addr v enables) s =
        (if enables = 15#4 then performHostOp (.wr addr v) s
        else { s with env := { s.env with responses := .busError :: s.env.responses } }) ∧
      performHostOp (.rdBytes addr enables) s =
        if enables = 15#4 then performHostOp (.rd addr) s
        else { s with env := { s.env with responses := .busError :: s.env.responses } }) ∧
  (∀ s : State,
    let read := .data s.statusWord :: s.env.responses
    let clear := HostOp.wr (s.cfg.platformBase + 0x008#32) 2#32
    performHostOp .wait s =
      { s with env := { s.env with
        responses := read
        pending := (if s.status.done then clear else .wait) :: s.env.pending } } ∧
    ∀ err : BitVec 4, performHostOp (.waitErr err) s =
      if s.status.done = true ∧ s.status.err.toBits ≠ err then
        { s with env := { s.env with responses := read, failed := true, pending := [] } }
      else
        { s with env := { s.env with
          responses := read
          pending := (if s.status.done then clear else .waitErr err) :: s.env.pending } }) ∧
  ∀ (c : Config) (w : Word) (err : BitVec 4) (b : SymBuf) (vs : List Symbol),
    runWord c w = [.wr (c.platformBase + 0x00C#32) w, .wait] ∧
    runWordErr c w err = [.wr (c.platformBase + 0x00C#32) w, .waitErr err] ∧
    load c b vs =
      (vs.zipIdx.map fun p => .wr (c.platformBase + BitVec.ofNat 32 (0x1000000 * (if b = .sym0 then 1 else 2) + 4 * p.2)) p.1) ++
        [.wr (c.platformBase + (if b = .sym0 then 0x010#32 else 0x014#32)) (BitVec.ofNat 32 vs.length)]
end

