-- ==== Sys2Proof/Laws/State.lean ====
section
/-! SUPPORT. What each update of the state makes of each field: one lemma a field and update, so that no later proof unfolds a record
update. -/

namespace Sys2Proof.Machine

section StoreSyms
variable (b : SymBuf) (out : List Symbol) (s : State)

@[simp] theorem storeSyms_cfg : (s.storeSyms b out).cfg = s.cfg := rfl
@[simp] theorem storeSyms_mem : (s.storeSyms b out).mem = s.mem.setSym b ((s.mem.sym b).overwrite out) := rfl
@[simp] theorem storeSyms_ie : (s.storeSyms b out).ie = s.ie := rfl
@[simp] theorem storeSyms_status : (s.storeSyms b out).status = s.status := rfl
@[simp] theorem storeSyms_cmdLast : (s.storeSyms b out).cmdLast = s.cmdLast := rfl
@[simp] theorem storeSyms_lens : (s.storeSyms b out).lens = s.lens.setSym b (BitVec.ofNat 32 out.length) := rfl
@[simp] theorem storeSyms_errInfo : (s.storeSyms b out).errInfo = s.errInfo := rfl
@[simp] theorem storeSyms_tree : (s.storeSyms b out).tree = s.tree := rfl
@[simp] theorem storeSyms_code : (s.storeSyms b out).code = s.code := rfl
@[simp] theorem storeSyms_inflight : (s.storeSyms b out).inflight = s.inflight := rfl
@[simp] theorem storeSyms_env : (s.storeSyms b out).env = s.env := rfl

end StoreSyms

section StoreBits
variable (out : BitString) (s : State)

@[simp] theorem storeBits_cfg : (s.storeBits out).cfg = s.cfg := rfl
@[simp] theorem storeBits_mem : (s.storeBits out).mem = { s.mem with bits := s.mem.bits.overwrite (fillBits out) } := rfl
@[simp] theorem storeBits_ie : (s.storeBits out).ie = s.ie := rfl
@[simp] theorem storeBits_status : (s.storeBits out).status = s.status := rfl
@[simp] theorem storeBits_cmdLast : (s.storeBits out).cmdLast = s.cmdLast := rfl
@[simp] theorem storeBits_lens : (s.storeBits out).lens = { s.lens with bits := BitVec.ofNat 32 out.length } := rfl
@[simp] theorem storeBits_errInfo : (s.storeBits out).errInfo = s.errInfo := rfl
@[simp] theorem storeBits_tree : (s.storeBits out).tree = s.tree := rfl
@[simp] theorem storeBits_code : (s.storeBits out).code = s.code := rfl
@[simp] theorem storeBits_inflight : (s.storeBits out).inflight = s.inflight := rfl
@[simp] theorem storeBits_env : (s.storeBits out).env = s.env := rfl

end StoreBits

section StoreBytes
variable (out : List Byte) (s : State)

@[simp] theorem storeBytes_cfg : (s.storeBytes out).cfg = s.cfg := rfl
@[simp] theorem storeBytes_mem : (s.storeBytes out).mem = { s.mem with bytes := s.mem.bytes.overwrite (fillBytes s.cfg out) } := rfl
@[simp] theorem storeBytes_ie : (s.storeBytes out).ie = s.ie := rfl
@[simp] theorem storeBytes_status : (s.storeBytes out).status = s.status := rfl
@[simp] theorem storeBytes_cmdLast : (s.storeBytes out).cmdLast = s.cmdLast := rfl
@[simp] theorem storeBytes_lens : (s.storeBytes out).lens = { s.lens with bytes := BitVec.ofNat 32 out.length } := rfl
@[simp] theorem storeBytes_errInfo : (s.storeBytes out).errInfo = s.errInfo := rfl
@[simp] theorem storeBytes_tree : (s.storeBytes out).tree = s.tree := rfl
@[simp] theorem storeBytes_code : (s.storeBytes out).code = s.code := rfl
@[simp] theorem storeBytes_inflight : (s.storeBytes out).inflight = s.inflight := rfl
@[simp] theorem storeBytes_env : (s.storeBytes out).env = s.env := rfl

end StoreBytes

section StoreTser
variable (out : List (Word × Word)) (s : State)

@[simp] theorem storeTser_cfg : (s.storeTser out).cfg = s.cfg := rfl
@[simp] theorem storeTser_mem : (s.storeTser out).mem = { s.mem with tserTag := s.mem.tserTag.overwrite (out.map Prod.fst), tserSym := s.mem.tserSym.overwrite (out.map Prod.snd) } := rfl
@[simp] theorem storeTser_ie : (s.storeTser out).ie = s.ie := rfl
@[simp] theorem storeTser_status : (s.storeTser out).status = s.status := rfl
@[simp] theorem storeTser_cmdLast : (s.storeTser out).cmdLast = s.cmdLast := rfl
@[simp] theorem storeTser_lens : (s.storeTser out).lens = { s.lens with tser := BitVec.ofNat 32 out.length } := rfl
@[simp] theorem storeTser_errInfo : (s.storeTser out).errInfo = s.errInfo := rfl
@[simp] theorem storeTser_tree : (s.storeTser out).tree = s.tree := rfl
@[simp] theorem storeTser_code : (s.storeTser out).code = s.code := rfl
@[simp] theorem storeTser_inflight : (s.storeTser out).inflight = s.inflight := rfl
@[simp] theorem storeTser_env : (s.storeTser out).env = s.env := rfl

end StoreTser

section StoreTree
variable (t : Tree) (s : State)

@[simp] theorem storeTree_cfg : (s.storeTree t).cfg = s.cfg := rfl
@[simp] theorem storeTree_mem : (s.storeTree t).mem = s.mem := rfl
@[simp] theorem storeTree_ie : (s.storeTree t).ie = s.ie := rfl
@[simp] theorem storeTree_status : (s.storeTree t).status = s.status := rfl
@[simp] theorem storeTree_cmdLast : (s.storeTree t).cmdLast = s.cmdLast := rfl
@[simp] theorem storeTree_lens : (s.storeTree t).lens = s.lens := rfl
@[simp] theorem storeTree_errInfo : (s.storeTree t).errInfo = s.errInfo := rfl
@[simp] theorem storeTree_tree : (s.storeTree t).tree = some t := rfl
@[simp] theorem storeTree_code : (s.storeTree t).code = none := rfl
@[simp] theorem storeTree_inflight : (s.storeTree t).inflight = s.inflight := rfl
@[simp] theorem storeTree_env : (s.storeTree t).env = s.env := rfl

end StoreTree

section StoreCode
variable (c : CodeTable) (s : State)

@[simp] theorem storeCode_cfg : (s.storeCode c).cfg = s.cfg := rfl
@[simp] theorem storeCode_mem : (s.storeCode c).mem = s.mem := rfl
@[simp] theorem storeCode_ie : (s.storeCode c).ie = s.ie := rfl
@[simp] theorem storeCode_status : (s.storeCode c).status = s.status := rfl
@[simp] theorem storeCode_cmdLast : (s.storeCode c).cmdLast = s.cmdLast := rfl
@[simp] theorem storeCode_lens : (s.storeCode c).lens = s.lens := rfl
@[simp] theorem storeCode_errInfo : (s.storeCode c).errInfo = s.errInfo := rfl
@[simp] theorem storeCode_tree : (s.storeCode c).tree = s.tree := rfl
@[simp] theorem storeCode_code : (s.storeCode c).code = some c := rfl
@[simp] theorem storeCode_inflight : (s.storeCode c).inflight = s.inflight := rfl
@[simp] theorem storeCode_env : (s.storeCode c).env = s.env := rfl

end StoreCode

section Accept
variable (w : Word) (s : State)

@[simp] theorem accept_cfg : (s.accept w).cfg = s.cfg := rfl
@[simp] theorem accept_mem : (s.accept w).mem = s.mem := rfl
@[simp] theorem accept_ie : (s.accept w).ie = s.ie := rfl
@[simp] theorem accept_status : (s.accept w).status = { s.status with busy := true, done := false, err := .ok } := rfl
@[simp] theorem accept_cmdLast : (s.accept w).cmdLast = w := rfl
@[simp] theorem accept_lens : (s.accept w).lens = s.lens := rfl
@[simp] theorem accept_errInfo : (s.accept w).errInfo = s.errInfo := rfl
@[simp] theorem accept_tree : (s.accept w).tree = s.tree := rfl
@[simp] theorem accept_code : (s.accept w).code = s.code := rfl
@[simp] theorem accept_inflight : (s.accept w).inflight = some w := rfl
@[simp] theorem accept_env : (s.accept w).env = s.env := rfl

end Accept

section Complete
variable (e : ResultCode) (info : Nat) (s : State)

@[simp] theorem complete_cfg : (s.complete e info).cfg = s.cfg := rfl
@[simp] theorem complete_mem : (s.complete e info).mem = s.mem := rfl
@[simp] theorem complete_ie : (s.complete e info).ie = s.ie := rfl
@[simp] theorem complete_status : (s.complete e info).status = { s.status with busy := false, done := true, err := e } := rfl
@[simp] theorem complete_cmdLast : (s.complete e info).cmdLast = s.cmdLast := rfl
@[simp] theorem complete_lens : (s.complete e info).lens = s.lens := rfl
@[simp] theorem complete_errInfo : (s.complete e info).errInfo = if e = .ok then 0 else BitVec.ofNat 32 info := rfl
@[simp] theorem complete_tree : (s.complete e info).tree = s.tree := rfl
@[simp] theorem complete_code : (s.complete e info).code = s.code := rfl
@[simp] theorem complete_inflight : (s.complete e info).inflight = none := rfl
@[simp] theorem complete_env : (s.complete e info).env = s.env := rfl

end Complete

section HardReset
variable (s : State)

@[simp] theorem hardReset_cfg : s.hardReset.cfg = s.cfg := rfl
@[simp] theorem hardReset_mem : s.hardReset.mem = {} := rfl
@[simp] theorem hardReset_ie : s.hardReset.ie = false := rfl
@[simp] theorem hardReset_status : s.hardReset.status = {} := rfl
@[simp] theorem hardReset_cmdLast : s.hardReset.cmdLast = 0 := rfl
@[simp] theorem hardReset_lens : s.hardReset.lens = {} := rfl
@[simp] theorem hardReset_errInfo : s.hardReset.errInfo = 0 := rfl
@[simp] theorem hardReset_tree : s.hardReset.tree = none := rfl
@[simp] theorem hardReset_code : s.hardReset.code = none := rfl
@[simp] theorem hardReset_inflight : s.hardReset.inflight = none := rfl
@[simp] theorem hardReset_env : s.hardReset.env = s.env := rfl

end HardReset

section DropWrite
variable (s : State)

@[simp] theorem dropWrite_cfg : (dropWrite s).cfg = s.cfg := rfl
@[simp] theorem dropWrite_mem : (dropWrite s).mem = s.mem := rfl
@[simp] theorem dropWrite_ie : (dropWrite s).ie = s.ie := rfl
@[simp] theorem dropWrite_status : (dropWrite s).status = { s.status with werr := true } := rfl
@[simp] theorem dropWrite_cmdLast : (dropWrite s).cmdLast = s.cmdLast := rfl
@[simp] theorem dropWrite_lens : (dropWrite s).lens = s.lens := rfl
@[simp] theorem dropWrite_errInfo : (dropWrite s).errInfo = s.errInfo := rfl
@[simp] theorem dropWrite_tree : (dropWrite s).tree = s.tree := rfl
@[simp] theorem dropWrite_code : (dropWrite s).code = s.code := rfl
@[simp] theorem dropWrite_inflight : (dropWrite s).inflight = s.inflight := rfl
@[simp] theorem dropWrite_env : (dropWrite s).env = s.env := rfl

end DropWrite

section Tail
variable (s : State)

@[simp] theorem tail_cfg : s.tail.cfg = s.cfg := rfl
@[simp] theorem tail_mem : s.tail.mem = s.mem := rfl
@[simp] theorem tail_ie : s.tail.ie = s.ie := rfl
@[simp] theorem tail_status : s.tail.status = s.status := rfl
@[simp] theorem tail_cmdLast : s.tail.cmdLast = s.cmdLast := rfl
@[simp] theorem tail_lens : s.tail.lens = s.lens := rfl
@[simp] theorem tail_errInfo : s.tail.errInfo = s.errInfo := rfl
@[simp] theorem tail_tree : s.tail.tree = s.tree := rfl
@[simp] theorem tail_code : s.tail.code = s.code := rfl
@[simp] theorem tail_inflight : s.tail.inflight = s.inflight := rfl
@[simp] theorem tail_env : s.tail.env = { s.env with turns := s.env.turns.tail } := rfl

end Tail

section Push
variable (op : HostOp) (s : State)

@[simp] theorem push_cfg : (s.push op).cfg = s.cfg := rfl
@[simp] theorem push_mem : (s.push op).mem = s.mem := rfl
@[simp] theorem push_ie : (s.push op).ie = s.ie := rfl
@[simp] theorem push_status : (s.push op).status = s.status := rfl
@[simp] theorem push_cmdLast : (s.push op).cmdLast = s.cmdLast := rfl
@[simp] theorem push_lens : (s.push op).lens = s.lens := rfl
@[simp] theorem push_errInfo : (s.push op).errInfo = s.errInfo := rfl
@[simp] theorem push_tree : (s.push op).tree = s.tree := rfl
@[simp] theorem push_code : (s.push op).code = s.code := rfl
@[simp] theorem push_inflight : (s.push op).inflight = s.inflight := rfl
@[simp] theorem push_env : (s.push op).env = { s.env with pending := op :: s.env.pending } := rfl

end Push

section FailProgram
variable (s : State)

@[simp] theorem failProgram_cfg : s.failProgram.cfg = s.cfg := rfl
@[simp] theorem failProgram_mem : s.failProgram.mem = s.mem := rfl
@[simp] theorem failProgram_ie : s.failProgram.ie = s.ie := rfl
@[simp] theorem failProgram_status : s.failProgram.status = s.status := rfl
@[simp] theorem failProgram_cmdLast : s.failProgram.cmdLast = s.cmdLast := rfl
@[simp] theorem failProgram_lens : s.failProgram.lens = s.lens := rfl
@[simp] theorem failProgram_errInfo : s.failProgram.errInfo = s.errInfo := rfl
@[simp] theorem failProgram_tree : s.failProgram.tree = s.tree := rfl
@[simp] theorem failProgram_code : s.failProgram.code = s.code := rfl
@[simp] theorem failProgram_inflight : s.failProgram.inflight = s.inflight := rfl
@[simp] theorem failProgram_env : s.failProgram.env = { s.env with failed := true, pending := [] } := rfl

end FailProgram

section Note
variable (r : BusResponse × State)

@[simp] theorem note_cfg : (note r).cfg = r.2.cfg := rfl
@[simp] theorem note_mem : (note r).mem = r.2.mem := rfl
@[simp] theorem note_ie : (note r).ie = r.2.ie := rfl
@[simp] theorem note_status : (note r).status = r.2.status := rfl
@[simp] theorem note_cmdLast : (note r).cmdLast = r.2.cmdLast := rfl
@[simp] theorem note_lens : (note r).lens = r.2.lens := rfl
@[simp] theorem note_errInfo : (note r).errInfo = r.2.errInfo := rfl
@[simp] theorem note_tree : (note r).tree = r.2.tree := rfl
@[simp] theorem note_code : (note r).code = r.2.code := rfl
@[simp] theorem note_inflight : (note r).inflight = r.2.inflight := rfl
@[simp] theorem note_env : (note r).env = { r.2.env with responses := r.1 :: r.2.env.responses } := rfl

end Note

section WriteStatus
variable (v : Word) (s : State)

@[simp] theorem writeStatus_cfg : (writeStatus v s).cfg = s.cfg := rfl
@[simp] theorem writeStatus_mem : (writeStatus v s).mem = s.mem := rfl
@[simp] theorem writeStatus_ie : (writeStatus v s).ie = s.ie := rfl
@[simp] theorem writeStatus_status : (writeStatus v s).status = { s.status with done := s.status.done && !v.getLsbD 1, werr := s.status.werr && !v.getLsbD 16 } := rfl
@[simp] theorem writeStatus_cmdLast : (writeStatus v s).cmdLast = s.cmdLast := rfl
@[simp] theorem writeStatus_lens : (writeStatus v s).lens = s.lens := rfl
@[simp] theorem writeStatus_errInfo : (writeStatus v s).errInfo = s.errInfo := rfl
@[simp] theorem writeStatus_tree : (writeStatus v s).tree = s.tree := rfl
@[simp] theorem writeStatus_code : (writeStatus v s).code = s.code := rfl
@[simp] theorem writeStatus_inflight : (writeStatus v s).inflight = s.inflight := rfl
@[simp] theorem writeStatus_env : (writeStatus v s).env = s.env := rfl

end WriteStatus

section VoidDest
variable (d : Dest) (s : State)

@[simp] theorem voidDest_cfg : (s.voidDest d).cfg = s.cfg := by cases d <;> rfl
@[simp] theorem voidDest_ie : (s.voidDest d).ie = s.ie := by cases d <;> rfl
@[simp] theorem voidDest_status : (s.voidDest d).status = s.status := by cases d <;> rfl
@[simp] theorem voidDest_cmdLast : (s.voidDest d).cmdLast = s.cmdLast := by cases d <;> rfl
@[simp] theorem voidDest_errInfo : (s.voidDest d).errInfo = s.errInfo := by cases d <;> rfl
@[simp] theorem voidDest_inflight : (s.voidDest d).inflight = s.inflight := by cases d <;> rfl
@[simp] theorem voidDest_env : (s.voidDest d).env = s.env := by cases d <;> rfl

end VoidDest

section WriteRegion
variable (v : Word) (s : State)

@[simp] theorem writeRegion_sym_mem (b : SymBuf) (i : Nat) :
    (writeRegion (.sym b i) v s).mem = s.mem.setSym b ((s.mem.sym b).set i v) := rfl

@[simp] theorem writeRegion_bits_mem (w : Nat) :
    (writeRegion (.bits w) v s).mem = { s.mem with bits := s.mem.bits.setMany (32 * w) (bitsOfWord v) } := rfl

@[simp] theorem writeRegion_bytes_mem (w : Nat) :
    (writeRegion (.bytes w) v s).mem = { s.mem with bytes := s.mem.bytes.setMany (4 * w) (lanesOfWord s.cfg w v) } := rfl

@[simp] theorem writeRegion_tserTag_mem (i : Nat) :
    (writeRegion (.tserTag i) v s).mem = { s.mem with tserTag := s.mem.tserTag.set i v } := rfl

@[simp] theorem writeRegion_tserSym_mem (i : Nat) :
    (writeRegion (.tserSym i) v s).mem = { s.mem with tserSym := s.mem.tserSym.set i v } := rfl

@[simp] theorem writeRegion_cfg (r : Region) : (writeRegion r v s).cfg = s.cfg := by
  cases r with
  | csr r =>
    cases r
    case ctrl =>
      simp only [writeRegion, writeCsr, writeCtrl]
      split <;> rfl
    all_goals rfl
  | _ => simp only [writeRegion]

@[simp] theorem writeRegion_env (r : Region) : (writeRegion r v s).env = s.env := by
  cases r with
  | csr r =>
    cases r
    case ctrl =>
      simp only [writeRegion, writeCsr, writeCtrl]
      split <;> rfl
    all_goals rfl
  | _ => simp only [writeRegion]

end WriteRegion

/-! ### Selecting a symbol buffer -/

@[simp] theorem sym_setSym_same (m : Memory) (b : SymBuf) (st : Store Symbol) : (m.setSym b st).sym b = st := by cases b <;> rfl

theorem sym_setSym_other (m : Memory) (b d : SymBuf) (st : Store Symbol) (h : b ≠ d) : (m.setSym d st).sym b = m.sym b := by
  cases b <;> cases d <;> first | rfl | exact absurd rfl h

@[simp] theorem setSym_bits (m : Memory) (b : SymBuf) (st : Store Symbol) : (m.setSym b st).bits = m.bits := by cases b <;> rfl

@[simp] theorem setSym_bytes (m : Memory) (b : SymBuf) (st : Store Symbol) : (m.setSym b st).bytes = m.bytes := by cases b <;> rfl

@[simp] theorem setSym_tserTag (m : Memory) (b : SymBuf) (st : Store Symbol) : (m.setSym b st).tserTag = m.tserTag := by
  cases b <;> rfl

@[simp] theorem setSym_tserSym (m : Memory) (b : SymBuf) (st : Store Symbol) : (m.setSym b st).tserSym = m.tserSym := by
  cases b <;> rfl

@[simp] theorem lens_sym_setSym_same (l : Lengths) (b : SymBuf) (v : Word) : (l.setSym b v).sym b = v := by cases b <;> rfl

theorem lens_sym_setSym_other (l : Lengths) (b d : SymBuf) (v : Word) (h : b ≠ d) : (l.setSym d v).sym b = l.sym b := by
  cases b <;> cases d <;> first | rfl | exact absurd rfl h

@[simp] theorem lens_setSym_bits (l : Lengths) (b : SymBuf) (v : Word) : (l.setSym b v).bits = l.bits := by cases b <;> rfl

@[simp] theorem lens_setSym_bytes (l : Lengths) (b : SymBuf) (v : Word) : (l.setSym b v).bytes = l.bytes := by cases b <;> rfl

@[simp] theorem lens_setSym_tser (l : Lengths) (b : SymBuf) (v : Word) : (l.setSym b v).tser = l.tser := by cases b <;> rfl

/-- The drawing of a free value changes the draw counter alone. -/
theorem draw_state (known mask : Word) (s : State) :
    (s.draw known mask).2 = { s with env := { s.env with draws := (s.draw known mask).2.env.draws } } := by
  unfold State.draw
  split <;> rfl

@[simp] theorem draw_exact (known : Word) (s : State) : s.draw known 0#32 = (known, s) := by simp [State.draw]

end Sys2Proof.Machine
end

