-- ==== Sys2Proof/Laws/Store.lean ====
section
/-! SUPPORT. Reading after writing, and the canonical form, for the buffers. -/

namespace Sys2Proof.Machine

namespace Store

variable {α : Type}

@[simp] theorem get?_nil (i : Nat) : get? ([] : Store α) i = none := rfl

theorem get?_set (m : Store α) (i j : Nat) (a : α) : (m.set i a).get? j = if j = i then some a else m.get? j := by
  induction m with
  | nil => simp [set, get?, eq_comm]
  | cons c rest ih =>
    obtain ⟨k, b⟩ := c
    simp only [set]
    split
    · simp only [get?]
      grind
    · split
      · simp only [get?]
        grind
      · simp only [get?, ih]
        grind

theorem get?_setMany (l : List α) (m : Store α) (i j : Nat) :
    (m.setMany i l).get? j = if i ≤ j ∧ j < i + l.length then l[j - i]? else m.get? j := by
  induction l generalizing m i with
  | nil => simp [setMany]
  | cons a rest ih =>
    simp only [setMany, ih, get?_set, List.length_cons]
    by_cases hj : j = i
    · subst hj; simp
    · by_cases h1 : i + 1 ≤ j ∧ j < i + 1 + rest.length
      · have : j - i = (j - (i + 1)) + 1 := by omega
        rw [if_pos h1, if_pos (by omega), this, List.getElem?_cons_succ]
      · rw [if_neg h1, if_neg hj, if_neg (by omega)]

theorem get?_number (l : List α) (i j : Nat) : get? (number i l) j = if i ≤ j then l[j - i]? else none := by
  induction l generalizing i with
  | nil => simp [number]
  | cons a rest ih =>
    simp only [number, get?, ih]
    by_cases h : i = j
    · subst h; simp
    · by_cases h1 : i + 1 ≤ j
      · have : j - i = (j - (i + 1)) + 1 := by omega
        rw [if_neg h, if_pos h1, if_pos (by omega), this, List.getElem?_cons_succ]
      · rw [if_neg h, if_neg h1, if_neg (by omega)]

theorem get?_append (m n : Store α) (i : Nat) : get? (m ++ n) i = (get? m i).or (get? n i) := by
  induction m with
  | nil => simp
  | cons c rest ih =>
    obtain ⟨k, b⟩ := c
    simp only [List.cons_append, get?, ih]
    split <;> simp

theorem get?_filter_ge (m : Store α) (n i : Nat) (h : n ≤ i) :
    get? (m.filter (fun c => decide (n ≤ c.1))) i = m.get? i := by
  induction m with
  | nil => rfl
  | cons c rest ih =>
    obtain ⟨k, b⟩ := c
    by_cases hk : n ≤ k
    · simp [hk, get?, ih]
    · have : k ≠ i := by omega
      simp [hk, get?, ih, this]

/-- Reading after a whole-sequence write: the entries below its length are the sequence, the others as before (R112, U3). -/
theorem get?_overwrite (m : Store α) (out : List α) (i : Nat) :
    (m.overwrite out).get? i = if i < out.length then out[i]? else m.get? i := by
  simp only [overwrite, get?_append, get?_number, Nat.zero_le, if_true, Nat.sub_zero]
  split
  · rename_i h
    simp [List.getElem?_eq_getElem h]
  · rename_i h
    rw [List.getElem?_eq_none (by omega), Option.none_or, get?_filter_ge _ _ _ (by omega)]

theorem wfFrom_mono (cap lo lo' : Nat) (m : Store α) (h : lo' ≤ lo) (hm : wfFrom cap lo m = true) :
    wfFrom cap lo' m = true := by
  cases m with
  | nil => rfl
  | cons c rest => simp [wfFrom] at hm ⊢; exact ⟨⟨by omega, hm.1.2⟩, hm.2⟩

theorem wfFrom_set (cap lo i : Nat) (a : α) (m : Store α) (hlo : lo ≤ i) (hi : i < cap) (hm : wfFrom cap lo m = true) :
    wfFrom cap lo (m.set i a) = true := by
  induction m generalizing lo with
  | nil => simp [set, wfFrom, hlo, hi]
  | cons c rest ih =>
    obtain ⟨k, b⟩ := c
    simp only [wfFrom, Bool.and_eq_true, decide_eq_true_eq] at hm
    simp only [set]
    split
    · simp only [wfFrom, Bool.and_eq_true, decide_eq_true_eq]
      exact ⟨⟨hlo, hi⟩, ⟨by omega, hm.1.2⟩, hm.2⟩
    · split
      · simp only [wfFrom, Bool.and_eq_true, decide_eq_true_eq]
        exact ⟨⟨hlo, hi⟩, by subst i; exact hm.2⟩
      · simp only [wfFrom, Bool.and_eq_true, decide_eq_true_eq]
        exact ⟨hm.1, ih (k + 1) (by omega) hm.2⟩

/-- Writing an entry below the capacity keeps the canonical form. -/
theorem wf_set (cap i : Nat) (a : α) (m : Store α) (hi : i < cap) (hm : wf cap m = true) : wf cap (m.set i a) = true :=
  wfFrom_set cap 0 i a m (Nat.zero_le i) hi hm

/-- Writing consecutive entries below the capacity keeps the canonical form. -/
theorem wf_setMany (cap i : Nat) (l : List α) (m : Store α) (hi : i + l.length ≤ cap) (hm : wf cap m = true) :
    wf cap (m.setMany i l) = true := by
  induction l generalizing m i with
  | nil => exact hm
  | cons a rest ih =>
    simp only [List.length_cons] at hi
    exact ih (i + 1) (m.set i a) (by omega) (wf_set cap i a m (by omega) hm)

theorem wfFrom_filter (cap n lo : Nat) (m : Store α) (h : lo ≤ n) (hm : wfFrom cap lo m = true) :
    wfFrom cap n (m.filter (fun c => decide (n ≤ c.1))) = true := by
  induction m generalizing lo with
  | nil => rfl
  | cons c rest ih =>
    obtain ⟨k, b⟩ := c
    simp only [wfFrom, Bool.and_eq_true, decide_eq_true_eq] at hm
    by_cases hk : n ≤ k
    · have hrest : rest.filter (fun c => decide (n ≤ c.1)) = rest := by
        apply List.filter_eq_self.mpr
        have : ∀ (r : Store α) (l : Nat), k < l → wfFrom cap l r = true → ∀ c ∈ r, decide (n ≤ c.1) = true := by
          intro r
          induction r with
          | nil => intro _ _ _ c hc; cases hc
          | cons d ds ihd =>
            intro l hl hw c hc
            simp only [wfFrom, Bool.and_eq_true, decide_eq_true_eq] at hw
            rcases List.mem_cons.mp hc with rfl | hc
            · simp; omega
            · exact ihd (d.1 + 1) (by omega) hw.2 c hc
        exact this rest (k + 1) (by omega) hm.2
      simp only [List.filter_cons, hk, decide_true, if_true, hrest, wfFrom, Bool.and_eq_true, decide_eq_true_eq]
      exact ⟨⟨trivial, hm.1.2⟩, hm.2⟩
    · simp only [List.filter_cons, hk, decide_false]
      exact ih (k + 1) (by omega) hm.2

theorem wfFrom_number_append (cap lo : Nat) (out : List α) (m : Store α) (hcap : lo + out.length ≤ cap)
    (hm : wfFrom cap (lo + out.length) m = true) : wfFrom cap lo (number lo out ++ m) = true := by
  induction out generalizing lo with
  | nil => simpa [number] using hm
  | cons a rest ih =>
    simp only [List.length_cons] at hcap hm
    simp only [number, List.cons_append, wfFrom, Bool.and_eq_true, decide_eq_true_eq]
    exact ⟨⟨Nat.le_refl lo, by omega⟩, ih (lo + 1) (by omega) (by rwa [Nat.add_assoc, Nat.add_comm 1])⟩

/-- A whole-sequence write within the capacity keeps the canonical form. -/
theorem wf_overwrite (cap : Nat) (out : List α) (m : Store α) (hcap : out.length ≤ cap) (hm : wf cap m = true) :
    wf cap (m.overwrite out) = true := by
  refine wfFrom_number_append cap 0 out _ (by omega) ?_
  rw [Nat.zero_add]
  exact wfFrom_filter cap out.length 0 m (Nat.zero_le _) hm

@[simp] theorem wf_nil (cap : Nat) : wf cap ([] : Store α) = true := rfl

end Store

end Sys2Proof.Machine
end

