-- ==== Sys2Proof/Laws/Eval.lean ====
section
/-! SUPPORT. What evaluating a command's rule can give, and what a command's end can do: one inversion lemma a shared operation. -/

namespace Sys2Proof.Machine

variable {α β : Type}

@[simp] theorem bind_value (a : α) (f : α → Eval β) : (Eval.value a).bind f = f a := rfl

@[simp] theorem bind_raise (e : ResultCode) (info : Nat) (f : α → Eval β) : (Eval.raise e info).bind f = .raise e info := rfl

@[simp] theorem bind_stop (r : Fault) (f : α → Eval β) : (Eval.stop r).bind f = .stop r := rfl

theorem bind_eq_value {x : Eval α} {f : α → Eval β} {b : β} (h : x.bind f = .value b) : ∃ a, x = .value a ∧ f a = .value b := by
  cases x with
  | value a => exact ⟨a, rfl, h⟩
  | raise e info => cases h
  | stop r => cases h

theorem bind_eq_raise {x : Eval α} {f : α → Eval β} {e : ResultCode} {info : Nat} (h : x.bind f = .raise e info) :
    x = .raise e info ∨ ∃ a, x = .value a ∧ f a = .raise e info := by
  cases x with
  | value a => exact .inr ⟨a, rfl, h⟩
  | raise e' info' => exact .inl (by simpa using h)
  | stop r => cases h

theorem bind_eq_stop {x : Eval α} {f : α → Eval β} {r : Fault} (h : x.bind f = .stop r) :
    x = .stop r ∨ ∃ a, x = .value a ∧ f a = .stop r := by
  cases x with
  | value a => exact .inr ⟨a, rfl, h⟩
  | raise e' info' => cases h
  | stop r' => exact .inl (by simpa using h)

theorem checkSource_le {len cap : Nat} (rest : Eval α) (h : len ≤ cap) : checkSource len cap rest = rest := by
  simp [checkSource, Nat.not_lt.mpr h]

theorem checkSource_gt {len cap : Nat} (rest : Eval α) (h : cap < len) :
    checkSource len cap rest = .raise .capacityExceeded 0 := by simp [checkSource, h]

theorem checkOutput_le {len cap : Nat} (rest : Eval α) (h : len ≤ cap) : checkOutput len cap rest = rest := by
  simp [checkOutput, Nat.not_lt.mpr h]

theorem checkOutput_gt {len cap : Nat} (rest : Eval α) (h : cap < len) :
    checkOutput len cap rest = .raise .capacityExceeded 0 := by simp [checkOutput, h]

theorem readEntry_eq_value {buf : Buffer} {m : Store α} {i : Nat} {a : α} :
    readEntry buf m i = .value a ↔ m.get? i = some a := by
  unfold readEntry
  cases m.get? i <;> simp

theorem readEntry_ne_raise (buf : Buffer) (m : Store α) (i : Nat) (e : ResultCode) (info : Nat) :
    readEntry buf m i ≠ .raise e info := by
  unfold readEntry
  cases m.get? i <;> simp

theorem readEntry_eq_stop {buf : Buffer} {m : Store α} {i : Nat} {r : Fault} (h : readEntry buf m i = .stop r) :
    r = .unwrittenEntry buf i ∧ m.get? i = none := by
  unfold readEntry at h
  cases hm : m.get? i with
  | some a => simp [hm] at h
  | none => simp [hm] at h; exact ⟨h.symm, rfl⟩

/-- Reading a source gives a sequence exactly when every one of its entries has been written, and then those entries. -/
theorem readFrom_eq_value {buf : Buffer} {m : Store α} {i n : Nat} {l : List α} :
    readFrom buf m i n = .value l ↔ l.length = n ∧ ∀ k, k < n → m.get? (i + k) = l[k]? := by
  induction n generalizing i l with
  | zero =>
    simp only [readFrom, Eval.value.injEq]
    constructor
    · rintro rfl; simp
    · rintro ⟨h, -⟩; exact (List.length_eq_zero_iff.mp h).symm
  | succ n ih =>
    simp only [readFrom]
    constructor
    · intro h
      obtain ⟨a, ha, h⟩ := bind_eq_value h
      obtain ⟨as, has, h⟩ := bind_eq_value h
      cases h
      obtain ⟨hlen, hget⟩ := ih.mp has
      refine ⟨by simp [hlen], fun k hk => ?_⟩
      cases k with
      | zero => simpa using readEntry_eq_value.mp ha
      | succ k =>
        have := hget k (by omega)
        rw [List.getElem?_cons_succ, ← this]
        congr 1; omega
    · rintro ⟨hlen, hget⟩
      cases l with
      | nil => simp at hlen
      | cons a as =>
        have h0 : readEntry buf m i = .value a := readEntry_eq_value.mpr (by simpa using hget 0 (by omega))
        have hr : readFrom buf m (i + 1) n = .value as := by
          refine ih.mpr ⟨by simpa using hlen, fun k hk => ?_⟩
          have := hget (k + 1) (by omega)
          rw [List.getElem?_cons_succ] at this
          rw [← this]
          congr 1; omega
        simp [h0, hr]

theorem readFrom_ne_raise (buf : Buffer) (m : Store α) (i n : Nat) (e : ResultCode) (info : Nat) :
    readFrom buf m i n ≠ .raise e info := by
  induction n generalizing i with
  | zero => simp [readFrom]
  | succ n ih =>
    intro h
    simp only [readFrom] at h
    rcases bind_eq_raise h with h | ⟨a, -, h⟩
    · exact readEntry_ne_raise _ _ _ _ _ h
    · rcases bind_eq_raise h with h | ⟨as, -, h⟩
      · exact ih _ h
      · cases h

/-- Reading a source stops only at an entry of it that has not been written. -/
theorem readFrom_eq_stop {buf : Buffer} {m : Store α} {i n : Nat} {r : Fault} (h : readFrom buf m i n = .stop r) :
    ∃ k, k < n ∧ r = .unwrittenEntry buf (i + k) ∧ m.get? (i + k) = none := by
  induction n generalizing i with
  | zero => simp [readFrom] at h
  | succ n ih =>
    simp only [readFrom] at h
    rcases bind_eq_stop h with h | ⟨a, -, h⟩
    · obtain ⟨hr, hg⟩ := readEntry_eq_stop h
      exact ⟨0, by omega, by simpa using hr, by simpa using hg⟩
    · rcases bind_eq_stop h with h | ⟨as, -, h⟩
      · obtain ⟨k, hk, hr, hg⟩ := ih h
        have he : i + (k + 1) = i + 1 + k := by omega
        exact ⟨k + 1, by omega, by rw [he]; exact hr, by rw [he]; exact hg⟩
      · cases h

/-- What `HoldsSyms` says is what reading the source gives. -/
theorem symseq_eq_value {s : State} {b : SymBuf} {xs : List Symbol} : s.symseq b = .value xs ↔ s.HoldsSyms b xs := by
  unfold State.symseq State.HoldsSyms
  rw [readFrom_eq_value]
  constructor
  · rintro ⟨hl, hg⟩; exact ⟨hl.symm, fun i hi => by simpa using hg i (by omega)⟩
  · rintro ⟨hl, hg⟩; exact ⟨hl.symm, fun i hi => by simpa using hg i (by omega)⟩

/-- What `HoldsBits` says is what reading the source gives. -/
theorem bitseq_eq_value {s : State} {xs : BitString} : s.bitseq = .value xs ↔ s.HoldsBits xs := by
  unfold State.bitseq State.HoldsBits
  rw [readFrom_eq_value]
  constructor
  · rintro ⟨hl, hg⟩; exact ⟨hl.symm, fun i hi => by simpa using hg i (by omega)⟩
  · rintro ⟨hl, hg⟩; exact ⟨hl.symm, fun i hi => by simpa using hg i (by omega)⟩

/-- A command's end answers a next state in two ways only: its results and `OK`, or the error effects and the error. -/
theorem finish_eq_next {d : Dest} {store : α → State → State} {r : Eval α} {s t : State} (h : finish d store r s = .next t) :
    (∃ a, r = .value a ∧ t = (store a s).complete .ok 0) ∨
      ∃ e info, r = .raise e info ∧ t = s.completeWithError d e info := by
  cases r with
  | value a => exact .inl ⟨a, rfl, by simpa [finish] using h.symm⟩
  | raise e info => exact .inr ⟨e, info, rfl, by simpa [finish] using h.symm⟩
  | stop f => cases h

/-- A command's end faults only where evaluating its rule stops. -/
theorem finish_eq_fault {d : Dest} {store : α → State → State} {r : Eval α} {s : State} {f : Fault}
    (h : finish d store r s = .fault f) : r = .stop f := by
  cases r with
  | value a => cases h
  | raise e info => cases h
  | stop f' => simpa [finish] using h

/-- A command's end never refuses. -/
theorem finish_ne_refused (d : Dest) (store : α → State → State) (r : Eval α) (s : State) (q : Refusal) :
    finish d store r s ≠ .refused q := by
  cases r <;> simp [finish]

end Sys2Proof.Machine
end

