-- ==== Sys2Proof/Laws/Ops.lean ====
section
/-! SUPPORT. The memory operations keep the canonical form; what each meaning can do, said once; what acceptance and reset leave. -/

namespace Sys2Proof.Machine

/-! ### Sizes -/

theorem ceilDiv_le {n d m : Nat} (hd : 0 < d) (h : n ≤ d * m) : ceilDiv n d ≤ m := by
  unfold ceilDiv
  rw [Nat.div_le_iff_le_mul_add_pred hd]
  have := Nat.mul_comm d m
  omega

theorem le_mul_ceilDiv (n : Nat) {d : Nat} (hd : 0 < d) : n ≤ d * ceilDiv n d := by
  unfold ceilDiv
  have := Nat.div_add_mod (n + d - 1) d
  have := Nat.mod_lt (n + d - 1) hd
  omega

theorem fillBits_length (out : BitString) : (fillBits out).length = 32 * ceilDiv out.length 32 := by
  have := le_mul_ceilDiv out.length (d := 32) (by decide)
  simp [fillBits]; omega

/-- The window-word fill of a bit string within the capacity stays within it, the capacity being whole words (R7, R112). -/
theorem fillBits_length_le {out : BitString} {cap : Nat} (hcap : cap % 32 = 0) (h : out.length ≤ cap) :
    (fillBits out).length ≤ cap := by
  rw [fillBits_length]
  have := ceilDiv_le (n := out.length) (d := 32) (m := cap / 32) (by decide) (by omega)
  omega

theorem fillBytes_length_le {c : Config} {out : List Byte} (h : out.length ≤ c.maxBytes) :
    (fillBytes c out).length ≤ c.maxBytes := by
  simp [fillBytes]; omega

theorem bitsOfNat_length (width n : Nat) : (bitsOfNat width n).length = width := by
  induction width with
  | zero => rfl
  | succ width ih => simp [bitsOfNat, ih]

@[simp] theorem bitsOfWord_length (w : Word) : (bitsOfWord w).length = 32 := bitsOfNat_length 32 w.toNat

@[simp] theorem bitsOfByte_length (b : Byte) : (bitsOfByte b).length = 8 := bitsOfNat_length 8 b.toNat

theorem lanesOfWord_length_le (c : Config) (w : Nat) (v : Word) : (lanesOfWord c w v).length ≤ c.maxBytes - 4 * w := by
  simp [lanesOfWord]

/-! ### The canonical form (one lemma a memory operation) -/

theorem wf_iff {c : Config} {m : Memory} : m.wf c = true ↔
    (∀ b, (m.sym b).wf c.maxSyms = true) ∧ m.bits.wf c.maxBits = true ∧ m.bytes.wf c.maxBytes = true ∧
      m.tserTag.wf c.maxTser = true ∧ m.tserSym.wf c.maxTser = true := by
  simp only [Memory.wf, Bool.and_eq_true]
  constructor
  · rintro ⟨⟨⟨⟨⟨h0, h1⟩, h2⟩, h3⟩, h4⟩, h5⟩
    exact ⟨fun b => by cases b <;> assumption, h2, h3, h4, h5⟩
  · rintro ⟨h, h2, h3, h4, h5⟩
    exact ⟨⟨⟨⟨⟨h .sym0, h .sym1⟩, h2⟩, h3⟩, h4⟩, h5⟩

theorem reset_mem_wf : State.reset.mem.wf State.reset.cfg = true := by decide

theorem empty_wf (c : Config) : ({} : Memory).wf c = true := rfl

theorem setSym_wf {c : Config} {m : Memory} (b : SymBuf) {st : Store Symbol} (hst : st.wf c.maxSyms = true)
    (h : m.wf c = true) : (m.setSym b st).wf c = true := by
  rw [wf_iff] at h ⊢
  refine ⟨fun b' => ?_, by simpa using h.2⟩
  by_cases hb : b' = b
  · subst hb; simpa using hst
  · rw [sym_setSym_other _ _ _ _ hb]; exact h.1 b'

theorem withBits_wf {c : Config} {m : Memory} {st : Store Bool} (hst : st.wf c.maxBits = true) (h : m.wf c = true) :
    ({ m with bits := st } : Memory).wf c = true := by
  have h' := wf_iff.mp h
  exact wf_iff.mpr ⟨fun b => by cases b; exacts [h'.1 .sym0, h'.1 .sym1], hst, h'.2.2⟩

theorem withBytes_wf {c : Config} {m : Memory} {st : Store Byte} (hst : st.wf c.maxBytes = true) (h : m.wf c = true) :
    ({ m with bytes := st } : Memory).wf c = true := by
  have h' := wf_iff.mp h
  exact wf_iff.mpr ⟨fun b => by cases b; exacts [h'.1 .sym0, h'.1 .sym1], h'.2.1, hst, h'.2.2.2⟩

theorem withTserTag_wf {c : Config} {m : Memory} {st : Store Word} (hst : st.wf c.maxTser = true) (h : m.wf c = true) :
    ({ m with tserTag := st } : Memory).wf c = true := by
  have h' := wf_iff.mp h
  exact wf_iff.mpr ⟨fun b => by cases b; exacts [h'.1 .sym0, h'.1 .sym1], h'.2.1, h'.2.2.1, hst, h'.2.2.2.2⟩

theorem withTserSym_wf {c : Config} {m : Memory} {st : Store Word} (hst : st.wf c.maxTser = true) (h : m.wf c = true) :
    ({ m with tserSym := st } : Memory).wf c = true := by
  have h' := wf_iff.mp h
  exact wf_iff.mpr ⟨fun b => by cases b; exacts [h'.1 .sym0, h'.1 .sym1], h'.2.1, h'.2.2.1, h'.2.2.2.1, hst⟩

theorem storeSyms_wf {s : State} (b : SymBuf) {out : List Symbol} (hout : out.length ≤ s.cfg.maxSyms)
    (h : s.mem.wf s.cfg = true) : (s.storeSyms b out).mem.wf (s.storeSyms b out).cfg = true := by
  rw [storeSyms_mem, storeSyms_cfg]
  exact setSym_wf b (Store.wf_overwrite _ _ _ hout ((wf_iff.mp h).1 b)) h

theorem storeBits_wf {s : State} {out : BitString} (hcap : s.cfg.maxBits % 32 = 0) (hout : out.length ≤ s.cfg.maxBits)
    (h : s.mem.wf s.cfg = true) : (s.storeBits out).mem.wf (s.storeBits out).cfg = true := by
  rw [storeBits_mem, storeBits_cfg]
  exact withBits_wf (Store.wf_overwrite _ _ _ (fillBits_length_le hcap hout) (wf_iff.mp h).2.1) h

theorem storeBytes_wf {s : State} {out : List Byte} (hout : out.length ≤ s.cfg.maxBytes)
    (h : s.mem.wf s.cfg = true) : (s.storeBytes out).mem.wf (s.storeBytes out).cfg = true := by
  rw [storeBytes_mem, storeBytes_cfg]
  exact withBytes_wf (Store.wf_overwrite _ _ _ (fillBytes_length_le hout) (wf_iff.mp h).2.2.1) h

theorem storeTser_wf {s : State} {out : List (Word × Word)} (hout : out.length ≤ s.cfg.maxTser)
    (h : s.mem.wf s.cfg = true) : (s.storeTser out).mem.wf (s.storeTser out).cfg = true := by
  have h' := wf_iff.mp h
  rw [storeTser_mem, storeTser_cfg]
  exact withTserSym_wf (Store.wf_overwrite _ _ _ (by simpa using hout) h'.2.2.2.2)
    (withTserTag_wf (Store.wf_overwrite _ _ _ (by simpa using hout) h'.2.2.2.1) h)

theorem voidDest_wf {s : State} (d : Dest) (h : s.mem.wf s.cfg = true) :
    (s.voidDest d).mem.wf (s.voidDest d).cfg = true := by
  cases d with
  | sym b => exact setSym_wf b (Store.wf_nil _) h
  | bits => exact withBits_wf (Store.wf_nil _) h
  | bytes => exact withBytes_wf (Store.wf_nil _) h
  | tser => exact withTserSym_wf (Store.wf_nil _) (withTserTag_wf (Store.wf_nil _) h)
  | tree => exact h
  | code => exact h

theorem within_eq_some {i cap : Nat} {r q : Region} (h : within i cap r = some q) : i < cap ∧ q = r := by
  unfold within at h
  split at h
  · exact ⟨‹_›, by simpa using h.symm⟩
  · cases h

/-- A region below its buffer's capacity (R69). -/
def Region.InBounds (c : Config) : Region → Prop
  | .sym _ i => i < c.maxSyms
  | .bits w => w < c.maxBits / 32
  | .bytes w => w < ceilDiv c.maxBytes 4
  | .tserTag i => i < c.maxTser
  | .tserSym i => i < c.maxTser
  | .code i _ => i < c.maxAlpha
  | .csr _ => True
  | .reserved => True

/-- The address map answers only regions below their buffers' capacities. -/
theorem regionOf_inBounds {c : Config} {addr : Word} {r : Region} (h : regionOf c addr = some r) : r.InBounds c := by
  simp only [regionOf] at h
  split at h
  · cases h
  · split at h
    · split at h <;> cases h <;> trivial
    · split at h
      · obtain ⟨hi, rfl⟩ := within_eq_some h; exact hi
      · obtain ⟨hi, rfl⟩ := within_eq_some h; exact hi
      · obtain ⟨hi, rfl⟩ := within_eq_some h; exact hi
      · obtain ⟨hi, rfl⟩ := within_eq_some h; exact hi
      · obtain ⟨hi, hq⟩ := within_eq_some h
        split at hq <;> subst hq <;> exact hi
      · obtain ⟨hi, rfl⟩ := within_eq_some h; exact hi
      · cases h

/-- A register write leaves the buffers alone, or is a reset and empties them. -/
theorem writeCsr_mem (r : Csr) (v : Word) (s : State) :
    ((writeCsr r v s).mem = s.mem ∧ (writeCsr r v s).cfg = s.cfg) ∨
      ((writeCsr r v s).mem = {} ∧ (writeCsr r v s).cfg = s.cfg) := by
  cases r
  case ctrl =>
    simp only [writeCsr, writeCtrl]
    split
    · exact .inr ⟨rfl, rfl⟩
    · exact .inl ⟨rfl, rfl⟩
  all_goals exact .inl ⟨rfl, rfl⟩

/-- A host write to a region of the address map keeps the canonical form. -/
theorem writeRegion_wf {s : State} {addr : Word} {r : Region} (v : Word) (hr : regionOf s.cfg addr = some r)
    (h : s.mem.wf s.cfg = true) : (writeRegion r v s).mem.wf (writeRegion r v s).cfg = true := by
  have h' := wf_iff.mp h
  have hb := regionOf_inBounds hr
  rw [writeRegion_cfg]
  cases r with
  | csr r =>
    rcases writeCsr_mem r v s with ⟨hm, -⟩ | ⟨hm, -⟩
    · show (writeCsr r v s).mem.wf s.cfg = true
      rw [hm]; exact h
    · show (writeCsr r v s).mem.wf s.cfg = true
      rw [hm]; exact empty_wf _
  | reserved => exact h
  | sym b i => rw [writeRegion_sym_mem]; exact setSym_wf b (Store.wf_set _ _ _ _ hb (h'.1 b)) h
  | bits w =>
    have hlen : 32 * w + (bitsOfWord v).length ≤ s.cfg.maxBits := by
      have hb : w < s.cfg.maxBits / 32 := hb
      have := bitsOfWord_length v
      omega
    rw [writeRegion_bits_mem]
    exact withBits_wf (Store.wf_setMany _ _ _ _ hlen h'.2.1) h
  | bytes w =>
    have hlen : 4 * w + (lanesOfWord s.cfg w v).length ≤ s.cfg.maxBytes := by
      have := lanesOfWord_length_le s.cfg w v
      have hb : w < (s.cfg.maxBytes + 4 - 1) / 4 := hb
      omega
    rw [writeRegion_bytes_mem]
    exact withBytes_wf (Store.wf_setMany _ _ _ _ hlen h'.2.2.1) h
  | tserTag i => rw [writeRegion_tserTag_mem]; exact withTserTag_wf (Store.wf_set _ _ _ _ hb h'.2.2.2.1) h
  | tserSym i => rw [writeRegion_tserSym_mem]; exact withTserSym_wf (Store.wf_set _ _ _ _ hb h'.2.2.2.2) h
  | code i f => exact h

/-! ### What each command can do -/

/-- What evaluating a well-formed command's rule gives, its results left out. -/
inductive Ending where
  | ok (after : State)
  | error (e : ResultCode) (info : Nat)
  | stop (f : Fault)

/-- The end of an evaluated rule. -/
def Eval.ending {α : Type} (store : α → State → State) (s : State) : Eval α → Ending
  | .value a => .ok (store a s)
  | .raise e info => .error e info
  | .stop f => .stop f

/-- The end of a command's own rule (R109). -/
def endingOf (s : State) : Instr → Ending
  | .buildTree b => (buildTreeEval b s).ending State.storeTree s
  | .treeStore => (treeStoreEval s).ending State.storeTser s
  | .treeLoad => (treeLoadEval s).ending State.storeTree s
  | .deriveCodes => (deriveCodesEval s).ending State.storeCode s
  | .hufEnc b => (hufEncEval b s).ending State.storeBits s
  | .hufDec d => (hufDecEval s).ending (State.storeSyms d) s
  | .rleEnc b d => (rleEncEval b s).ending (State.storeSyms d) s
  | .rleDec b d => (rleDecEval b s).ending (State.storeSyms d) s
  | .pack => (packEval s).ending State.storeBytes s
  | .unpack => (unpackEval s).ending State.storeBits s

theorem finish_eq_ending {α : Type} (d : Dest) (store : α → State → State) (r : Eval α) (s : State) :
    finish d store r s =
      match r.ending store s with
      | .ok u => .next (u.complete .ok 0)
      | .error e info => .next (s.completeWithError d e info)
      | .stop f => .fault f := by
  cases r <;> rfl

/-- Every command ends in one of three ways, and a term that spells no command in a fourth: this is all `exec` does. -/
theorem exec_eq (i : Instr) (s : State) :
    exec i s =
      if i.wellFormed then
        match endingOf s i with
        | .ok u => .next (u.complete .ok 0)
        | .error e info => .next (s.completeWithError (destOf i) e info)
        | .stop f => .fault f
      else .next s.completeIllegal := by
  cases i with
  | rleEnc b d =>
    by_cases h : b = d
    · simp [exec, execRleEnc, Instr.wellFormed, h]
    · simp only [exec, execRleEnc, Instr.wellFormed, h, if_false, ne_eq, not_false_eq_true, decide_true, if_true]
      exact finish_eq_ending _ _ _ _
  | rleDec b d =>
    by_cases h : b = d
    · simp [exec, execRleDec, Instr.wellFormed, h]
    · simp only [exec, execRleDec, Instr.wellFormed, h, if_false, ne_eq, not_false_eq_true, decide_true, if_true]
      exact finish_eq_ending _ _ _ _
  | _ => exact finish_eq_ending _ _ _ _

end Sys2Proof.Machine
end

