-- ==== Sys2Proof/Laws/Tree.lean ====
section
/-! SUPPORT. Trees: sizes and leaves, the portable form and its parser, paths and codewords. -/

namespace Sys2Proof.Machine

/-! ### Sizes -/

theorem leaves_length_pos (n : Node) : 1 ≤ n.leaves.length := by
  induction n with
  | leaf s => simp [Node.leaves]
  | inner l r ihl ihr => simp [Node.leaves]; omega

theorem size_pos (n : Node) : 1 ≤ n.size := by
  cases n with
  | leaf s => exact Nat.le_refl 1
  | inner l r => simp only [Node.size]; omega

theorem serialize_length (n : Node) : n.serialize.length = n.size := by
  induction n with
  | leaf s => rfl
  | inner l r ihl ihr => simp [Node.serialize, Node.size, ihl, ihr]; omega

theorem size_eq_leaves (n : Node) : n.size + 1 = 2 * n.leaves.length := by
  induction n with
  | leaf s => rfl
  | inner l r ihl ihr => simp [Node.size, Node.leaves]; omega

theorem innerCount_eq_leaves (n : Node) : n.innerCount + 1 = n.leaves.length := by
  induction n with
  | leaf s => rfl
  | inner l r ihl ihr => simp [Node.innerCount, Node.leaves]; omega

/-- A tree within the alphabet serializes within TSER (R43). -/
theorem tree_serialize_le {c : Config} {t : Tree} (h : t.leaves.length ≤ c.maxAlpha) : t.serialize.length ≤ c.maxTser := by
  cases t with
  | empty => simp [Tree.serialize]
  | root n =>
    have h1 := serialize_length n
    have h2 := size_eq_leaves n
    simp only [Tree.leaves] at h
    simp only [Tree.serialize, Config.maxTser]
    omega

/-! ### The parser -/

/-- The node the parser gives ends where it says, within the entries (R172). -/
theorem parseNode_end {m : Memory} {n depth i k : Nat} {node : Node} (h : parseNode m n depth i = .value (node, k)) :
    k = i + node.size ∧ k ≤ n := by
  induction depth generalizing i k node with
  | zero => cases h
  | succ depth ih =>
    simp only [parseNode] at h
    split at h
    · cases h
    · obtain ⟨tag, -, h⟩ := bind_eq_value h
      split at h
      · obtain ⟨sym, -, h⟩ := bind_eq_value h
        cases h
        simp [Node.size]; omega
      · split at h
        · obtain ⟨⟨l, j⟩, hl, h⟩ := bind_eq_value h
          obtain ⟨⟨r, k'⟩, hr, h⟩ := bind_eq_value h
          cases h
          have h1 := ih hl
          have h2 := ih hr
          simp only [Node.size] at *
          omega
        · cases h

/-- The entries of TSER from index `i` on agree with a list of portable entries, the sym words of inner nodes ignored. -/
def EntriesAt (m : Memory) (i : Nat) (es : List (Word × Word)) : Prop :=
  ∀ k e, es[k]? = some e → m.tserTag.get? (i + k) = some e.1 ∧ (e.1 = 1 → m.tserSym.get? (i + k) = some e.2)

theorem entriesAt_append {m : Memory} {i : Nat} {es fs : List (Word × Word)} :
    EntriesAt m i (es ++ fs) ↔ EntriesAt m i es ∧ EntriesAt m (i + es.length) fs := by
  constructor
  · intro h
    refine ⟨fun k e he => ?_, fun k e he => ?_⟩
    · have hk : k < es.length := (List.getElem?_eq_some_iff.mp he).1
      exact h k e (by rw [List.getElem?_append_left hk]; exact he)
    · have := h (es.length + k) e (by rw [List.getElem?_append_right (by omega)]; simpa using he)
      rwa [← Nat.add_assoc] at this
  · rintro ⟨h1, h2⟩ k e he
    by_cases hk : k < es.length
    · rw [List.getElem?_append_left hk] at he
      exact h1 k e he
    · rw [List.getElem?_append_right (by omega)] at he
      have := h2 _ e he
      rwa [show i + es.length + (k - es.length) = i + k by omega] at this

theorem entriesAt_cons {m : Memory} {i : Nat} {e : Word × Word} {fs : List (Word × Word)} :
    EntriesAt m i (e :: fs) ↔
      (m.tserTag.get? i = some e.1 ∧ (e.1 = 1 → m.tserSym.get? i = some e.2)) ∧ EntriesAt m (i + 1) fs := by
  have h := entriesAt_append (m := m) (i := i) (es := [e]) (fs := fs)
  simp only [List.cons_append, List.nil_append, List.length_singleton] at h
  rw [h]
  refine and_congr_left fun _ => ⟨fun h => by simpa using h 0 e rfl, fun h k e' he => ?_⟩
  cases k with
  | zero => simp at he; subst he; simpa using h
  | succ k => simp at he

/-- The parser gives back the node whose portable form the entries are (R170, R172). -/
theorem parseNode_serialize {m : Memory} {n : Nat} (node : Node) (depth i : Nat) (hd : node.size ≤ depth)
    (hn : i + node.size ≤ n) (he : EntriesAt m i node.serialize) :
    parseNode m n depth i = .value (node, i + node.size) := by
  induction node generalizing depth i with
  | leaf s =>
    obtain ⟨⟨ht, hs⟩, -⟩ := entriesAt_cons.mp he
    cases depth with
    | zero => simp [Node.size] at hd
    | succ depth =>
      simp only [Node.size] at *
      have h1 : readEntry .tserTag m.tserTag i = .value 1 := readEntry_eq_value.mpr ht
      have h2 : readEntry .tserSym m.tserSym i = .value s := readEntry_eq_value.mpr (by simpa using hs)
      simp [parseNode, show ¬ n ≤ i by omega, h1, h2]
  | inner l r ihl ihr =>
    obtain ⟨⟨ht, -⟩, h⟩ := entriesAt_cons.mp he
    obtain ⟨hl, hr⟩ := entriesAt_append.mp h
    rw [serialize_length] at hr
    cases depth with
    | zero => simp [Node.size] at hd
    | succ depth =>
      simp only [Node.size] at *
      have h1 : readEntry .tserTag m.tserTag i = .value 0 := readEntry_eq_value.mpr ht
      have hl' := ihl depth (i + 1) (by omega) (by omega) hl
      have hr' := ihr depth (i + 1 + l.size) (by omega) (by omega) hr
      simp [parseNode, show ¬ n ≤ i by omega, h1, hl', hr', show i + 1 + l.size + r.size = i + (1 + l.size + r.size) by omega]

/-- Where the entries agree with a portable form up to entry `k` and no further, the parser raises at that entry: with `n` when the
entries end there, with its index when its tag is neither 0 nor 1 (R172). -/
theorem parseNode_raise {m : Memory} {n : Nat} (node : Node) (depth i k : Nat) (info : Nat) (hd : k < depth)
    (hk : k < node.size) (hn : i + k ≤ n) (he : EntriesAt m i (node.serialize.take k))
    (hend : (n = i + k ∧ info = n) ∨
      (i + k < n ∧ info = i + k ∧ ∃ tag, m.tserTag.get? (i + k) = some tag ∧ tag ≠ 1 ∧ tag ≠ 0)) :
    parseNode m n depth i = .raise .invalidFormat info := by
  have here : ∀ depth i, (n = i ∧ info = n) ∨ (i < n ∧ info = i ∧ ∃ tag, m.tserTag.get? i = some tag ∧ tag ≠ 1 ∧ tag ≠ 0) →
      parseNode m n (depth + 1) i = .raise .invalidFormat info := by
    rintro depth i (⟨h1, h2⟩ | ⟨h1, h2, tag, ht, ht1, ht0⟩)
    · simp [parseNode, h1, h2]
    · have h3 : readEntry .tserTag m.tserTag i = .value tag := readEntry_eq_value.mpr ht
      have ht1' : ¬ tag = 1#32 := ht1
      have ht0' : ¬ tag = 0#32 := ht0
      simp [parseNode, show ¬ n ≤ i by omega, h3, h2, ht1', ht0']
  induction node generalizing depth i k with
  | leaf s =>
    simp only [Node.size] at hk
    have : k = 0 := by omega
    subst this
    obtain ⟨d, rfl⟩ : ∃ d, depth = d + 1 := ⟨depth - 1, by omega⟩
    exact here d i (by simpa using hend)
  | inner l r ihl ihr =>
    obtain ⟨d, rfl⟩ : ∃ d, depth = d + 1 := ⟨depth - 1, by omega⟩
    cases k with
    | zero => exact here d i (by simpa using hend)
    | succ k =>
      simp only [Node.serialize, List.take_succ_cons] at he
      obtain ⟨⟨ht, -⟩, he⟩ := entriesAt_cons.mp he
      have h1 : readEntry .tserTag m.tserTag i = .value 0 := readEntry_eq_value.mpr ht
      have hni : ¬ n ≤ i := by omega
      simp only [Node.size] at hk
      rw [show i + (k + 1) = i + 1 + k by omega] at hend
      by_cases hkl : k < l.size
      · rw [List.take_append_of_le_length (by rw [serialize_length]; omega)] at he
        have := ihl d (i + 1) k (by omega) hkl (by omega) he hend
        simp [parseNode, hni, h1, this]
      · have hlen := serialize_length l
        rw [List.take_append, List.take_of_length_le (by omega)] at he
        obtain ⟨hl, hr⟩ := entriesAt_append.mp he
        rw [hlen] at hr
        have hl' := parseNode_serialize (n := n) l d (i + 1) (by omega) (by omega) hl
        have hr' := ihr d (i + 1 + l.size) (k - l.size) (by omega) (by omega) (by omega) hr
          (by rwa [show i + 1 + l.size + (k - l.size) = i + 1 + k by omega])
        simp [parseNode, hni, h1, hl', hr']

/-! ### The leaves of a parsed tree -/

theorem leavesAt_map (n : Node) (i : Nat) : (n.leavesAt i).map Prod.fst = n.leaves := by
  induction n generalizing i with
  | leaf s => rfl
  | inner l r ihl ihr => simp [Node.leavesAt, Node.leaves, ihl, ihr]

theorem firstDuplicate_eq_none {seen : List Symbol} {l : List (Symbol × Nat)} :
    firstDuplicate seen l = none ↔ (l.map Prod.fst).Nodup ∧ ∀ x ∈ l.map Prod.fst, x ∉ seen := by
  induction l generalizing seen with
  | nil => simp [firstDuplicate]
  | cons c rest ih =>
    obtain ⟨s, i⟩ := c
    simp only [firstDuplicate]
    split
    · rename_i h
      simp [h]
    · rename_i h
      rw [ih]
      simp only [List.map_cons, List.nodup_cons, List.mem_cons, not_or]
      constructor
      · rintro ⟨hn, hx⟩
        refine ⟨⟨fun hs => (hx s hs).1 rfl, hn⟩, ?_⟩
        rintro x (rfl | hx')
        · exact h
        · exact (hx x hx').2
      · rintro ⟨⟨hs, hn⟩, hx⟩
        exact ⟨hn, fun x hx' => ⟨fun hxs => hs (hxs ▸ hx'), hx x (.inr hx')⟩⟩

/-- TREE_LOAD finds no repeated leaf exactly when the leaves are pairwise distinct (R172). -/
theorem firstDuplicate_leaves {n : Node} {i : Nat} : firstDuplicate [] (n.leavesAt i) = none ↔ n.leaves.Nodup := by
  rw [firstDuplicate_eq_none, leavesAt_map]
  simp

/-! ### Codewords -/

theorem walk_syms (n : Node) (p : BitString) : (n.walk p).map CodeEntry.sym = n.leaves := by
  induction n generalizing p with
  | leaf s => rfl
  | inner l r ihl ihr => simp [Node.walk, Node.leaves, ihl, ihr]

/-- The symbols of a code table are the leaves left to right (R190). -/
theorem codes_syms (t : Tree) : t.codes.map CodeEntry.sym = t.leaves := by
  cases t with
  | empty => rfl
  | root n =>
    cases n with
    | leaf s => rfl
    | inner l r => simp [Tree.codes, Tree.leaves, Node.leaves, walk_syms]

theorem codes_length (t : Tree) : t.codes.length = t.leaves.length := by rw [← codes_syms, List.length_map]

/-- Each entry of a walk extends the path walked so far by the path to its leaf (R190). -/
theorem walk_path {n : Node} {p : BitString} {e : CodeEntry} (h : e ∈ n.walk p) :
    ∃ q, e.code = p ++ q ∧ n.follow q = some (.leaf e.sym) ∧ q.length ≤ n.depth := by
  induction n generalizing p with
  | leaf s =>
    simp only [Node.walk, List.mem_singleton] at h
    subst h
    exact ⟨[], by simp, rfl, Nat.le_refl _⟩
  | inner l r ihl ihr =>
    simp only [Node.walk, List.mem_append] at h
    rcases h with h | h
    · obtain ⟨q, h1, h2, h3⟩ := ihl h
      exact ⟨false :: q, by simp [h1], by simpa [Node.follow] using h2, by simp [Node.depth]; omega⟩
    · obtain ⟨q, h1, h2, h3⟩ := ihr h
      exact ⟨true :: q, by simp [h1], by simpa [Node.follow] using h2, by simp [Node.depth]; omega⟩

/-- Every path to a leaf is an entry of the walk (R190). -/
theorem walk_of_follow {n : Node} {p q : BitString} {s : Symbol} (h : n.follow q = some (.leaf s)) :
    (⟨s, p ++ q⟩ : CodeEntry) ∈ n.walk p := by
  induction n generalizing p q with
  | leaf s' =>
    cases q with
    | nil => simp [Node.follow] at h; simp [Node.walk, h]
    | cons b q => simp [Node.follow] at h
  | inner l r ihl ihr =>
    cases q with
    | nil => simp [Node.follow] at h
    | cons b q =>
      simp only [Node.walk, List.mem_append]
      cases b with
      | false => exact .inl (by simpa using ihl (p := p ++ [false]) (q := q) (by simpa [Node.follow] using h))
      | true => exact .inr (by simpa using ihr (p := p ++ [true]) (q := q) (by simpa [Node.follow] using h))

/-- The deepest leaf has an entry of its depth. -/
theorem walk_depth (n : Node) (p : BitString) : ∃ e ∈ n.walk p, e.code.length = p.length + n.depth := by
  induction n generalizing p with
  | leaf s => exact ⟨⟨s, p⟩, by simp [Node.walk], by simp [Node.depth]⟩
  | inner l r ihl ihr =>
    by_cases h : r.depth ≤ l.depth
    · obtain ⟨e, he, hl⟩ := ihl (p ++ [false])
      exact ⟨e, by simp [Node.walk, he], by rw [hl]; simp [Node.depth]; omega⟩
    · obtain ⟨e, he, hl⟩ := ihr (p ++ [true])
      exact ⟨e, by simp [Node.walk, he], by rw [hl]; simp [Node.depth]; omega⟩

/-- With an inner root the codewords are the paths to the leaves (R190). -/
theorem mem_codes_inner {l r : Node} {e : CodeEntry} :
    e ∈ (Tree.root (.inner l r)).codes ↔ (Node.inner l r).follow e.code = some (.leaf e.sym) := by
  have hw : (Tree.root (.inner l r)).codes = (Node.inner l r).walk [] := rfl
  rw [hw]
  constructor
  · intro h
    obtain ⟨q, h1, h2, -⟩ := walk_path h
    simpa [h1] using h2
  · intro h
    simpa using walk_of_follow (p := []) h

/-- A codeword of a table is at least one bit long (R15, R190). -/
theorem codes_pos {t : Tree} {e : CodeEntry} (h : e ∈ t.codes) : 1 ≤ e.code.length := by
  cases t with
  | empty => cases h
  | root n =>
    cases n with
    | leaf s => simp only [Tree.codes, List.mem_singleton] at h; subst h; simp
    | inner l r =>
      rw [mem_codes_inner] at h
      cases hc : e.code with
      | nil => rw [hc] at h; simp [Node.follow] at h
      | cons b q => simp

/-- A table is too long exactly when the tree is deeper than 32 (R191). -/
theorem tooLong_codes (n : Node) : tooLong (Tree.root n).codes = true ↔ 32 < n.depth := by
  cases n with
  | leaf s => simp [tooLong, Tree.codes, Config.maxCodeLen, Node.depth]
  | inner l r =>
    have hw : (Tree.root (.inner l r)).codes = (Node.inner l r).walk [] := rfl
    rw [hw]
    simp only [tooLong, Config.maxCodeLen, List.any_eq_true]
    constructor
    · rintro ⟨e, he, hl⟩
      obtain ⟨q, h1, -, h3⟩ := walk_path he
      simp [h1] at hl
      omega
    · intro h
      obtain ⟨e, he, hl⟩ := walk_depth (.inner l r) []
      exact ⟨e, he, by rw [hl]; simpa using h⟩

end Sys2Proof.Machine
end

