-- ==== Sys2Proof/Laws/Huffman.lean ====
section
/-! SUPPORT. The Huffman construction: the distinct symbols, the queue, the merge loop as the relation `HuffmanMerge`, and what that
relation keeps: the leaves, the total frequency and the Fibonacci bound on depths. -/

namespace Sys2Proof.Machine

/-! ### The distinct symbols -/

theorem mem_insertSym {s x : Symbol} {l : List Symbol} : x ∈ insertSym s l ↔ x = s ∨ x ∈ l := by
  induction l with
  | nil => simp [insertSym]
  | cons t rest ih =>
    simp only [insertSym]
    split
    · simp
    · split
      · rename_i h
        subst h
        simp
      · simp only [List.mem_cons, ih]
        tauto

theorem insertSym_pairwise {s : Symbol} {l : List Symbol} (h : l.Pairwise (fun x y => x.toNat < y.toNat)) :
    (insertSym s l).Pairwise (fun x y => x.toNat < y.toNat) := by
  induction l with
  | nil => simp [insertSym]
  | cons t rest ih =>
    have ⟨h1, h2⟩ := List.pairwise_cons.mp h
    simp only [insertSym]
    split
    · rename_i hlt
      refine List.pairwise_cons.mpr ⟨fun y hy => ?_, h⟩
      rcases List.mem_cons.mp hy with rfl | hy
      · exact hlt
      · exact Nat.lt_trans hlt (h1 y hy)
    · split
      · exact h
      · rename_i hlt hne
        refine List.pairwise_cons.mpr ⟨fun y hy => ?_, ih h2⟩
        rcases mem_insertSym.mp hy with rfl | hy
        · have : y.toNat ≠ t.toNat := fun he => hne (BitVec.eq_of_toNat_eq he)
          omega
        · exact h1 y hy

theorem distinctSyms_pairwise (src : List Symbol) : (distinctSyms src).Pairwise (fun x y => x.toNat < y.toNat) := by
  induction src with
  | nil => exact List.Pairwise.nil
  | cons s rest ih => exact insertSym_pairwise ih

theorem mem_distinctSyms {x : Symbol} {src : List Symbol} : x ∈ distinctSyms src ↔ x ∈ src := by
  induction src with
  | nil => exact Iff.rfl
  | cons s rest ih =>
    show x ∈ insertSym s (distinctSyms rest) ↔ _
    rw [mem_insertSym, ih, List.mem_cons]

theorem distinctSyms_nodup (src : List Symbol) : (distinctSyms src).Nodup :=
  (distinctSyms_pairwise src).imp fun h he => by subst he; exact Nat.lt_irrefl _ h

/-! ### The queue -/

theorem leafQueue_eq (src : List Symbol) (i : Nat) (syms : List Symbol) :
    leafQueue src i syms = (syms.zipIdx i).map fun p => ⟨src.count p.1, p.2, .leaf p.1⟩ := by
  induction syms generalizing i with
  | nil => rfl
  | cons s rest ih => simp [leafQueue, List.zipIdx_cons, ih]

theorem leafQueue_length (src : List Symbol) (i : Nat) (syms : List Symbol) : (leafQueue src i syms).length = syms.length := by
  simp [leafQueue_eq]

/-- The sequence numbers of a queue are pairwise distinct and below the next one (R161). -/
def Numbered (next : Nat) (q : List QItem) : Prop := (q.map QItem.seq).Nodup ∧ ∀ x ∈ q, x.seq < next

theorem leafQueue_numbered (src : List Symbol) (i : Nat) (syms : List Symbol) :
    Numbered (i + syms.length) (leafQueue src i syms) ∧ ∀ x ∈ leafQueue src i syms, i ≤ x.seq := by
  induction syms generalizing i with
  | nil => exact ⟨⟨by simp [leafQueue], by simp [leafQueue]⟩, by simp [leafQueue]⟩
  | cons s rest ih =>
    obtain ⟨⟨h1, h2⟩, h3⟩ := ih (i + 1)
    simp only [leafQueue, Numbered, List.map_cons, List.nodup_cons, List.mem_cons, List.length_cons]
    refine ⟨⟨⟨fun h => ?_, h1⟩, ?_⟩, ?_⟩
    · obtain ⟨x, hx, he⟩ := List.mem_map.mp h
      have := h3 x hx
      omega
    · rintro x (rfl | hx)
      · simp
      · have := h2 x hx; omega
    · rintro x (rfl | hx)
      · simp
      · have := h3 x hx; omega

theorem before_or {x y : QItem} (h : x.seq ≠ y.seq) : x.before y = true ∨ y.before x = true := by
  simp only [QItem.before, Bool.or_eq_true, Bool.and_eq_true, decide_eq_true_eq]
  omega

theorem before_trans {x y z : QItem} (h1 : x.before y = true) (h2 : y.before z = true) : x.before z = true := by
  simp only [QItem.before, Bool.or_eq_true, Bool.and_eq_true, decide_eq_true_eq] at *
  omega

theorem before_freq {x y : QItem} (h : x.before y = true) : x.freq ≤ y.freq := by
  simp only [QItem.before, Bool.or_eq_true, Bool.and_eq_true, decide_eq_true_eq] at h
  omega

/-- `pop_min` takes one element, whose key is the least (R161). -/
theorem popMin_spec {q : List QItem} {m : QItem} {rest : List QItem} (hq : (q.map QItem.seq).Nodup)
    (h : popMin q = some (m, rest)) : q.Perm (m :: rest) ∧ ∀ z ∈ rest, m.before z = true := by
  induction q generalizing m rest with
  | nil => cases h
  | cons x tail ih =>
    simp only [List.map_cons, List.nodup_cons] at hq
    simp only [popMin] at h
    cases hp : popMin tail with
    | none =>
      rw [hp] at h
      cases h
      have : tail = [] := by
        cases tail with
        | nil => rfl
        | cons y ys =>
          simp only [popMin] at hp
          split at hp
          · cases hp
          · split at hp <;> cases hp
      subst this
      exact ⟨List.Perm.refl _, by simp⟩
    | some p =>
      obtain ⟨m', others⟩ := p
      rw [hp] at h
      obtain ⟨hperm, hmin⟩ := ih hq.2 hp
      have hne : m'.seq ≠ x.seq := fun he =>
        hq.1 (List.mem_map.mpr ⟨m', hperm.mem_iff.mpr (List.mem_cons_self ..), he⟩)
      simp only at h
      split at h
      · rename_i hb
        cases h
        refine ⟨(hperm.cons x).trans (List.Perm.swap ..), fun z hz => ?_⟩
        rcases List.mem_cons.mp hz with rfl | hz
        · exact hb
        · exact hmin z hz
      · rename_i hb
        cases h
        have hb' : x.before m' = true := (before_or hne).resolve_left hb
        refine ⟨List.Perm.refl _, fun z hz => ?_⟩
        rcases List.mem_cons.mp (hperm.mem_iff.mp hz) with rfl | hz'
        · exact hb'
        · exact before_trans hb' (hmin z hz')

theorem popMin_isSome {x : QItem} {q : List QItem} : ∃ p, popMin (x :: q) = some p := by
  simp only [popMin]
  split
  · exact ⟨_, rfl⟩
  · split <;> exact ⟨_, rfl⟩

/-- The merge loop is the construction of R160 to R162: from a numbered, non-empty queue it ends with one element, the root the
relation gives. -/
theorem mergeLoop_spec {turns next : Nat} {q : List QItem} (hn : Numbered next q) (hne : q ≠ []) (ht : q.length ≤ turns) :
    ∃ x, mergeLoop turns next q = [x] ∧ HuffmanMerge next q x.node := by
  induction turns generalizing next q with
  | zero => exact absurd (List.length_eq_zero_iff.mp (by omega)) hne
  | succ turns ih =>
    obtain ⟨a, q', rfl⟩ := List.exists_cons_of_ne_nil hne
    obtain ⟨⟨x, q1⟩, hx⟩ := popMin_isSome (x := a) (q := q')
    obtain ⟨hp1, hmin1⟩ := popMin_spec hn.1 hx
    simp only [mergeLoop, hx]
    cases q1 with
    | nil =>
      have hq : a :: q' = [x] := List.perm_singleton.mp hp1
      refine ⟨x, by simp [popMin], ?_⟩
      rw [hq]
      exact .done next x
    | cons b q1' =>
      obtain ⟨⟨y, q2⟩, hy⟩ := popMin_isSome (x := b) (q := q1')
      have hnd : (x.seq :: (b :: q1').map QItem.seq).Nodup := (hp1.map QItem.seq).nodup_iff.mp hn.1
      obtain ⟨hp2, hmin2⟩ := popMin_spec (List.nodup_cons.mp hnd).2 hy
      have hperm : (a :: q').Perm (x :: y :: q2) := hp1.trans (hp2.cons x)
      have hnd2 : ((x :: y :: q2).map QItem.seq).Nodup := (hperm.map QItem.seq).nodup_iff.mp hn.1
      simp only [List.map_cons, List.nodup_cons] at hnd2
      have hlt : ∀ z ∈ q2, z.seq < next := fun z hz => hn.2 z (hperm.mem_iff.mpr (by simp [hz]))
      have hnum : Numbered (next + 1) (⟨x.freq + y.freq, next, .inner x.node y.node⟩ :: q2) := by
        refine ⟨List.nodup_cons.mpr ⟨fun h => ?_, hnd2.2.2⟩, fun z hz => ?_⟩
        · obtain ⟨z, hz, he⟩ := List.mem_map.mp h
          have := hlt z hz
          simp at he
          omega
        · rcases List.mem_cons.mp hz with rfl | hz
          · simp
          · have := hlt z hz; omega
      have hlen := hperm.length_eq
      simp only [List.length_cons] at hlen ht
      obtain ⟨u, hu, hm⟩ := ih hnum (by simp) (by simp only [List.length_cons]; omega)
      refine ⟨u, by simp only [hy]; exact hu, ?_⟩
      exact .merge next _ x y q2 _ hperm (fun z hz => hmin1 z (hp2.mem_iff.mpr hz)) hmin2 hm

/-! ### What the construction keeps -/

theorem huffmanMerge_leaves {next : Nat} {q : List QItem} {n : Node} (h : HuffmanMerge next q n) :
    n.leaves.Perm (q.flatMap fun x => x.node.leaves) := by
  induction h with
  | done next x => simp
  | merge next q x y others n hq hx hy hn ih =>
    refine ih.trans ?_
    have := hq.flatMap_right (fun x => x.node.leaves)
    refine List.Perm.trans ?_ this.symm
    simp [Node.leaves]

/-- What bounds the depths: an element of depth d weighs at least F(d + 2), and every other element at least F(d + 1) (R193). -/
def FibBound (q : List QItem) : Prop :=
  (∀ x ∈ q, Nat.fib (x.node.depth + 2) ≤ x.freq) ∧
    q.Pairwise fun x y => Nat.fib (x.node.depth + 1) ≤ y.freq ∧ Nat.fib (y.node.depth + 1) ≤ x.freq

theorem huffmanMerge_fib {next : Nat} {q : List QItem} {n : Node} (h : HuffmanMerge next q n) (hq : FibBound q) :
    Nat.fib (n.depth + 2) ≤ (q.map QItem.freq).sum := by
  induction h with
  | done next x => simpa using hq.1 x (by simp)
  | merge next q x y others n hp hx hy hn ih =>
    have hsym : ∀ ⦃x y : QItem⦄, (Nat.fib (x.node.depth + 1) ≤ y.freq ∧ Nat.fib (y.node.depth + 1) ≤ x.freq) →
        Nat.fib (y.node.depth + 1) ≤ x.freq ∧ Nat.fib (x.node.depth + 1) ≤ y.freq := fun _ _ h => h.symm
    have hpw := hq.2.perm hp (fun h => hsym h)
    obtain ⟨hpx, hpy, hpo⟩ : _ ∧ _ ∧ _ := by
      have h1 := List.pairwise_cons.mp hpw
      have h2 := List.pairwise_cons.mp h1.2
      exact ⟨h1.1, h2.1, h2.2⟩
    have hfx := hq.1 x (hp.mem_iff.mpr (by simp))
    have hfy := hq.1 y (hp.mem_iff.mpr (by simp))
    have hxy := hpx y (by simp)
    have hsum : (q.map QItem.freq).sum = x.freq + y.freq + (others.map QItem.freq).sum := by
      rw [(hp.map QItem.freq).sum_eq]; simp [Nat.add_assoc]
    have hnew : FibBound (⟨x.freq + y.freq, next, .inner x.node y.node⟩ :: others) := by
      refine ⟨fun z hz => ?_, List.pairwise_cons.mpr ⟨fun z hz => ?_, hpo⟩⟩
      · rcases List.mem_cons.mp hz with rfl | hz
        · simp only [Node.depth]
          rcases Nat.le_total x.node.depth y.node.depth with hd | hd
          · rw [max_eq_right hd, show 1 + y.node.depth + 2 = (y.node.depth + 1) + 2 by omega, Nat.fib_add_two,
              show y.node.depth + 1 + 1 = y.node.depth + 2 from rfl]
            have := hxy.2
            omega
          · rw [max_eq_left hd, show 1 + x.node.depth + 2 = (x.node.depth + 1) + 2 by omega, Nat.fib_add_two,
              show x.node.depth + 1 + 1 = x.node.depth + 2 from rfl]
            have := hxy.1
            omega
        · exact hq.1 z (hp.mem_iff.mpr (by simp [hz]))
      · have hxz := before_freq (hx z (by simp [hz]))
        have hyz := before_freq (hy z hz)
        have hzx := (hpx z (by simp [hz])).2
        simp only [Node.depth]
        refine ⟨?_, by omega⟩
        rcases Nat.le_total x.node.depth y.node.depth with hd | hd
        · rw [max_eq_right hd, show 1 + y.node.depth + 1 = y.node.depth + 2 by omega]; omega
        · rw [max_eq_left hd, show 1 + x.node.depth + 1 = x.node.depth + 2 by omega]; omega
    have := ih hnew
    rw [hsum]
    simpa [Nat.add_assoc] using this

theorem leafQueue_leaves (src : List Symbol) (i : Nat) (syms : List Symbol) :
    (leafQueue src i syms).flatMap (fun x => x.node.leaves) = syms := by
  induction syms generalizing i with
  | nil => rfl
  | cons s rest ih => simp [leafQueue, Node.leaves, ih]

theorem leafQueue_freqs (src : List Symbol) (i : Nat) (syms : List Symbol) :
    (leafQueue src i syms).map QItem.freq = syms.map fun s => src.count s := by
  induction syms generalizing i with
  | nil => rfl
  | cons s rest ih => simp [leafQueue, ih]

theorem leafQueue_fib (src : List Symbol) (i : Nat) (syms : List Symbol) (h : ∀ s ∈ syms, s ∈ src) :
    FibBound (leafQueue src i syms) := by
  have hd : ∀ (i : Nat) (syms : List Symbol), (∀ s ∈ syms, s ∈ src) → ∀ x ∈ leafQueue src i syms, x.node.depth = 0 ∧ 1 ≤ x.freq := by
    intro i syms h
    induction syms generalizing i with
    | nil => simp [leafQueue]
    | cons s rest ih =>
      intro x hx
      rcases List.mem_cons.mp hx with rfl | hx
      · exact ⟨rfl, List.count_pos_iff.mpr (h s (by simp))⟩
      · exact ih (i + 1) (fun s hs => h s (by simp [hs])) x hx
  refine ⟨fun x hx => ?_, List.pairwise_of_forall_mem_list fun x hx y hy => ?_⟩
  · obtain ⟨h1, h2⟩ := hd i syms h x hx
    simpa [h1] using h2
  · obtain ⟨h1, h2⟩ := hd i syms h x hx
    obtain ⟨h3, h4⟩ := hd i syms h y hy
    simp only [h1, h3, Nat.zero_add, Nat.fib_one]
    exact ⟨h4, h2⟩

/-- The frequencies add up to the length of the sequence (R160). -/
theorem sum_counts (src : List Symbol) : ((distinctSyms src).map fun s => src.count s).sum = src.length := by
  have h : (distinctSyms src).Perm src.dedup := by
    rw [List.perm_ext_iff_of_nodup (distinctSyms_nodup src) (List.nodup_dedup src)]
    intro a
    rw [mem_distinctSyms, List.mem_dedup]
  rw [(h.map _).sum_eq]
  exact List.sum_map_count_dedup_eq_length src

/-! ### The tree of a sequence -/

/-- What BUILD_TREE builds: the empty tree of the empty sequence, else the root the construction gives (R160). -/
theorem buildTree_spec (src : List Symbol) :
    (src = [] ∧ buildTree src = .empty) ∨
      ∃ n, buildTree src = .root n ∧ HuffmanMerge (distinctSyms src).length (leafQueue src 0 (distinctSyms src)) n := by
  by_cases hs : distinctSyms src = []
  · left
    have : src = [] := by
      cases src with
      | nil => rfl
      | cons s rest =>
        have : s ∈ distinctSyms (s :: rest) := mem_distinctSyms.mpr (by simp)
        rw [hs] at this
        cases this
    subst this
    exact ⟨rfl, rfl⟩
  · right
    have hq : leafQueue src 0 (distinctSyms src) ≠ [] := by
      intro h
      have := leafQueue_length src 0 (distinctSyms src)
      rw [h] at this
      exact hs (List.length_eq_zero_iff.mp (by simpa using this.symm))
    have hnum := (leafQueue_numbered src 0 (distinctSyms src)).1
    rw [Nat.zero_add] at hnum
    obtain ⟨x, hx, hm⟩ := mergeLoop_spec (turns := (distinctSyms src).length) hnum hq (by rw [leafQueue_length])
    exact ⟨x.node, by simp [buildTree, hx], hm⟩

/-- The leaves of the built tree are the distinct symbols (R163). -/
theorem buildTree_leaves (src : List Symbol) : (buildTree src).leaves.Perm (distinctSyms src) := by
  rcases buildTree_spec src with ⟨rfl, h⟩ | ⟨n, h, hm⟩
  · rw [h]; exact List.Perm.refl _
  · rw [h]
    have := huffmanMerge_leaves hm
    rwa [leafQueue_leaves] at this

/-- A built tree of depth d comes from at least F(d + 2) symbols (R193). -/
theorem buildTree_fib {src : List Symbol} {n : Node} (h : buildTree src = .root n) : Nat.fib (n.depth + 2) ≤ src.length := by
  rcases buildTree_spec src with ⟨-, h'⟩ | ⟨n', h', hm⟩
  · rw [h'] at h; cases h
  · rw [h'] at h; cases h
    have := huffmanMerge_fib hm (leafQueue_fib src 0 _ fun s hs => mem_distinctSyms.mp hs)
    rwa [leafQueue_freqs, sum_counts] at this

end Sys2Proof.Machine
end

