-- ==== Sys2Proof/Laws/Codec.lean ====
section
/-! SUPPORT. The codecs as functions: bits and bytes, runs and pairs, codewords and paths. -/

namespace Sys2Proof.Machine

/-! ### Bits -/

theorem bitsOfNat_getElem? {width n k : Nat} (hk : k < width) : (bitsOfNat width n)[k]? = some (n.testBit (width - 1 - k)) := by
  induction width generalizing k with
  | zero => omega
  | succ width ih =>
    cases k with
    | zero => simp [bitsOfNat]
    | succ k =>
      simp only [bitsOfNat, List.getElem?_cons_succ]
      rw [ih (by omega)]
      congr 2; omega

theorem natOfBits_append (bs : BitString) (b : Bool) : natOfBits (bs ++ [b]) = 2 * natOfBits bs + b.toNat := by
  simp [natOfBits]

theorem natOfBits_lt (bs : BitString) : natOfBits bs < 2 ^ bs.length := by
  induction bs using List.reverseRecOn with
  | nil => simp [natOfBits]
  | append_singleton bs b ih =>
    rw [natOfBits_append, List.length_append, List.length_singleton, Nat.pow_succ]
    have : b.toNat ≤ 1 := by cases b <;> simp
    omega

/-- A bit string is right-aligned in the number it spells: its first bit is bit `len` − 1 (R64, R65, R120). -/
theorem natOfBits_testBit (bs : BitString) (k : Nat) :
    (natOfBits bs).testBit k = if k < bs.length then bs.getD (bs.length - 1 - k) false else false := by
  induction bs using List.reverseRecOn generalizing k with
  | nil => simp [natOfBits]
  | append_singleton bs b ih =>
    rw [natOfBits_append, List.length_append, List.length_singleton]
    cases k with
    | zero =>
      have h : (2 * natOfBits bs + b.toNat) % 2 = b.toNat := by cases b <;> simp
      rw [Nat.testBit_zero, h]
      cases b <;> simp [List.getD]
    | succ k =>
      have h : (2 * natOfBits bs + b.toNat) / 2 = natOfBits bs := by cases b <;> simp; omega
      rw [Nat.testBit_succ, h, ih]
      by_cases hk : k < bs.length
      · rw [if_pos hk, if_pos (by omega)]
        simp only [List.getD]
        rw [List.getElem?_append_left (by omega)]
        congr 2; omega
      · rw [if_neg hk, if_neg (by omega)]

theorem bitsOfNat_natOfBits (bs : BitString) : bitsOfNat bs.length (natOfBits bs) = bs := by
  apply List.ext_getElem?
  intro k
  by_cases hk : k < bs.length
  · rw [bitsOfNat_getElem? hk, natOfBits_testBit, if_pos (by omega)]
    simp only [List.getD]
    rw [show bs.length - 1 - (bs.length - 1 - k) = k by omega, List.getElem?_eq_getElem hk]
    simp
  · rw [List.getElem?_eq_none (by rw [bitsOfNat_length]; omega), List.getElem?_eq_none (by omega)]

/-- A byte's bits are the bits it was made from (R120, R122). -/
theorem bitsOfByte_byteOfBits {bs : BitString} (h : bs.length = 8) : bitsOfByte (byteOfBits bs) = bs := by
  have hlt := natOfBits_lt bs
  rw [h] at hlt
  have : (byteOfBits bs).toNat = natOfBits bs := by
    simp [byteOfBits, BitVec.toNat_ofNat]; omega
  rw [bitsOfByte, this, ← h]
  exact bitsOfNat_natOfBits bs

theorem bitsOfByte_getElem? {b : Byte} {k : Nat} (hk : k < 8) : (bitsOfByte b)[k]? = some (b.getLsbD (7 - k)) := by
  rw [bitsOfByte, bitsOfNat_getElem? hk]
  rfl

theorem flatMap_bitsOfByte_length (data : List Byte) : (data.flatMap bitsOfByte).length = 8 * data.length := by
  induction data with
  | nil => rfl
  | cons b rest ih => simp [ih]; omega

/-- Bit i of a byte sequence is in byte i/8, at bit 7 − i mod 8 (R122). -/
theorem flatMap_bitsOfByte_getElem? {data : List Byte} {i : Nat} (hi : i < 8 * data.length) :
    (data.flatMap bitsOfByte)[i]? = some ((data.getD (i / 8) 0#8).getLsbD (7 - i % 8)) := by
  induction data generalizing i with
  | nil => simp at hi
  | cons b rest ih =>
    simp only [List.length_cons] at hi
    rw [List.flatMap_cons]
    by_cases h : i < 8
    · rw [List.getElem?_append_left (by simpa using h), bitsOfByte_getElem? h]
      simp [show i / 8 = 0 by omega, show i % 8 = i by omega]
    · rw [List.getElem?_append_right (by simpa using h), bitsOfByte_length, ih (by omega)]
      simp [show i / 8 = (i - 8) / 8 + 1 by omega, show (i - 8) % 8 = i % 8 by omega]

/-! ### The packed buffer -/

theorem paddingOf_le (len : Nat) : paddingOf len ≤ 7 := by simp only [paddingOf]; omega

theorem paddingOf_spec (len : Nat) : len + paddingOf len = 8 * ceilDiv len 8 := by simp only [paddingOf, ceilDiv]; omega

theorem packed_length (b : BitString) : (packed b).length = 1 + ceilDiv b.length 8 := by simp [packed]; omega

theorem range_flatMap_chunks {α : Type} (n : Nat) (l : List α) (h : l.length = 8 * n) :
    (List.range n).flatMap (fun j => (l.drop (8 * j)).take 8) = l := by
  induction n generalizing l with
  | zero => simp at h; subst h; rfl
  | succ n ih =>
    rw [List.range_succ_eq_map, List.flatMap_cons, List.flatMap_map]
    have := ih (l.drop 8) (by simp; omega)
    simp only [List.drop_drop] at this
    rw [show (fun j => List.take 8 (List.drop (8 * Nat.succ j) l)) = fun j => List.take 8 (List.drop (8 + 8 * j) l) from
      funext fun j => by rw [show 8 * Nat.succ j = 8 + 8 * j by omega], this]
    simp

/-- Unpacking the data bytes of a packed buffer gives the bit string back (R120, R122, R123). -/
theorem unpackBits_packed (b : BitString) : unpackBits (paddingOf b.length) (packed b).tail = b := by
  have hspec := paddingOf_spec b.length
  let ext := b ++ List.replicate (paddingOf b.length) false
  have hext : ext.length = 8 * ceilDiv b.length 8 := by simp [ext]; omega
  have hdata : (packed b).tail.flatMap bitsOfByte = ext := by
    show ((List.range (ceilDiv b.length 8)).map fun j => byteOfBits ((ext.drop (8 * j)).take 8)).flatMap bitsOfByte = ext
    rw [List.flatMap_map]
    rw [← range_flatMap_chunks (ceilDiv b.length 8) ext hext]
    have hcong : ∀ (l : List Nat), (∀ j ∈ l, j < ceilDiv b.length 8) →
        (l.flatMap fun j => bitsOfByte (byteOfBits ((ext.drop (8 * j)).take 8))) =
          l.flatMap fun j => (ext.drop (8 * j)).take 8 := by
      intro l hl
      induction l with
      | nil => rfl
      | cons j rest ih =>
        rw [List.flatMap_cons, List.flatMap_cons, ih fun k hk => hl k (by simp [hk])]
        have := hl j (by simp)
        rw [bitsOfByte_byteOfBits (by simp; omega)]
    rw [range_flatMap_chunks (ceilDiv b.length 8) ext hext]
    rw [hcong _ fun j hj => List.mem_range.mp hj]
    exact range_flatMap_chunks (ceilDiv b.length 8) ext hext
  simp only [unpackBits, hdata]
  simp [ext]

/-! ### Runs and pairs -/

theorem expand_runs (src : List Symbol) : expandPairs (runs src) = src := by
  induction src with
  | nil => rfl
  | cons v rest ih =>
    simp only [runs]
    split
    · rename_i h
      rw [h] at ih
      simp [expandPairs] at ih ⊢
      exact ih
    · rename_i u c more h
      rw [h] at ih
      split
      · rename_i hv
        subst hv
        simp only [expandPairs, List.replicate_succ, List.cons_append] at ih ⊢
        rw [ih]
      · simp only [expandPairs] at ih ⊢
        simp [ih]

theorem runs_pos (src : List Symbol) : ∀ p ∈ runs src, 1 ≤ p.2 := by
  induction src with
  | nil => simp [runs]
  | cons v rest ih =>
    simp only [runs]
    split
    · simp
    · rename_i u c more h
      rw [h] at ih
      split
      · intro p hp
        rcases List.mem_cons.mp hp with rfl | hp
        · simp
        · exact ih p (by simp [hp])
      · intro p hp
        rcases List.mem_cons.mp hp with rfl | hp
        · simp
        · exact ih p hp

theorem runs_chain (src : List Symbol) : (runs src).IsChain (fun p q => p.1 ≠ q.1) := by
  induction src with
  | nil => simp [runs]
  | cons v rest ih =>
    simp only [runs]
    split
    · simp
    · rename_i u c more h
      rw [h] at ih
      split
      · rename_i hv
        subst hv
        cases more with
        | nil => simp
        | cons q qs => simpa [List.isChain_cons_cons] using ih
      · rename_i hv
        exact List.isChain_cons_cons.mpr ⟨hv, ih⟩

/-- A run in front of pairs of another value is a pair of its own. -/
theorem runs_replicate {v : Symbol} {c : Nat} {rest : List Symbol} (hc : 1 ≤ c)
    (hv : ∀ q ∈ (runs rest).head?, v ≠ q.1) : runs (List.replicate c v ++ rest) = (v, c) :: runs rest := by
  induction c with
  | zero => omega
  | succ c ih =>
    rw [List.replicate_succ, List.cons_append]
    cases c with
    | zero =>
      simp only [List.replicate_zero, List.nil_append, runs]
      cases hr : runs rest with
      | nil => rfl
      | cons q qs =>
        have := hv q (by simp [hr])
        simp [this]
    | succ c =>
      have h := ih (by omega)
      simp [runs, h]

/-- The pairs of a stream that meets the pair invariant are the runs of what it expands to (R144). -/
theorem runs_expand {ps : List (Symbol × Nat)} (hpos : ∀ p ∈ ps, 1 ≤ p.2) (hch : ps.IsChain (fun p q => p.1 ≠ q.1)) :
    runs (expandPairs ps) = ps := by
  induction ps with
  | nil => rfl
  | cons p rest ih =>
    obtain ⟨v, c⟩ := p
    have htail : rest.IsChain (fun p q => p.1 ≠ q.1) := by
      cases rest with
      | nil => simp
      | cons q qs => exact (List.isChain_cons_cons.mp hch).2
    have hr := ih (fun p hp => hpos p (by simp [hp])) htail
    simp only [expandPairs]
    rw [runs_replicate (hpos (v, c) (by simp)), hr]
    rw [hr]
    cases rest with
    | nil => simp
    | cons q qs =>
      intro q' hq'
      simp at hq'
      subst hq'
      exact (List.isChain_cons_cons.mp hch).1

theorem runs_replicate_length (v : Symbol) (c : Nat) (rest : List Symbol) :
    (runs (List.replicate c v ++ rest)).length ≤ 1 + (runs rest).length ∧
      (c = 0 → (runs (List.replicate c v ++ rest)).length = (runs rest).length) := by
  cases c with
  | zero => simp
  | succ c =>
    refine ⟨?_, by simp⟩
    cases hr : runs rest with
    | nil =>
      have h := runs_replicate (v := v) (c := c + 1) (rest := rest) (by omega) (by simp [hr])
      rw [h, hr]; simp
    | cons q qs =>
      by_cases hq : v = q.1
      · subst hq
        have : ∀ c, runs (List.replicate c q.1 ++ rest) = (q.1, q.2 + c) :: qs := by
          intro c
          induction c with
          | zero => simpa using hr
          | succ c ih => rw [List.replicate_succ, List.cons_append]; simp [runs, ih, Nat.add_assoc]
        rw [this]; simp
      · have h := runs_replicate (v := v) (c := c + 1) (rest := rest) (by omega) (by simp [hr]; exact hq)
        rw [h, hr]; simp

/-- Expanding pairs never gives more runs than there were pairs (R144). -/
theorem runs_expand_length (ps : List (Symbol × Nat)) : (runs (expandPairs ps)).length ≤ ps.length := by
  induction ps with
  | nil => simp [expandPairs, runs]
  | cons p rest ih =>
    have := (runs_replicate_length p.1 p.2 (expandPairs rest)).1
    simp only [expandPairs, List.length_cons]
    omega

theorem flattenPairs_eq (ps : List (Symbol × Nat)) : flattenPairs ps = ps.flatMap fun p => [p.1, BitVec.ofNat 32 p.2] := by
  induction ps with
  | nil => rfl
  | cons p rest ih => simp [flattenPairs, ih]

theorem flattenPairs_length (ps : List (Symbol × Nat)) : (flattenPairs ps).length = 2 * ps.length := by
  induction ps with
  | nil => rfl
  | cons p rest ih => simp [flattenPairs, ih]; omega

theorem expandPairs_eq (ps : List (Symbol × Nat)) : expandPairs ps = ps.flatMap fun p => List.replicate p.2 p.1 := by
  induction ps with
  | nil => rfl
  | cons p rest ih => simp [expandPairs, ih]

theorem totalCount_eq (ps : List (Symbol × Nat)) : totalCount ps = (expandPairs ps).length := by
  induction ps with
  | nil => rfl
  | cons p rest ih => simp [totalCount, expandPairs, ih]

theorem pairsOf_flat (ps : List (Symbol × Word)) :
    pairsOf (ps.flatMap fun p => [p.1, p.2]) = ps.map fun p => (p.1, p.2.toNat) := by
  induction ps with
  | nil => rfl
  | cons p rest ih => simp [pairsOf, ih]

/-! ### Codewords and paths -/

theorem codeFor_eq_some {table : CodeTable} (h : (table.map CodeEntry.sym).Nodup) {x : Symbol} {c : BitString} :
    codeFor table x = some c ↔ (⟨x, c⟩ : CodeEntry) ∈ table := by
  induction table with
  | nil => simp [codeFor]
  | cons e rest ih =>
    simp only [List.map_cons, List.nodup_cons] at h
    obtain ⟨s, k⟩ := e
    simp only [codeFor, List.mem_cons, CodeEntry.mk.injEq]
    split
    · rename_i hs
      subst hs
      constructor
      · intro hk; cases hk; exact .inl ⟨rfl, rfl⟩
      · rintro (⟨-, hk⟩ | hm)
        · rw [hk]
        · exact absurd (List.mem_map.mpr ⟨_, hm, rfl⟩) h.1
    · rename_i hs
      rw [ih h.2]
      constructor
      · exact .inr
      · rintro (⟨hk, -⟩ | hm)
        · exact absurd hk.symm hs
        · exact hm

theorem codeFor_eq_none {table : CodeTable} {x : Symbol} : codeFor table x = none ↔ x ∉ table.map CodeEntry.sym := by
  induction table with
  | nil => simp [codeFor]
  | cons e rest ih =>
    simp only [codeFor, List.map_cons, List.mem_cons, not_or]
    split
    · rename_i hs
      simp [hs]
    · rename_i hs
      rw [ih]
      exact ⟨fun h => ⟨fun he => hs he.symm, h⟩, fun h => h.2⟩

/-- The loop of HUF_ENC concatenates the codewords of its symbols (R200). -/
theorem encodeFrom_value {table : CodeTable} {i : Nat} {src : List Symbol} {cs : List BitString}
    (hcs : List.Forall₂ (fun x c => codeFor table x = some c) src cs) : encodeFrom table i src = .value cs.flatten := by
  induction hcs generalizing i with
  | nil => rfl
  | cons hx hrest ih => simp [encodeFrom, hx, ih]

/-- The loop of HUF_ENC raises at the first symbol without a codeword (R200). -/
theorem encodeFrom_unknown {table : CodeTable} {i k : Nat} {src : List Symbol} {x : Symbol} (hx : src[k]? = some x)
    (hno : codeFor table x = none) (hbefore : ∀ j, j < k → ∀ y, src[j]? = some y → ∃ c, codeFor table y = some c) :
    encodeFrom table i src = .raise .unknownSymbol (i + k) := by
  induction src generalizing i k with
  | nil => simp at hx
  | cons s rest ih =>
    cases k with
    | zero =>
      simp only [List.getElem?_cons_zero, Option.some.injEq] at hx
      subst hx
      simp [encodeFrom, hno]
    | succ k =>
      obtain ⟨c, hc⟩ := hbefore 0 (by omega) s rfl
      have hr := ih (i := i + 1) (k := k) (by simpa using hx) fun j hj y hy =>
        hbefore (j + 1) (by omega) y (by simpa using hy)
      simp [encodeFrom, hc, hr, show i + 1 + k = i + (k + 1) by omega]

/-- Walking the bits of a path to a leaf emits the leaf and goes back to the root (R201). -/
theorem decodeLoop_path {root l r : Node} {c rest : BitString} {start k : Nat} {x : Symbol}
    (h : (Node.inner l r).follow c = some (.leaf x)) :
    decodeLoop root (.inner l r) start k (c ++ rest) =
      (decodeLoop root root (k + c.length) (k + c.length) rest).bind fun out => .value (x :: out) := by
  induction c generalizing l r k with
  | nil => simp [Node.follow] at h
  | cons b c ih =>
    have hch : (Node.inner l r).child b = if b then r else l := rfl
    have hf : (if b then r else l).follow c = some (.leaf x) := by cases b <;> simpa [Node.follow] using h
    rw [List.cons_append, decodeLoop, hch]
    cases hn : (if b then r else l) with
    | leaf s =>
      rw [hn] at hf
      cases c with
      | nil => simp [Node.follow] at hf; subst hf; simp
      | cons b' c => simp [Node.follow] at hf
    | inner l' r' =>
      rw [hn] at hf
      simp only
      rw [ih hf]
      simp only [List.length_cons, show k + 1 + c.length = k + (c.length + 1) by omega]

/-- Bits that end at an inner node leave the walk unfinished (R201). -/
theorem decodeLoop_unfinished {root l r u v : Node} {q : BitString} {start k : Nat} (hk : start ≤ k)
    (h : (Node.inner l r).follow q = some (.inner u v)) :
    decodeLoop root (.inner l r) start k q =
      if start < k + q.length then .raise .corruptStream start else .value [] := by
  induction q generalizing l r k with
  | nil => rfl
  | cons b q ih =>
    have hch : (Node.inner l r).child b = if b then r else l := rfl
    have hf : (if b then r else l).follow q = some (.inner u v) := by cases b <;> simpa [Node.follow] using h
    rw [decodeLoop, hch]
    cases hn : (if b then r else l) with
    | leaf s =>
      rw [hn] at hf
      cases q <;> simp [Node.follow] at hf
    | inner l' r' =>
      rw [hn] at hf
      simp only
      rw [ih (by omega) hf]
      simp only [List.length_cons, show k + 1 + q.length = k + (q.length + 1) by omega]

/-- The decoder emits one symbol a path, and then stops where the bits end (R201). -/
theorem decodeLoop_paths {l r u v : Node} {xs : List Symbol} {cs : List BitString} {rest : BitString} {k : Nat}
    (hcs : List.Forall₂ (fun x c => (Node.inner l r).follow c = some (.leaf x)) xs cs)
    (hrest : (Node.inner l r).follow rest = some (.inner u v)) :
    decodeLoop (.inner l r) (.inner l r) k k (cs.flatten ++ rest) =
      if rest = [] then .value xs else .raise .corruptStream (k + cs.flatten.length) := by
  induction hcs generalizing k with
  | nil =>
    rw [List.flatten_nil, List.nil_append, decodeLoop_unfinished (Nat.le_refl k) hrest]
    cases rest with
    | nil => simp
    | cons b q => simp
  | @cons x c xs cs hx hcs' ih =>
    rw [List.flatten_cons, List.append_assoc, decodeLoop_path hx, ih]
    split
    · rfl
    · simp [Nat.add_assoc]

/-- One bit more on a path leads to a child. -/
theorem follow_append_one {n a b : Node} {p : BitString} {d : Bool} (h : n.follow p = some (.inner a b)) :
    n.follow (p ++ [d]) = some (if d then b else a) := by
  induction p generalizing n with
  | nil =>
    simp only [Node.follow, Option.some.injEq] at h
    subst h
    cases d <;> simp [Node.follow]
  | cons e p ih =>
    cases n with
    | leaf s => simp [Node.follow] at h
    | inner l r =>
      rw [List.cons_append]
      cases e <;> simp only [Node.follow, Bool.false_eq_true, if_false, if_true] at h ⊢ <;> exact ih h

/-- With an inner root every bit string is paths to leaves followed by a path that ends at an inner node (R201). -/
theorem exists_paths (l r : Node) (bits : BitString) :
    ∃ (xs : List Symbol) (cs : List BitString) (rest : BitString), bits = cs.flatten ++ rest ∧
      List.Forall₂ (fun x c => (Node.inner l r).follow c = some (.leaf x)) xs cs ∧
      ∃ u v, (Node.inner l r).follow rest = some (.inner u v) := by
  -- walk on from any inner node `inner a b` that the bits `p` lead to from the root
  have walk : ∀ (bits p : BitString) (a b : Node), (Node.inner l r).follow p = some (.inner a b) →
      ∃ (xs : List Symbol) (cs : List BitString) (rest : BitString), p ++ bits = cs.flatten ++ rest ∧
        List.Forall₂ (fun x c => (Node.inner l r).follow c = some (.leaf x)) xs cs ∧
        ∃ u v, (Node.inner l r).follow rest = some (.inner u v) := by
    intro bits
    induction bits with
    | nil => intro p a b hp; exact ⟨[], [], p, by simp, .nil, a, b, hp⟩
    | cons d bits ih =>
      intro p a b hp
      have hstep := follow_append_one hp (d := d)
      cases hc : (if d then b else a) with
      | leaf x =>
        rw [hc] at hstep
        obtain ⟨xs, cs, rest, h1, h2, h3⟩ := ih [] l r rfl
        refine ⟨x :: xs, (p ++ [d]) :: cs, rest, ?_, .cons hstep h2, h3⟩
        rw [List.nil_append] at h1
        simp [h1]
      | inner u v =>
        rw [hc] at hstep
        obtain ⟨xs, cs, rest, h1, h2, h3⟩ := ih (p ++ [d]) u v hstep
        exact ⟨xs, cs, rest, by simpa using h1, h2, h3⟩
  simpa using walk bits [] l r rfl

end Sys2Proof.Machine
end

