-- ==== Sys2Proof/Laws/Commands.lean ====
section
/-! SUPPORT. From the end of a command's rule to what a claim says of the command: its results or its error, and its frame. -/

namespace Sys2Proof.Machine

/-- What every end with results leaves alone: all but the destination, and the registers completion writes. -/
theorem endingOf_ok_frame {s u : State} {i : Instr} (h : endingOf s i = .ok u) :
    s.SameControl u ∧ u.status = s.status ∧ s.SameExcept u (destOf i) := by
  have key : ∀ {α : Type} {store : α → State → State} {r : Eval α}, r.ending store s = .ok u → ∃ a, u = store a s := by
    intro α store r hr
    cases r with
    | value a => exact ⟨a, by simpa [Eval.ending] using hr.symm⟩
    | raise e info => cases hr
    | stop f => cases hr
  cases i with
  | hufDec d => obtain ⟨a, rfl⟩ := key h; cases d <;> exact ⟨⟨rfl, rfl, rfl, rfl, rfl⟩, rfl, rfl, rfl, rfl, rfl⟩
  | rleEnc b d => obtain ⟨a, rfl⟩ := key h; cases d <;> exact ⟨⟨rfl, rfl, rfl, rfl, rfl⟩, rfl, rfl, rfl, rfl, rfl⟩
  | rleDec b d => obtain ⟨a, rfl⟩ := key h; cases d <;> exact ⟨⟨rfl, rfl, rfl, rfl, rfl⟩, rfl, rfl, rfl, rfl, rfl⟩
  | buildTree b => obtain ⟨a, rfl⟩ := key h; exact ⟨⟨rfl, rfl, rfl, rfl, rfl⟩, rfl, rfl, rfl⟩
  | treeLoad => obtain ⟨a, rfl⟩ := key h; exact ⟨⟨rfl, rfl, rfl, rfl, rfl⟩, rfl, rfl, rfl⟩
  | deriveCodes => obtain ⟨a, rfl⟩ := key h; exact ⟨⟨rfl, rfl, rfl, rfl, rfl⟩, rfl, rfl, rfl, rfl⟩
  | treeStore => obtain ⟨a, rfl⟩ := key h; exact ⟨⟨rfl, rfl, rfl, rfl, rfl⟩, rfl, rfl, rfl, rfl, rfl⟩
  | hufEnc b => obtain ⟨a, rfl⟩ := key h; exact ⟨⟨rfl, rfl, rfl, rfl, rfl⟩, rfl, rfl, rfl, rfl, rfl⟩
  | pack => obtain ⟨a, rfl⟩ := key h; exact ⟨⟨rfl, rfl, rfl, rfl, rfl⟩, rfl, rfl, rfl, rfl, rfl⟩
  | unpack => obtain ⟨a, rfl⟩ := key h; exact ⟨⟨rfl, rfl, rfl, rfl, rfl⟩, rfl, rfl, rfl, rfl, rfl⟩

/-- Voiding a destination leaves everything else alone (R106 (a)). -/
theorem voidDest_frame (d : Dest) (s : State) :
    s.SameControl (s.voidDest d) ∧ (s.voidDest d).status = s.status ∧ s.SameExcept (s.voidDest d) d := by
  cases d with
  | sym b => cases b <;> exact ⟨⟨rfl, rfl, rfl, rfl, rfl⟩, rfl, rfl, rfl, rfl, rfl⟩
  | bits => exact ⟨⟨rfl, rfl, rfl, rfl, rfl⟩, rfl, rfl, rfl, rfl, rfl⟩
  | bytes => exact ⟨⟨rfl, rfl, rfl, rfl, rfl⟩, rfl, rfl, rfl, rfl, rfl⟩
  | tser => exact ⟨⟨rfl, rfl, rfl, rfl, rfl⟩, rfl, rfl, rfl, rfl, rfl⟩
  | tree => exact ⟨⟨rfl, rfl, rfl, rfl, rfl⟩, rfl, rfl, rfl⟩
  | code => exact ⟨⟨rfl, rfl, rfl, rfl, rfl⟩, rfl, rfl, rfl, rfl⟩

/-- A voided destination is void (R106 (b) to (d)). -/
theorem voidDest_voided (d : Dest) (s : State) : (s.voidDest d).Voided d := by
  cases d with
  | sym b => cases b <;> exact ⟨rfl, fun _ => rfl⟩
  | bits => exact ⟨rfl, fun _ => rfl⟩
  | bytes => exact ⟨rfl, fun _ => rfl⟩
  | tser => exact ⟨rfl, fun _ => rfl, fun _ => rfl⟩
  | tree => exact ⟨rfl, rfl⟩
  | code => rfl

/-- Completion changes the status, `ERR_INFO` and the command in flight, so it keeps any frame. -/
theorem complete_frame {s u : State} {d : Dest} (e : ResultCode) (info : Nat) (hc : s.SameControl u) (hx : s.SameExcept u d) :
    s.SameControl (u.complete e info) ∧ s.SameExcept (u.complete e info) d := by
  refine ⟨hc, ?_⟩
  cases d with
  | sym b => cases b <;> exact hx
  | _ => exact hx

theorem complete_voided {u : State} {d : Dest} (e : ResultCode) (info : Nat) (hv : u.Voided d) :
    (u.complete e info).Voided d := by
  cases d with
  | _ => exact hv

/-- A command whose rule ends with results succeeds. -/
theorem succeeds_of_ending {i : Instr} {s u : State} {P : State → Prop} (hw : i.wellFormed = true) (h : endingOf s i = .ok u)
    (hP : P (u.complete .ok 0)) : Succeeds i s P := by
  obtain ⟨hc, hs, hx⟩ := endingOf_ok_frame h
  obtain ⟨hc', hx'⟩ := complete_frame .ok 0 hc hx
  refine ⟨u.complete .ok 0, by rw [exec_eq, hw, h]; rfl, ⟨?_, rfl, rfl⟩, hc', hx', hP⟩
  simp [State.complete, hs]

/-- A command whose rule ends with an error fails with it. -/
theorem fails_of_ending {i : Instr} {s : State} {e : ResultCode} {info : Nat} (hw : i.wellFormed = true) (he : e ≠ .ok)
    (h : endingOf s i = .error e info) : FailsWith i s e info := by
  obtain ⟨hc, hs, hx⟩ := voidDest_frame (destOf i) s
  obtain ⟨hc', hx'⟩ := complete_frame e info hc hx
  refine ⟨s.completeWithError (destOf i) e info, by rw [exec_eq, hw, h]; rfl, ⟨?_, ?_, rfl⟩, hc', hx',
    complete_voided e info (voidDest_voided _ _)⟩
  · simp [State.completeWithError, State.complete]
  · simp [State.completeWithError, State.complete, he]

/-- A command that answers a next state has ended with results or with an error, or spells no command. -/
theorem exec_eq_next {i : Instr} {s t : State} (h : exec i s = .next t) :
    (i.wellFormed = true ∧ ∃ u, endingOf s i = .ok u ∧ t = u.complete .ok 0) ∨
      (i.wellFormed = true ∧ ∃ e info, endingOf s i = .error e info ∧ t = s.completeWithError (destOf i) e info) ∨
        (i.wellFormed = false ∧ t = s.completeIllegal) := by
  rw [exec_eq] at h
  cases hw : i.wellFormed with
  | false => rw [hw] at h; exact .inr (.inr ⟨rfl, by simpa using h.symm⟩)
  | true =>
    rw [hw, if_pos rfl] at h
    cases he : endingOf s i with
    | ok u => rw [he] at h; exact .inl ⟨rfl, u, rfl, by simpa using h.symm⟩
    | error e info => rw [he] at h; exact .inr (.inl ⟨rfl, e, info, rfl, by simpa using h.symm⟩)
    | stop f => rw [he] at h; cases h

/-- A word of the state's registers holds a length within the capacities (R31 to R34). -/
theorem toNat_ofNat_le {n m : Nat} (h : n ≤ m) (hm : m < 2 ^ 32) : (BitVec.ofNat 32 n).toNat = n := by
  rw [BitVec.toNat_ofNat]; exact Nat.mod_eq_of_lt (by omega)

end Sys2Proof.Machine
end

