-- ==== Sys2Proof/Laws/PerInstr.lean ====
section
/-! SUPPORT. Facts about every instruction as a term, one lemma a constructor. -/

namespace Sys2Proof.Laws.EncodedLegal

/-- The word of a term is legal exactly when the term is well formed (30_encoding.md R83). -/
def Statement (i : Instr) : Prop := legal (encode i) = i.wellFormed

theorem buildTree (s : SymBuf) : Statement (.buildTree s) := by cases s <;> rfl

theorem treeStore : Statement .treeStore := rfl

theorem treeLoad : Statement .treeLoad := rfl

theorem deriveCodes : Statement .deriveCodes := rfl

theorem hufEnc (s : SymBuf) : Statement (.hufEnc s) := by cases s <;> rfl

theorem hufDec (d : SymBuf) : Statement (.hufDec d) := by cases d <;> rfl

theorem rleEnc (s d : SymBuf) : Statement (.rleEnc s d) := by cases s <;> cases d <;> rfl

theorem rleDec (s d : SymBuf) : Statement (.rleDec s d) := by cases s <;> cases d <;> rfl

theorem pack : Statement .pack := rfl

theorem unpack : Statement .unpack := rfl

end Sys2Proof.Laws.EncodedLegal
end

