-- ==== Sys2Proof/Machine/Assembler.lean ====
section
/-! DEFINITION. The written form of commands (30_encoding.md R87): lower case, operands separated by a comma and a space, a `;`
starting a comment. -/

namespace Sys2Proof.Machine

/-- A line of text, as characters. -/
abbrev Text := List Char

/-- `s<b>` (R87). -/
def sourceText : SymBuf → Text
  | .sym0 => ['s', '0']
  | .sym1 => ['s', '1']

/-- `d<b>` (R87). -/
def destText : SymBuf → Text
  | .sym0 => ['d', '0']
  | .sym1 => ['d', '1']

/-- The written form of a command (R87). -/
def commandText : Instr → Text
  | .buildTree s => "build_tree ".toList ++ sourceText s
  | .treeStore => "tree_store".toList
  | .treeLoad => "tree_load".toList
  | .deriveCodes => "derive_codes".toList
  | .hufEnc s => "huf_enc ".toList ++ sourceText s
  | .hufDec d => "huf_dec ".toList ++ destText d
  | .rleEnc s d => "rle_enc ".toList ++ sourceText s ++ [',', ' '] ++ destText d
  | .rleDec s d => "rle_dec ".toList ++ sourceText s ++ [',', ' '] ++ destText d
  | .pack => "pack".toList
  | .unpack => "unpack".toList

/-- The fifteen commands that have a written form: those of the words of R84, in its order. -/
def writableCommands : List Instr :=
  [.buildTree .sym0, .buildTree .sym1, .treeStore, .treeLoad, .deriveCodes, .hufEnc .sym0, .hufEnc .sym1, .hufDec .sym0,
    .hufDec .sym1, .rleEnc .sym0 .sym1, .rleEnc .sym1 .sym0, .rleDec .sym0 .sym1, .rleDec .sym1 .sym0, .pack, .unpack]

/-- A line without its comment (R87) and without the blanks around it. That blanks may stand there, and that only a space is one, is the
model's choice (DESIGN CHOICE, log entry 20). -/
def bareLine (line : Text) : Text :=
  ((line.takeWhile (fun c => c != ';')).dropWhile (fun c => c == ' ')).reverse.dropWhile (fun c => c == ' ') |>.reverse

/-- A digit in the given base (R9). A hexadecimal digit above 9 may be written in either letter case, which is the model's choice: R9
names only the prefix, R87 has commands in lower case, and the spec's own numerals are in upper case (DESIGN CHOICE, log entry 20). -/
def digitValue (base : Nat) (c : Char) : Option Nat :=
  let n := c.toNat
  let v := if 48 ≤ n ∧ n ≤ 57 then n - 48 else if 65 ≤ n ∧ n ≤ 70 then n - 55 else if 97 ≤ n ∧ n ≤ 102 then n - 87 else base
  if v < base then some v else none

/-- The number its digits spell. Where an underscore may stand is the model's choice, R9 and R87 being silent: anywhere after the base,
leading, trailing, repeated or alone, and it is skipped, so `_` and `0x_` are 0 (DESIGN CHOICE, log entry 20). -/
def numberFrom (base : Nat) : Nat → Text → Option Nat
  | n, [] => some n
  | n, c :: rest =>
    if c = '_' then numberFrom base n rest
    else
      match digitValue base c with
      | some v => numberFrom base (n * base + v) rest
      | none => none

/-- A numeral: `0x` hexadecimal, `0b` binary, otherwise decimal (R9), the prefix in lower case as R9 writes it. Zeros may lead, in any
base, which is the model's choice (DESIGN CHOICE, log entry 20). -/
def numeral : Text → Option Nat
  | [] => none
  | '0' :: 'x' :: c :: rest => numberFrom 16 0 (c :: rest)
  | '0' :: 'b' :: c :: rest => numberFrom 2 0 (c :: rest)
  | c :: rest => numberFrom 10 0 (c :: rest)

/-- The characters of the raw form, `.word <value>`: one space before the value, as R87 writes it. -/
def rawForm : Text := ".word ".toList

/-- The word a line spells: a command's, or the value of `.word`; `none` where an assembler refuses the line (R87). A line that is blank
or only a comment spells no word and has the same answer, which is the model's choice, R87 not saying whether an assembler skips or
refuses it; so is refusing a value of more than 32 bits, which is no word, rather than cutting it (DESIGN CHOICE, log entry 20). -/
def assembleLine (line : Text) : Option Word :=
  let bare := bareLine line
  if bare.take rawForm.length = rawForm then
    match numeral (bare.drop rawForm.length) with
    | some n => if n < 2 ^ 32 then some (BitVec.ofNat 32 n) else none
    | none => none
  else (writableCommands.find? (fun i => decide (commandText i = bare))).map encode

end Sys2Proof.Machine
end

