-- ==== Sys2Proof/Tests/Slice0.lean ====
section
/-! SUPPORT. Tests: the checks of WellFormed, words written out from R80 and R82, one step of each command against the vectors of
95_test_vectors.md, the bus, and for every statement with hypotheses a concrete state that meets them. -/

namespace Sys2Proof.Tests

open Sys2Proof Sys2Proof.Machine

/-! ### Small states -/

/-- The state a step answers. -/
def after : Host.Outcome State Fault Refusal → Option State
  | .next s => some s
  | .fault _ => none
  | .refused _ => none

/-- The answer of a step and what it holds, `none` when it stops. -/
def look {α : Type} (o : Host.Outcome State Fault Refusal) (f : State → α) : Option α := (after o).map f

/-- `STATUS.ERR` and `ERR_INFO`. -/
def verdict (s : State) : ResultCode × Nat := (s.status.err, s.errInfo.toNat)

/-- Reset plus SYM0. -/
def withSym0 (xs : List Symbol) : State := State.reset.storeSyms .sym0 xs

/-- Reset plus SYM1. -/
def withSym1 (xs : List Symbol) : State := State.reset.storeSyms .sym1 xs

/-- Reset plus BITS, without the fill. -/
def withBits (bs : BitString) : State :=
  { State.reset with mem := { bits := Store.number 0 bs }, lens := { bits := BitVec.ofNat 32 bs.length } }

/-- Reset plus BYTES, without the fill. -/
def withBytes (bs : List Byte) : State :=
  { State.reset with mem := { bytes := Store.number 0 bs }, lens := { bytes := BitVec.ofNat 32 bs.length } }

/-- Reset plus TSER. -/
def withTser (es : List (Word × Word)) : State := State.reset.storeTser es

/-- A bit string from its digits, first digit first. -/
def digits (ds : List Nat) : BitString := ds.map (· == 1)

/-- The tree of T1, and its code table C1. -/
def t1 : Tree := .root (.inner (.leaf 3) (.inner (.leaf 1) (.leaf 5)))

def c1 : CodeTable := [⟨3, [false]⟩, ⟨1, [true, false]⟩, ⟨5, [true, true]⟩]

/-- An idle block that holds T1 and C1. -/
def holding (s : State) : State := { s with tree := some t1, code := some c1 }

/-- The smallest capacities worth a boundary: 4 symbols, 32 bits, 2 leaves, so 5 bytes and 3 TSER entries. -/
def tiny : Config := { maxSyms := 4, maxBits := 32, maxAlpha := 2 }

/-- The largest build of R7, on a platform base. -/
def huge : Config := { maxSyms := 4194304, maxBits := 67108864, maxAlpha := 65535, platformBase := 0x80000000#32 }

/-- A state on the tiny build. -/
def small (s : State) : State := { s with cfg := tiny }

/-- A block with this command word in flight. -/
def running (w : Word) (s : State) : State := s.accept w

/-! ### WellFormed: the one check refuses its ill-formed terms -/

theorem test_wf_rleEnc_refused :
    Instr.wellFormed (.rleEnc .sym0 .sym0) = false ∧ Instr.wellFormed (.rleEnc .sym1 .sym1) = false := by decide

theorem test_wf_rleDec_refused :
    Instr.wellFormed (.rleDec .sym0 .sym0) = false ∧ Instr.wellFormed (.rleDec .sym1 .sym1) = false := by decide

theorem test_wf_rle_accepted :
    Instr.wellFormed (.rleEnc .sym0 .sym1) = true ∧ Instr.wellFormed (.rleDec .sym1 .sym0) = true := by decide

/-! ### Decoding: words written from R80's fields (RSV, D, S, OP) and R82's opcodes -/

theorem test_decode_buildTree :
    decode 0b0000000000000000000000_0_0_00000001#32 = some (.buildTree .sym0) ∧
      decode 0b0000000000000000000000_0_1_00000001#32 = some (.buildTree .sym1) := by decide

theorem test_decode_treeStore : decode 0b0000000000000000000000_0_0_00000010#32 = some .treeStore := by decide

theorem test_decode_treeLoad : decode 0b0000000000000000000000_0_0_00000011#32 = some .treeLoad := by decide

theorem test_decode_deriveCodes : decode 0b0000000000000000000000_0_0_00000100#32 = some .deriveCodes := by decide

theorem test_decode_hufEnc :
    decode 0b0000000000000000000000_0_0_00000101#32 = some (.hufEnc .sym0) ∧
      decode 0b0000000000000000000000_0_1_00000101#32 = some (.hufEnc .sym1) := by decide

theorem test_decode_hufDec :
    decode 0b0000000000000000000000_0_0_00000110#32 = some (.hufDec .sym0) ∧
      decode 0b0000000000000000000000_1_0_00000110#32 = some (.hufDec .sym1) := by decide

theorem test_decode_rleEnc :
    decode 0b0000000000000000000000_1_0_00000111#32 = some (.rleEnc .sym0 .sym1) ∧
      decode 0b0000000000000000000000_0_1_00000111#32 = some (.rleEnc .sym1 .sym0) := by decide

theorem test_decode_rleDec :
    decode 0b0000000000000000000000_1_0_00001000#32 = some (.rleDec .sym0 .sym1) ∧
      decode 0b0000000000000000000000_0_1_00001000#32 = some (.rleDec .sym1 .sym0) := by decide

theorem test_decode_pack : decode 0b0000000000000000000000_0_0_00001001#32 = some .pack := by decide

theorem test_decode_unpack : decode 0b0000000000000000000000_0_0_00001010#32 = some .unpack := by decide

/-- L2.6: the illegal words, each with its case of R85. -/
theorem test_decode_illegal :
    [0x00000000#32, 0x0000000B#32, 0x000000FF#32, 0x00000401#32, 0x80000004#32, 0x00000201#32, 0x00000106#32, 0x00000102#32,
        0x00000007#32, 0x00000307#32, 0x00000308#32].map (fun w => match decodeWord w with | .error e => some e | .ok _ => none) =
      [some .zeroOpcode, some .reservedOpcode, some .reservedOpcode, some .reservedBits, some .reservedBits, some .unusedField,
        some .unusedField, some .unusedField, some .sameBuffer, some .sameBuffer, some .sameBuffer] := by decide

/-- The host's numbering: the first word's bit 0 is bit 0. -/
theorem test_decodeTableWord :
    decodeTableWord 32 0x207 = some (.rleEnc .sym0 .sym1) ∧ decodeTableWord 32 0x400 = none ∧ decodeTableWord 8 0x09 = none := by
  decide

/-- R87: the text of the fifteen commands assembles to the words of R84; the raw form spells any word. -/
theorem test_assemble :
    assembleLine "rle_enc s0, d1 ; a comment".toList = some 0x207#32 ∧
      assembleLine ".word 0x0000_0307".toList = some 0x307#32 ∧ assembleLine "rle_enc s0, d0".toList = none := by decide

/-! ### One step of each command (95_test_vectors.md; the vector is in the comment) -/

/-- T1. -/
theorem test_buildTree_t1 :
    look (exec (.buildTree .sym0) (withSym0 [3, 3, 3, 5, 5, 1])) (fun s => (s.tree, s.treeStatWord, verdict s)) =
      some (some t1, 0x00030009#32, .ok, 0) := by decide

/-- T8: symbols sort as unsigned numbers. -/
theorem test_buildTree_t8 :
    look (exec (.buildTree .sym0) (withSym0 [0x80000000, 1])) (fun s => s.tree) =
      some (some (.root (.inner (.leaf 1) (.leaf 0x80000000)))) := by decide

/-- T11. -/
theorem test_treeStore_t11 :
    look (exec .treeStore { State.reset with tree := some t1 })
        (fun s => (s.mem.tserTag.map Prod.snd, s.mem.tserSym.map Prod.snd, s.tserLen)) =
      some ([0, 1, 0, 1, 1], [0, 3, 0, 1, 5], 5) := by decide

/-- T14. -/
theorem test_treeStore_t14 : look (exec .treeStore State.reset) verdict = some (.notReady, 0) := by decide

/-- T16: the inner node's sym word is ignored. -/
theorem test_treeLoad_t16 :
    look (exec .treeLoad (withTser [(0, 0xDEAD), (1, 1), (1, 2)])) (fun s => (s.tree, s.treeStatWord)) =
      some (some (.root (.inner (.leaf 1) (.leaf 2))), 0x00020009#32) := by decide

/-- T17 to T23. -/
theorem test_treeLoad_errors :
    [[(0, 0), (1, 1)], [(1, 1), (1, 2)], [(2, 0)], [(0, 0), (1, 5), (1, 5)], [(0, 7)], [(0, 0), (1, 1), (7, 0)],
        [(0, 0), (1, 1), (1, 2), (5, 5)]].map (fun es => look (exec .treeLoad (withTser es)) verdict) =
      [2, 1, 0, 2, 1, 2, 3].map (fun info => some (ResultCode.invalidFormat, info)) := by decide

/-- C1. -/
theorem test_deriveCodes_c1 :
    look (exec .deriveCodes { State.reset with tree := some t1 }) (fun s => (s.code, s.treeStatWord, s.codeCount)) =
      some (some c1, 0x0003000B#32, 3) := by decide

/-- C6: a single leaf has the codeword "0". -/
theorem test_deriveCodes_c6 :
    look (exec .deriveCodes { State.reset with tree := some (.root (.leaf 5)) }) (fun s => (s.code, s.treeStatWord)) =
      some (some [⟨5, [false]⟩], 0x00010007#32) := by decide

/-- H1. -/
theorem test_hufEnc_h1 :
    look (exec (.hufEnc .sym0) (holding (withSym0 [3, 3, 3, 5, 5, 1]))) (fun s => (s.bitLen, (sampleBits s.mem.bits 0).known)) =
      some (9, 0x1F000000#32) := by decide

/-- H7. -/
theorem test_hufEnc_h7 :
    look (exec (.hufEnc .sym0) { withSym0 [1, 3] with code := some [⟨1, [false]⟩, ⟨2, [true]⟩] }) verdict =
      some (.unknownSymbol, 1) := by decide

/-- H9. -/
theorem test_hufDec_h9 :
    look (exec (.hufDec .sym1) (holding (withBits (digits [0, 0, 0, 1, 1, 1, 1, 1, 0]))))
        (fun s => (s.mem.sym1.map Prod.snd, s.symLen .sym1)) = some ([3, 3, 3, 5, 5, 1], 6) := by decide

/-- H11. -/
theorem test_hufDec_h11 :
    look (exec (.hufDec .sym1) (holding (withBits (digits [0, 0, 0, 1])))) (fun s => (verdict s, s.symLen .sym1)) =
      some ((.corruptStream, 3), 0) := by decide

/-- E2, its first half. -/
theorem test_rleEnc_e2 :
    look (exec (.rleEnc .sym0 .sym1) (withSym0 [3, 3, 3, 5, 5, 1])) (fun s => (s.mem.sym1.map Prod.snd, s.symLen .sym1)) =
      some ([3, 3, 5, 2, 1, 1], 6) := by decide

/-- R6: the buffers the other way round. -/
theorem test_rleEnc_r6 :
    look (exec (.rleEnc .sym1 .sym0) (withSym1 [1, 1, 2, 2])) (fun s => (s.mem.sym0.map Prod.snd, s.symLen .sym0)) =
      some ([1, 2, 2, 2], 4) := by decide

/-- R10. -/
theorem test_rleDec_r10 :
    look (exec (.rleDec .sym0 .sym1) (withSym0 [4, 2, 4, 1])) (fun s => s.mem.sym1.map Prod.snd) = some [4, 4, 4] := by decide

/-- R14: the sum of the counts does not wrap. -/
theorem test_rleDec_r14 :
    look (exec (.rleDec .sym0 .sym1) (withSym0 [5, 0x80000000, 6, 0x80000000])) verdict = some (.capacityExceeded, 0) := by decide

/-- B4. -/
theorem test_pack_b4 :
    look (exec .pack (withBits (digits [1, 1, 1, 1, 1, 1, 1, 1, 1])))
        (fun s => (s.byteLen, (sampleBytes s.cfg s.mem.bytes 0).known)) = some (3, 0x0080FF07#32) := by decide

/-- B2. -/
theorem test_pack_b2 :
    look (exec .pack (withBits [true])) (fun s => (s.byteLen, (sampleBytes s.cfg s.mem.bytes 0).known)) =
      some (2, 0x00008007#32) := by decide

/-- B16. -/
theorem test_unpack_b16 :
    look (exec .unpack (withBytes [0x02, 0x0A, 0xDC])) (fun s => (s.bitLen, (sampleBits s.mem.bits 0).known)) =
      some (14, 0x0ADC0000#32) := by decide

/-- B7, B11, B13, B14: the checks in their order. -/
theorem test_unpack_errors :
    [withBytes [], withBytes [8, 0], withBytes [3], { State.reset with lens := { bytes := 0xFFFFFFFF } }].map
        (fun s => look (exec .unpack s) verdict) =
      [some (.invalidFormat, 0), some (.invalidFormat, 8), some (.invalidFormat, 3), some (.capacityExceeded, 0)] := by decide

/-- R49, R112: a source entry never written stops the machine, also one after a symbol without a codeword, and one whose value is not
examined. -/
theorem test_unwritten :
    exec .pack { State.reset with lens := { bits := 1 } } = .fault (.unwrittenEntry .bits 0) ∧
      exec (.hufEnc .sym0) { holding (withSym0 [2]) with lens := { sym0 := 2 } } = .fault (.unwrittenEntry (.sym .sym0) 1) ∧
      exec (.hufDec .sym1) { State.reset with tree := some (.root (.leaf 7)), lens := { bits := 3 } } =
        .fault (.unwrittenEntry .bits 0) := ⟨rfl, rfl, rfl⟩

/-- An illegal word in flight (R102). -/
theorem test_illegal_step : look (step (running 0x307#32 (withSym0 [1]))) (fun s => (s.statusWord, s.mem.sym0)) =
    some (0x00000502#32, [(0, 1)]) := by decide

/-! ### The bus (L2.7) -/

theorem test_bus_reset_reads :
    [0x000#32, 0x040#32, 0x044#32, 0x048#32, 0x04C#32, 0x050#32, 0x004#32, 0x008#32, 0x030#32].map
        (fun a => (busRead a State.reset).map Prod.fst) =
      [0x48420007#32, 0x00080000#32, 0x01000000#32, 0x00200001#32, 0x00000400#32, 0x00000020#32, 0#32, 0#32, 0#32].map some := by
  decide

/-- M5, M8, M9, M7. -/
theorem test_bus_errors :
    busRead 0x01000002#32 State.reset = none ∧ busRead 0x01200000#32 State.reset = none ∧
      busRead 0x07000000#32 State.reset = none ∧ busWrite 0x06000000#32 1 State.reset = none := by decide

/-- M10: BYTES word 524288 has one lane. -/
theorem test_bus_lastByte :
    (busWrite 0x04200000#32 0xFFFFFFAB#32 State.reset).map (fun s => (s.mem.bytes, (busRead 0x04200000#32 s).map Prod.fst)) =
      some ([(2097152, 0xAB#8)], some 0x000000AB#32) := by decide

/-- M16. -/
theorem test_bus_busy :
    (busWrite 0x010#32 9 (running 9#32 State.reset)).map (fun s => (s.lens.sym0, s.status.werr)) = some (0, true) := by decide

/-- M15: SRST wins over IE. -/
theorem test_bus_srst : busWrite 0x004#32 3 (running 9#32 (holding (withSym0 [1]))) = some State.reset := by decide

/-- The host's `expect` ends its program when it fails (R88). -/
theorem test_expect_fails :
    (performHostOp (.expect 0x010#32 1#32) { State.reset with env := { pending := [.rd 0x010#32] } }).env =
      { responses := [.data 0#32], failed := true } := by decide

/-- `run unpack -> 1` after reset (E5), and a program that states another result (R89). -/
theorem test_runWordErr :
    [1#4, 0#4].map (fun err => look (core.run 4 { State.reset with env := { pending := runWordErr .default 0x00A#32 err } })
        (fun s : State => (s.statusWord, s.env.responses, s.env.failed))) =
      [some (0x00000100#32, [.ack, .data 0x00000102#32, .ack], false),
        some (0x00000102#32, [.data 0x00000102#32, .ack], true)] := by decide

/-- The word handed over runs in the very next step. -/
theorem test_withFetchWord : look (step (State.reset.withFetchWord 32 0x009)) (fun s => (s.cmdLast, s.statusWord, s.byteLen)) =
    some (0x009#32, 0x00000002#32, 1) := by decide

/-! ### Witnesses: concrete states that meet the hypotheses of each statement, clause by clause, at the edges of the ranges -/

/-- A block that holds T1 and C1 meets the invariant. -/
theorem witness_inv_holding : Inv (holding (withSym0 [3, 3, 3, 5, 5, 1])) where
  cfgLegal := by decide
  memWf := by decide
  busyInflight := rfl
  busyClears := by decide
  cmdInflight := by intro w h; cases h
  errOwn := by decide
  errInfoZero := fun _ _ => rfl
  treeLeaves := by intro t h; cases h; decide
  codeOfTree := by intro c h; cases h; exact ⟨t1, rfl, rfl, by decide⟩

/-- So does one with HUF_ENC in flight. -/
theorem witness_inv_running : Inv (running 5#32 (holding (withSym0 [3, 3, 3, 5, 5, 1]))) where
  cfgLegal := by decide
  memWf := by decide
  busyInflight := rfl
  busyClears := by decide
  cmdInflight := by intro w h; cases h; rfl
  errOwn := by decide
  errInfoZero := fun _ _ => rfl
  treeLeaves := by intro t h; cases h; decide
  codeOfTree := by intro c h; cases h; exact ⟨t1, rfl, rfl, by decide⟩

/-- So does the reset state. -/
theorem witness_inv_reset : Inv State.reset where
  cfgLegal := by decide
  memWf := by decide
  busyInflight := rfl
  busyClears := by decide
  cmdInflight := by intro w h; cases h
  errOwn := by decide
  errInfoZero := fun _ _ => rfl
  treeLeaves := by intro t h; cases h
  codeOfTree := by intro c h; cases h

/-- So does one that holds any tree with distinct leaves, and no code table. -/
theorem witness_inv_tree (t : Tree) (h : t.leaves.Nodup ∧ t.leaves.length ≤ 1024) : Inv { State.reset with tree := some t } where
  cfgLegal := witness_inv_reset.cfgLegal
  memWf := witness_inv_reset.memWf
  busyInflight := rfl
  busyClears := witness_inv_reset.busyClears
  cmdInflight := by intro w h; cases h
  errOwn := witness_inv_reset.errOwn
  errInfoZero := fun _ _ => rfl
  treeLeaves := by intro t' ht; cases ht; exact h
  codeOfTree := by intro c h; cases h

theorem witness_DecodeEncodeAgree :
    Instr.wellFormed (.rleDec .sym1 .sym0) = true ∧ decode 0x0000000A#32 = some .unpack := by decide

theorem witness_StepRunsDecodedCommand :
    let s := running 0x207#32 (withSym0 [1])
    (s.mover = .engine ∧ s.inflight = some 0x207#32 ∧ decode 0x207#32 = some (.rleEnc .sym0 .sym1)) ∧
      State.reset.mover = .host := by decide

theorem witness_IllegalWordHasNoOtherEffect :
    legal 0x307#32 = false ∧ (running 0x307#32 State.reset).mover = .engine ∧
      (running 0x307#32 State.reset).inflight = some 0x307#32 := by decide

theorem witness_ResetEvents : (3#32).getLsbD 1 = true := by decide

/-- The engine's step and the host's, for both statements about every step. -/
theorem witness_StepKeepsInvariant_StepKeepsParameters :
    (after (step (running 5#32 (holding (withSym0 [3, 3, 3, 5, 5, 1]))))).isSome = true ∧
      (after (step { State.reset with env := { pending := [.wr 0x00C#32 5#32] } })).isSome = true := by decide

/-- A command completes; the host resets a busy block. -/
theorem witness_BusyEndsOnlyByCompletionOrReset :
    let s := running 5#32 (holding (withSym0 [3, 3, 3, 5, 5, 1]))
    let r := { s with env := { pending := [.resetInput], turns := [.host] } }
    s.status.busy = true ∧ look (step s) (fun t => t.status.busy) = some false ∧
      r.status.busy = true ∧ look (step r) (fun t => t.status.busy) = some false := by decide

theorem witness_DoneRisesOnlyAtCompletion :
    let s := running 9#32 State.reset
    s.status.done = false ∧ look (step s) (fun t => t.status.done) = some true := by decide

theorem witness_HostTurnWhileBusyKeepsOperands : (running 9#32 State.reset).status.busy = true := by decide

/-- With the completion put off by two turns of the host, and without. -/
theorem witness_CommandsCompleteInBoundedSteps :
    let s := running 9#32 State.reset
    let r := { s with env := { turns := [.host, .host] } }
    s.inflight.isSome = true ∧ r.inflight.isSome = true ∧ look (core.run 3 r) (fun t : State => t.inflight) = some none := by decide

/-- BUILD_TREE, TREE_LOAD and DERIVE_CODES, each completing well and with an error; a command of the last arm. -/
theorem witness_ValidityTransitions :
    [exec (.buildTree .sym0) (withSym0 [1]), exec (.buildTree .sym0) (small (withSym0 [1, 2, 3])), exec .treeLoad (withTser []),
        exec .treeLoad (withTser [(2, 0)]), exec .deriveCodes (holding State.reset), exec .deriveCodes State.reset,
        exec .pack State.reset].map (fun o => look o (fun t => t.status.err)) =
      [some .ok, some .capacityExceeded, some .ok, some .invalidFormat, some .ok, some .notReady, some .ok] ∧
    look (step (running 5#32 (holding (withSym0 [3, 3, 3, 5, 5, 1])))) (fun t => t.code) = some (some c1) := by decide

/-- An idle and a busy block, for the statements about registers and accesses. -/
theorem witness_idle_and_busy : State.reset.status.busy = false ∧ (running 9#32 State.reset).status.busy = true := by decide

/-- The edges of the reserved words. -/
theorem witness_ReservedAndReadOnly :
    [0x030#32, 0x03C#32, 0x054#32, 0xFFC#32].all (fun a => decide (a.toNat % 4 = 0 ∧
      (0x030 ≤ a.toNat ∧ a.toNat ≤ 0x03C ∨ 0x054 ≤ a.toNat ∧ a.toNat ≤ 0xFFC))) = true := by decide

theorem witness_ControlRegister : (1#32).getLsbD 1 = false ∧ (2#32).getLsbD 1 = true := by decide

/-- No tree; the three kinds of tree; no code table; a code table. -/
theorem witness_TreeStatRegister :
    (Inv State.reset ∧ State.reset.status.busy = false ∧ State.reset.tree = none ∧ State.reset.code = none) ∧
      (∀ t ∈ [Tree.empty, .root (.leaf 5), t1], Inv { State.reset with tree := some t }) ∧
      (Inv (holding (withSym0 [3, 3, 3, 5, 5, 1])) ∧ (holding (withSym0 [3, 3, 3, 5, 5, 1])).status.busy = false ∧
        (holding (withSym0 [3, 3, 3, 5, 5, 1])).code = some c1) := by
  refine ⟨⟨witness_inv_reset, rfl, rfl, rfl⟩, ?_, witness_inv_holding, rfl, rfl⟩
  intro t ht
  simp only [List.mem_cons, List.not_mem_nil, or_false] at ht
  rcases ht with rfl | rfl | rfl <;> exact witness_inv_tree _ (by decide)

/-- The smallest capacities used here, the defaults and the largest are all legal. -/
theorem witness_legal : tiny.Legal ∧ Config.default.Legal ∧ huge.Legal := by decide

theorem witness_InterruptOutput :
    (2#32).getLsbD 1 = true ∧ (busWrite 0x008#32 2 State.reset).isSome = true ∧
      ((0#32).getLsbD 1 = false ∧ (0#32).getLsbD 0 = false ∧ (busWrite 0x004#32 0 State.reset).isSome = true) := by decide

/-- A busy block: a dropped write, and reads at the edges of what is hidden. -/
theorem witness_AccessesWhileBusy :
    let s := running 9#32 State.reset
    s.status.busy = true ∧ (busWrite 0x00C#32 1 s).isSome = true ∧ (busWrite 0x004#32 1 s).isSome = true ∧
      (busRead 0x010#32 s).isSome = true ∧ (busRead 0x02C#32 s).isSome = true ∧ (busRead 0x01000000#32 s).isSome = true := by decide

/-- Each bad kind of address, at its first and, on the tiny build, its last good neighbour. -/
theorem witness_BusErrors :
    [0x001#32, 0x1000#32, 0xFFFFFC#32, 0x7000000#32, 0x1000010#32, 0x2000010#32, 0x3000004#32, 0x4000008#32, 0x5000018#32,
        0x6000020#32].all (fun a => decide ((hostRead a 15 (small State.reset)).1 = .busError ∧
          (hostWrite a 0 15 (small State.reset)).1 = .busError)) = true ∧
      (hostRead 0#32 1 (small State.reset)).1 = .busError ∧
      (hostWrite 0x6000000#32 0 15 (small State.reset)).1 = .busError ∧
      [0x000#32, 0xFFC#32, 0x1000000#32, 0x100000C#32, 0x200000C#32, 0x3000000#32, 0x4000004#32, 0x5000014#32].all
        (fun a => decide ((hostWrite a 0 15 (small State.reset)).1 = .ack)) = true := by decide

theorem witness_ReadsHaveNoSideEffect : (busRead 0x01000000#32 (withSym0 [7])).map Prod.fst = some 7#32 := by decide

/-- The last entry of each buffer of the tiny build, written. -/
theorem witness_windows :
    tiny.Legal ∧ 3 < tiny.maxSyms ∧ 0 < tiny.maxBits / 32 ∧ 4 * 1 < tiny.maxBytes ∧ 2 < tiny.maxTser ∧ 1 < tiny.maxAlpha ∧
      ((small (withSym0 [1, 2, 3, 4])).mem.sym .sym0).get? 3 = some 4#32 ∧
      (small (withTser [(0, 0), (1, 1), (1, 2)])).mem.tserTag.get? 2 = some 1#32 ∧
      (small (withTser [(0, 0), (1, 1), (1, 2)])).mem.tserSym.get? 2 = some 2#32 := by decide

theorem witness_BitsWindow :
    ∀ k, k < 32 → (withBits (bitsOfWord 0xA5000001#32)).mem.bits.get? (32 * 0 + k) = some ((0xA5000001#32).getLsbD (31 - k)) := by decide

/-- The last word of the tiny build's BYTES, one lane of it in range. -/
theorem witness_BytesWindow :
    ∀ j, j < 4 → if 4 * 1 + j < tiny.maxBytes
      then (withBytes [1, 2, 3, 4, 5]).mem.bytes.get? (4 * 1 + j) = some ((5#32).extractLsb' (8 * j) 8)
      else (5#32).extractLsb' (8 * j) 8 = 0#8 := by decide

theorem witness_CodeWindow :
    (holding State.reset).code = some c1 ∧ c1[2]? = some ⟨5, [true, true]⟩ ∧ [true, true].length ≤ 32 ∧
      (∀ table ∈ (holding State.reset).code, table.length ≤ 3) := by decide

theorem witness_PackedBufferFormat : 1 < ((digits [1, 1, 1, 1, 1, 1, 1, 1, 1]).length + 7) / 8 := by decide

/-- On the tiny build: one bit too many; a full BITS. -/
theorem witness_PackRule :
    tiny.maxBits < (small { State.reset with lens := { bits := 33 } }).bitLen ∧
      (small (withBits (List.replicate 32 true))).HoldsBits (List.replicate 32 true) ∧
      (List.replicate 32 true).length ≤ tiny.maxBits := by decide

/-- On the tiny build: six bytes; none; a header of 8; a lone header; five bytes with the largest padding; a lone header of 0. -/
theorem witness_UnpackRule :
    tiny.maxBytes < (small { State.reset with lens := { bytes := 6 } }).byteLen ∧
      (withBytes []).byteLen = 0 ∧
      (0 < (small (withBytes [8])).byteLen ∧ (small (withBytes [8])).byteLen ≤ tiny.maxBytes ∧
        (withBytes [8]).mem.bytes.get? 0 = some 8#8 ∧ 7 < (8#8).toNat) ∧
      ((withBytes [3]).byteLen = 1 ∧ (withBytes [3]).mem.bytes.get? 0 = some 3#8 ∧ (3#8).toNat ≠ 0) ∧
      ((small (withBytes [7, 1, 2, 3, 4])).HoldsBytes [7, 1, 2, 3, 4] ∧ 4 + 1 ≤ tiny.maxBytes ∧ (7#8).toNat ≤ 7) ∧
      (withBytes [0]).HoldsBytes [0] := by decide

/-- On the tiny build: five symbols; four that are two runs and fill the destination; three runs, one pair too many. -/
theorem witness_RleEncRule :
    tiny.maxSyms < (small { State.reset with lens := { sym0 := 5 } }).symLen .sym0 ∧
      ((small (withSym0 [1, 1, 2, 2])).HoldsSyms .sym0 [1, 1, 2, 2] ∧ 2 * (runs [1, 1, 2, 2]).length ≤ tiny.maxSyms) ∧
      ((small (withSym0 [1, 2, 1])).HoldsSyms .sym0 [1, 2, 1] ∧ tiny.maxSyms < 2 * (runs [1, 2, 1]).length) := by decide

/-- On the tiny build: five symbols; an odd length; counts that fill the destination, with a count of 0; counts one too many. -/
theorem witness_RleDecRule :
    tiny.maxSyms < (small { State.reset with lens := { sym0 := 5 } }).symLen .sym0 ∧
      ((small (withSym0 [1, 2, 3])).symLen .sym0 ≤ tiny.maxSyms ∧ (small (withSym0 [1, 2, 3])).symLen .sym0 % 2 = 1) ∧
      ((small (withSym0 [7, 4, 8, 0])).HoldsSyms .sym0 ([(7#32, 4#32), (8, 0)].flatMap fun p => [p.1, p.2]) ∧
        ([(7#32, 4#32), (8, 0)].map fun p => p.2.toNat).sum ≤ tiny.maxSyms) ∧
      ((small (withSym0 [7, 4, 8, 1])).HoldsSyms .sym0 ([(7#32, 4#32), (8, 1)].flatMap fun p => [p.1, p.2]) ∧
        tiny.maxSyms < ([(7#32, 4#32), (8, 1)].map fun p => p.2.toNat).sum) := by decide

/-- On the tiny build: five symbols; an alphabet of 3; of 2, the most; of 1; none. -/
theorem witness_BuildTreeRule :
    tiny.maxSyms < (small { State.reset with lens := { sym0 := 5 } }).symLen .sym0 ∧
      ((small (withSym0 [1, 2, 3])).HoldsSyms .sym0 [1, 2, 3] ∧ tiny.maxAlpha < (distinctSyms [1, 2, 3]).length) ∧
      ((small (withSym0 [2, 1, 2, 2])).HoldsSyms .sym0 [2, 1, 2, 2] ∧ distinctSyms [2, 1, 2, 2] = [1, 2]) ∧
      ((small (withSym0 [9])).HoldsSyms .sym0 [9] ∧ distinctSyms [9] = [9]) ∧
      ((small (withSym0 [])).HoldsSyms .sym0 [] ∧ distinctSyms [] = []) := by decide

theorem witness_SerializedTreeFormat : (Tree.root (.inner (.leaf 1) (.leaf 2))).leaves.length ≤ tiny.maxAlpha := by decide

theorem witness_TreeStoreRule :
    (small State.reset).tree = none ∧
      (small { State.reset with tree := some (.root (.inner (.leaf 1) (.leaf 2))) }).tree =
        some (.root (.inner (.leaf 1) (.leaf 2))) ∧
      (Tree.root (.inner (.leaf 1) (.leaf 2))).leaves.length ≤ tiny.maxAlpha := by decide

/-- Entries written as `withTser` writes them agree with a node's portable form as far as the two lists are equal. -/
theorem tserAgrees_of_take {es : List (Word × Word)} {n : Node} {k : Nat} (h : es.take k = n.serialize.take k) :
    (withTser es).TserAgrees n k := by
  intro i hi e he
  have hget : es[i]? = some e := by
    have := congrArg (fun l : List (Word × Word) => l[i]?) h
    simp only [List.getElem?_take, if_pos hi] at this
    rw [this, he]
  have hlen := (List.getElem?_eq_some_iff.mp hget).1
  refine ⟨?_, fun _ => ?_⟩
  · show (Store.overwrite [] (es.map Prod.fst)).get? i = _
    rw [Store.get?_overwrite, if_pos (by simpa using hlen), List.getElem?_map, hget]; rfl
  · show (Store.overwrite [] (es.map Prod.snd)).get? i = _
    rw [Store.get?_overwrite, if_pos (by simpa using hlen), List.getElem?_map, hget]; rfl

/-- T18 to T25, each clause: too long; empty; a bad tag; a stream that ends early; an entry too many; distinct leaves; a repeated
leaf. -/
theorem witness_TreeLoadRule :
    let pair := Node.inner (.leaf 1) (.leaf 2)
    let twin := Node.inner (.leaf 5) (.leaf 5)
    tiny.maxTser < (small { State.reset with lens := { tser := 4 } }).tserLen ∧
      (withTser []).tserLen = 0 ∧
      ((withTser [(0, 0), (1, 1), (7, 0)]).TserAgrees pair 2 ∧ 2 < pair.serialize.length ∧
        (withTser [(0, 0), (1, 1), (7, 0)]).mem.tserTag.get? 2 = some 7#32) ∧
      ((withTser [(0, 0), (1, 1)]).TserAgrees pair (withTser [(0, 0), (1, 1)]).tserLen ∧
        0 < (withTser [(0, 0), (1, 1)]).tserLen ∧ (withTser [(0, 0), (1, 1)]).tserLen < pair.serialize.length) ∧
      ((withTser [(0, 0), (1, 1), (1, 2), (5, 5)]).TserAgrees pair pair.serialize.length ∧
        pair.serialize.length < (withTser [(0, 0), (1, 1), (1, 2), (5, 5)]).tserLen) ∧
      ((withTser [(0, 0), (1, 1), (1, 2)]).TserAgrees pair pair.serialize.length ∧
        (withTser [(0, 0), (1, 1), (1, 2)]).tserLen = pair.serialize.length ∧ pair.leaves.Nodup) ∧
      ((withTser [(0, 0), (1, 5), (1, 5)]).TserAgrees twin twin.serialize.length ∧
        twin.serialize[2]? = some (1#32, 5#32) ∧ twin.serialize[1]? = some (1#32, 5#32)) := by
  refine ⟨by decide, by decide, ⟨tserAgrees_of_take rfl, by decide, by decide⟩, ⟨tserAgrees_of_take rfl, by decide, by decide⟩,
    ⟨tserAgrees_of_take rfl, by decide⟩, ⟨tserAgrees_of_take rfl, by decide, by decide⟩, tserAgrees_of_take rfl, by decide, by decide⟩

theorem witness_CodesArePaths : (⟨5, [true, true]⟩ : CodeEntry) ∈ t1.codes := by decide

/-- A comb: leaf i hangs i + 1 deep, the last two at the full depth (C9, C10). -/
def comb : Nat → Nat → Node
  | 0, i => .leaf (BitVec.ofNat 32 i)
  | n + 1, i => .inner (.leaf (BitVec.ofNat 32 i)) (comb n (i + 1))

set_option maxRecDepth 4096 in
/-- No tree; the empty tree; a comb of depth 32, the deepest that has codes; one deeper. -/
theorem witness_DeriveCodesRule :
    State.reset.tree = none ∧ ({ State.reset with tree := some .empty } : State).tree = some .empty ∧
      (comb 32 0).depth = 32 ∧ (comb 33 0).depth = 33 := by decide

/-- No code table; five symbols; a symbol that is not in the table, first at index 1; two symbols that are; an output one bit too
long. -/
theorem witness_HufEncRule :
    State.reset.code = none ∧ (holding State.reset).code = some c1 ∧ (c1.map CodeEntry.sym).Nodup ∧
      tiny.maxSyms < (small { State.reset with lens := { sym0 := 5 } }).symLen .sym0 ∧
      (withSym0 [1, 2]).HoldsSyms .sym0 [1, 2] ∧ [1#32, 2][1]? = some 2 ∧ 2#32 ∉ c1.map CodeEntry.sym ∧
      1#32 ∈ c1.map CodeEntry.sym ∧
      (withSym0 [1, 3]).HoldsSyms .sym0 [1, 3] ∧
      List.Forall₂ (fun x c => (⟨x, c⟩ : CodeEntry) ∈ c1) [1#32, 3#32] [[true, false], [false]] ∧
      List.Forall₂ (fun x c => (⟨x, c⟩ : CodeEntry) ∈ [⟨8, List.replicate 32 true⟩, ⟨9, [false]⟩]) [8#32, 9#32]
        [List.replicate 32 true, [false]] ∧
      tiny.maxBits < [List.replicate 32 true, [false]].flatten.length := by
  refine ⟨rfl, rfl, by decide, by decide, by decide, by decide, by decide, by decide, by decide, ?_, ?_, by decide⟩
  · exact .cons (by decide) (.cons (by decide) .nil)
  · exact .cons (by decide) (.cons (by decide) .nil)

/-- The tiny build with a tree held and these bits. -/
def decoding (t : Tree) (bs : BitString) : State := { small (withBits bs) with tree := some t }

/-- No tree; 33 bits; the empty tree with and without bits; the single leaf, its output filling the destination and one too long; T1
with whole paths, with an unfinished one, and with five symbols, one too many. -/
theorem witness_HufDecRule :
    let root := Node.inner (.leaf 3) (.inner (.leaf 1) (.leaf 5))
    State.reset.tree = none ∧
      (let s := { decoding t1 [] with lens := { bits := 33 } }; s.tree.isSome = true ∧ tiny.maxBits < s.bitLen) ∧
      ((decoding .empty []).tree = some .empty ∧ (decoding .empty []).bitLen = 0) ∧
      ((decoding .empty [true]).tree = some .empty ∧ (decoding .empty [true]).HoldsBits [true]) ∧
      (let s := decoding (.root (.leaf 7)) [true, false, true, false]
       s.tree = some (.root (.leaf 7)) ∧ s.HoldsBits [true, false, true, false] ∧ 4 ≤ tiny.maxSyms) ∧
      (let s := decoding (.root (.leaf 7)) [true, false, true, false, true]
       s.tree = some (.root (.leaf 7)) ∧ s.HoldsBits [true, false, true, false, true] ∧ tiny.maxSyms < 5) ∧
      ((decoding t1 (digits [0, 1, 0])).tree = some (.root root) ∧
        (decoding t1 (digits [0, 1, 0])).HoldsBits ([[false], [true, false]].flatten ++ []) ∧
        List.Forall₂ (fun x c => root.follow c = some (.leaf x)) [3#32, 1#32] [[false], [true, false]] ∧
        (∃ u v, root.follow [] = some (.inner u v))) ∧
      ((decoding t1 (digits [0, 1])).HoldsBits ([[false]].flatten ++ [true]) ∧
        ∃ u v, root.follow [true] = some (.inner u v)) ∧
      ((decoding t1 (digits [0, 0, 0, 0, 0])).HoldsBits ((List.replicate 5 [false]).flatten ++ []) ∧
        List.Forall₂ (fun x c => root.follow c = some (.leaf x)) (List.replicate 5 3#32) (List.replicate 5 [false]) ∧
        tiny.maxSyms < (List.replicate 5 3#32).length) := by
  refine ⟨rfl, by decide, by decide, by decide, by decide, by decide, ⟨rfl, by decide, ?_, ⟨_, _, rfl⟩⟩, ⟨by decide, ⟨_, _, rfl⟩⟩,
    by decide, ?_, by decide⟩
  · exact .cons rfl (.cons rfl .nil)
  · exact .cons rfl (.cons rfl (.cons rfl (.cons rfl (.cons rfl .nil))))

/-- A command that completes, and a term that spells none. -/
theorem witness_CommandsChangeOnlyTheirDestination :
    (after (exec .pack State.reset)).isSome = true ∧ Instr.wellFormed .pack = true ∧
      (after (exec (.rleEnc .sym0 .sym0) State.reset)).isSome = true ∧ Instr.wellFormed (.rleEnc .sym0 .sym0) = false := by decide

/-- One command of each destination that fails. -/
theorem witness_ErrorEffects_PossibleResults :
    [exec (.buildTree .sym0) (small (withSym0 [1, 2, 3])), exec .treeStore State.reset, exec .deriveCodes State.reset,
        exec (.hufEnc .sym0) State.reset, exec (.hufDec .sym1) State.reset, exec .unpack State.reset,
        exec .pack (small { State.reset with lens := { bits := 33 } })].map (fun o => look o (fun t => t.status.err)) =
      [some .capacityExceeded, some .notReady, some .notReady, some .notReady, some .notReady, some .invalidFormat,
        some .capacityExceeded] := by decide

/-- One stop for each kind of source, in states that meet the hypotheses of the clause that says so. -/
theorem witness_StopsOnlyAtUnwrittenEntries :
    (let s : State := small { holding State.reset with lens := { sym0 := 4, bits := 32, bytes := 5, tser := 3 } }
     s.symLen .sym0 ≤ s.cfg.maxSyms ∧ 3 < s.symLen .sym0 ∧ s.symLen .sym0 % 2 = 0 ∧ (s.mem.sym .sym0).get? 3 = none ∧
        s.code.isSome = true ∧ s.tree.isSome = true ∧ s.bitLen ≤ s.cfg.maxBits ∧ 31 < s.bitLen ∧ s.mem.bits.get? 31 = none ∧
        s.byteLen ≤ s.cfg.maxBytes ∧ 0 < s.byteLen ∧ s.mem.bytes.get? 0 = none ∧ s.tserLen ≤ s.cfg.maxTser ∧
        s.mem.tserTag.get? 0 = none) ∧
      (let s : State := { withBytes [7] with lens := { bytes := 2 } }; s.mem.bytes.get? 0 = some 7#8 ∧ s.mem.bytes.get? 1 = none) ∧
      exec (.rleEnc .sym0 .sym1) { State.reset with lens := { sym0 := 1 } } = .fault (.unwrittenEntry (.sym .sym0) 0) ∧
      exec .unpack { State.reset with lens := { bytes := 1 } } = .fault (.unwrittenEntry .bytes 0) ∧
      exec .treeLoad { State.reset with lens := { tser := 1 } } = .fault (.unwrittenEntry .tserTag 0) ∧
      exec .treeLoad { State.reset with mem := { tserTag := [(0, 1)] }, lens := { tser := 1 } } =
        .fault (.unwrittenEntry .tserSym 0) := ⟨by decide, by decide, rfl, rfl, rfl, rfl⟩

/-- No entry need agree before the first, and `TserAgrees` of none holds everywhere. -/
theorem witness_StopsOnlyAtUnwrittenEntries_treeLoad :
    ({ State.reset with lens := { tser := 1 } } : State).TserAgrees (.leaf 1) 0 ∧ 0 < (Node.leaf 1).serialize.length ∧
      ({ State.reset with lens := { tser := 1 } } : State).tserLen ≤ State.reset.cfg.maxTser := by
  refine ⟨?_, by decide, by decide⟩
  intro i hi
  omega

theorem witness_PackUnpackRoundTrip :
    tiny.Legal ∧ (small (withBits (List.replicate 32 true))).HoldsBits (List.replicate 32 true) ∧
      (List.replicate 32 true).length ≤ tiny.maxBits := by decide

/-- Two packed buffers that differ in their filler bits only (B10). -/
theorem witness_UnpackIgnoresFillerBits :
    (withBytes [4, 0xA0]).HoldsBytes [4, 0xA0] ∧ (withBytes [4, 0xAF]).HoldsBytes [4, 0xAF] ∧ (4#8).toNat ≤ 7 ∧
      ∀ i, i < 8 * [0xA0#8].length - (4#8).toNat →
        ([0xA0#8].getD (i / 8) 0#8).getLsbD (7 - i % 8) = ([0xAF#8].getD (i / 8) 0#8).getLsbD (7 - i % 8) := by decide

theorem witness_RleRoundTrip :
    (small (withSym0 [1, 1, 2, 2])).HoldsSyms .sym0 [1, 1, 2, 2] ∧ [1#32, 1, 2, 2].length ≤ tiny.maxSyms ∧
      2 * ([1#32, 1, 2, 2].zip ([1#32, 1, 2, 2].drop 1)).countP (fun p => p.1 != p.2) + 2 ≤ tiny.maxSyms := by decide

/-- R16, a stream that meets the pair invariant, and one that does not. -/
theorem witness_RleNormalises :
    (withSym0 [3, 3, 5, 2]).HoldsSyms .sym0 ([(3#32, 3#32), (5, 2)].flatMap fun p => [p.1, p.2]) ∧
      [(3#32, 3#32), (5, 2)].all (fun p => decide (1 ≤ p.2.toNat)) = true ∧ [(3#32, 3#32), (5, 2)].IsChain (fun p q => p.1 ≠ q.1) ∧
      (withSym0 [4, 2, 9, 0]).HoldsSyms .sym0 ([(4#32, 2#32), (9, 0)].flatMap fun p => [p.1, p.2]) := by
  refine ⟨by decide, by decide, ?_, by decide⟩
  exact List.isChain_cons_cons.mpr ⟨by decide, by simp⟩

/-- The built tree of an alphabet of none, one, two and three. -/
theorem witness_BuiltTreeShape :
    (∀ src ∈ [[], [9#32], [2, 1, 2, 2], [3, 3, 3, 5, 5, 1]],
      (withSym0 src).HoldsSyms .sym0 src ∧
        look (exec (.buildTree .sym0) (withSym0 src)) (fun t => t.status.err) = some .ok) := by decide

theorem witness_BuildTreeIsDeterministic :
    (withSym0 [1, 2]).HoldsSyms .sym0 [1, 2] ∧ (small (withSym1 [1, 2])).HoldsSyms .sym1 [1, 2] ∧
      look (exec (.buildTree .sym0) (withSym0 [1, 2])) (fun t => t.status.err) = some .ok ∧
      look (exec (.buildTree .sym1) (small (withSym1 [1, 2]))) (fun t => t.status.err) = some .ok := by decide

theorem witness_TreeRoundTrip :
    Inv (holding (withSym0 [3, 3, 3, 5, 5, 1])) ∧ (holding (withSym0 [3, 3, 3, 5, 5, 1])).tree = some t1 :=
  ⟨witness_inv_holding, rfl⟩

theorem witness_CodesArePrefixFree :
    Inv (holding (withSym0 [3, 3, 3, 5, 5, 1])) ∧
      look (exec .deriveCodes (holding (withSym0 [3, 3, 3, 5, 5, 1]))) (fun t => (t.status.err, t.code)) = some (.ok, some c1) :=
  ⟨witness_inv_holding, by decide⟩

theorem witness_BuiltTreesAreShallow :
    (withSym0 [3, 3, 3, 5, 5, 1]).cfg.Legal ∧ (withSym0 [3, 3, 3, 5, 5, 1]).HoldsSyms .sym0 [3, 3, 3, 5, 5, 1] ∧
      look (exec (.buildTree .sym0) (withSym0 [3, 3, 3, 5, 5, 1])) (fun t => (t.status.err, t.tree)) = some (.ok, some t1) := by
  decide

/-- On the tiny build, four symbols of two kinds; their code fits. -/
theorem witness_HuffmanRoundTrip :
    tiny.Legal ∧ (small (withSym0 [1, 1, 2, 2])).HoldsSyms .sym0 [1, 1, 2, 2] ∧ [1#32, 1, 2, 2].length ≤ tiny.maxSyms ∧
      [1#32, 1, 2, 2].dedup.length ≤ tiny.maxAlpha ∧
      ([1#32, 1, 2, 2].map fun x => ((codeFor (buildTree [1, 1, 2, 2]).codes x).getD []).length).sum ≤ tiny.maxBits := by decide

theorem witness_EncodedLength :
    Inv (holding (withSym0 [3, 3, 3, 5, 5, 1])) ∧
      (holding (withSym0 [3, 3, 3, 5, 5, 1])).HoldsSyms .sym0 [3, 3, 3, 5, 5, 1] ∧
      look (exec (.hufEnc .sym0) (holding (withSym0 [3, 3, 3, 5, 5, 1]))) (fun t => t.status.err) = some .ok :=
  ⟨witness_inv_holding, by decide, by decide⟩

/-- The host's turn with an operation to perform; a write and a read that answer, and ones that are bus errors. -/
theorem witness_HostTurnPerformsTheAccess :
    (let s : State := { State.reset with env := { pending := [.rd 0#32] } }; s.mover = .host ∧ s.env.pending = .rd 0#32 :: []) ∧
      (busWrite (0x80000010#32 - huge.platformBase) 9 { State.reset with cfg := huge }).isSome = true ∧
      (busRead (0x80000010#32 - huge.platformBase) { State.reset with cfg := huge }).isSome = true ∧
      busWrite (0#32 - huge.platformBase) 9 { State.reset with cfg := huge } = none ∧
      busRead (0#32 - huge.platformBase) { State.reset with cfg := huge } = none := by decide

end Sys2Proof.Tests
end

/-! ## What a step of the machine can do

Shared facts for the statements about every step: whose turn it is, what the host's turn can do to the block, and what a command's
rule can give. The statements of 00_scope.md follow from them. -/

namespace Sys2Proof.Machine

/-! ### Whose turn it is -/

theorem step_of_engine {s : State} (h : s.mover = .engine) : step s = engineStep s.tail := by rw [step, h]

theorem step_of_host {s : State} (h : s.mover = .host) : step s = .next (hostStep s.tail) := by rw [step, h]

theorem engineStep_of_decode {s : State} {w : Word} {i : Instr} (hw : s.inflight = some w) (hi : decode w = some i) :
    engineStep s = exec i s := by
  simp only [engineStep, hw, hi]

theorem withFetchWord_mover (s : State) (nbits w : Nat) : (s.withFetchWord nbits w).mover = .engine := rfl

/-- The turn that `withFetchWord` adds is the one the next step takes, so what is left is the acceptance of the word (R100). -/
theorem withFetchWord_tail (s : State) (w : Word) : (s.withFetchWord 32 w.toNat).tail = s.accept w := by
  have hw : BitVec.ofNat 32 (w.toNat % 2 ^ 32) = w := by
    rw [Nat.mod_eq_of_lt w.isLt, BitVec.ofNat_toNat, BitVec.setWidth_eq]
  have htail : (s.withFetchWord 32 w.toNat).tail = s.accept (BitVec.ofNat 32 (w.toNat % 2 ^ 32)) := rfl
  rw [htail, hw]

/-- The engine's turn does nothing when nothing is in flight, and else is the meaning of the command or completes an illegal word. -/
theorem engineStep_eq_next {s t : State} (h : engineStep s = .next t) :
    (s.inflight = none ∧ t = s) ∨
      (∃ w i, s.inflight = some w ∧ decode w = some i ∧ exec i s = .next t) ∨
        ∃ w, s.inflight = some w ∧ decode w = none ∧ t = s.completeIllegal := by
  unfold engineStep at h
  split at h
  next hw => exact .inl ⟨hw, by simpa using h.symm⟩
  next w hw =>
    split at h
    next i hi => exact .inr (.inl ⟨w, i, hw, hi, h⟩)
    next hi => exact .inr (.inr ⟨w, hw, hi, by simpa using h.symm⟩)

/-- A step is a turn of the engine or a turn of the host, on the state with that turn taken. -/
theorem step_eq_next {s t : State} (h : step s = .next t) :
    (s.mover = .engine ∧ engineStep s.tail = .next t) ∨ (s.mover = .host ∧ t = hostStep s.tail) := by
  cases hm : s.mover with
  | engine => exact .inl ⟨rfl, by rwa [step_of_engine hm] at h⟩
  | host => exact .inr ⟨rfl, by simpa [step_of_host hm] using h.symm⟩

/-! ### What the host's turn can do to the block -/

/-- A bus write is dropped, the block being busy, or writes a region; a busy block takes only the writes of R68 (a). -/
theorem busWrite_eq_some {addr v : Word} {s t : State} (h : busWrite addr v s = some t) :
    (s.status.busy = true ∧ t = dropWrite s) ∨
      ∃ r, regionOf s.cfg addr = some r ∧ (s.status.busy = true → r.writableWhileBusy = true) ∧ t = writeRegion r v s := by
  unfold busWrite at h
  split at h
  · cases h
  next r hr =>
    split at h
    · cases h
    · split at h
      next hb =>
        simp only [Bool.and_eq_true] at hb
        exact .inl ⟨hb.1, by simpa using h.symm⟩
      next hb => exact .inr ⟨r, hr, fun hbusy => by simpa [hbusy] using hb, by simpa using h.symm⟩

/-- What the host can make of the block in one turn: nothing, a bus write, or a reset. The host's own data, and the count of free
values drawn, are left open before and after. -/
inductive HostMove (s : State) : State → Prop
  | none (env : Env) : HostMove s { s with env := env }
  | write {addr v : Word} {t : State} (before env : Env) (h : busWrite addr v { s with env := before } = some t) :
      HostMove s { t with env := env }
  | reset (env : Env) : HostMove s { s.hardReset with env := env }

theorem HostMove.withEnv {s t : State} (h : HostMove s t) (env : Env) : HostMove s { t with env := env } := by
  cases h with
  | none _ => exact .none env
  | @write _ _ t before _ hw => exact .write (t := t) before env hw
  | reset _ => exact .reset env

theorem HostMove.ofWithEnv {s t : State} {before : Env} (h : HostMove { s with env := before } t) : HostMove s t := by
  cases h with
  | none env => exact .none env
  | write before' env hw => exact .write before' env hw
  | reset env => exact .reset env

theorem hostRead_move (addr : Word) (enables : BitVec 4) (s : State) : HostMove s (hostRead addr enables s).2 := by
  unfold hostRead
  split
  · exact .none s.env
  · split
    next v t h =>
      have ht : t = { s with env := { s.env with draws := t.env.draws } } := by
        unfold busRead at h
        split at h
        · cases h
        next r _ =>
          have hd := draw_state (sample s r).known (sample s r).mask s
          rwa [Option.some.inj h] at hd
      rw [ht]
      exact .none _
    · exact .none s.env

theorem hostWrite_move (addr v : Word) (enables : BitVec 4) (s : State) : HostMove s (hostWrite addr v enables s).2 := by
  unfold hostWrite
  split
  · exact .none s.env
  · split
    next t h => exact .write s.env t.env h
    · exact .none s.env

theorem waitTurn_move {s : State} {r : BusResponse × State} (again : HostOp) (asStated : Bool) (h : HostMove s r.2) :
    HostMove s (waitTurn again asStated r) := by
  unfold waitTurn
  split
  · split <;> exact h.withEnv _
  · exact h.withEnv _

/-- Each operation of the host is one access or a reset, and bookkeeping (R60, R88, R89, R251). -/
theorem performHostOp_move (op : HostOp) (s : State) : HostMove s (performHostOp op s) := by
  cases op with
  | wr addr v => exact (hostWrite_move addr v 15#4 s).withEnv _
  | rd addr => exact (hostRead_move addr 15#4 s).withEnv _
  | expect addr v =>
    simp only [performHostOp]
    split <;> exact (hostRead_move addr 15#4 s).withEnv _
  | wrBytes addr v enables => exact (hostWrite_move addr v enables s).withEnv _
  | rdBytes addr enables => exact (hostRead_move addr enables s).withEnv _
  | wait => exact waitTurn_move _ _ (hostRead_move _ _ s)
  | waitErr err => exact waitTurn_move _ _ (hostRead_move _ _ s)
  | resetInput => exact .reset s.env

theorem hostStep_move (s : State) : HostMove s (hostStep s) := by
  unfold hostStep
  split
  · exact .none s.env
  · exact (performHostOp_move _ _).ofWithEnv

/-! ### The parameters of the build -/

theorem busWrite_cfg {addr v : Word} {s t : State} (h : busWrite addr v s = some t) : t.cfg = s.cfg := by
  rcases busWrite_eq_some h with ⟨-, rfl⟩ | ⟨r, -, -, rfl⟩
  · exact dropWrite_cfg s
  · exact writeRegion_cfg v s r

theorem HostMove.cfg_eq {s t : State} (h : HostMove s t) : t.cfg = s.cfg := by
  cases h with
  | none _ => rfl
  | @write _ _ t before _ hw => exact busWrite_cfg (s := { s with env := before }) (t := t) hw
  | reset _ => rfl

theorem exec_cfg {i : Instr} {s t : State} (h : exec i s = .next t) : t.cfg = s.cfg := by
  rcases exec_eq_next h with ⟨-, u, hu, rfl⟩ | ⟨-, e, info, -, rfl⟩ | ⟨-, rfl⟩
  · obtain ⟨⟨hcfg, -⟩, -⟩ := endingOf_ok_frame hu
    rw [complete_cfg, hcfg]
  · exact voidDest_cfg (destOf i) s
  · rfl

theorem step_cfg {s t : State} (h : step s = .next t) : t.cfg = s.cfg := by
  rcases step_eq_next h with ⟨-, he⟩ | ⟨-, rfl⟩
  · rcases engineStep_eq_next he with ⟨-, rfl⟩ | ⟨_, i, -, -, hi⟩ | ⟨_, -, -, rfl⟩
    · rfl
    · exact (exec_cfg hi).trans (tail_cfg s)
    · rfl
  · exact (hostStep_move s.tail).cfg_eq

/-! ### What a command's rule can give

`Eval.Meets errs Q` is read as a postcondition: the results satisfy `Q`, and an error raised is one of `errs`, with information only
where its code carries some (R223). One rule for each way the commands' rules are put together. -/

/-- The codes with which `ERR_INFO` is 0 (R223). -/
def ResultCode.plain : List ResultCode := [.ok, .illegalCommand, .notReady, .capacityExceeded]

/-- The results satisfy `Q`; an error raised is one of `errs`, with `info` = 0 where its code carries no information (R223). -/
def Eval.Meets {α : Type} (errs : List ResultCode) (Q : α → Prop) : Eval α → Prop
  | .value a => Q a
  | .raise e info => e ∈ errs ∧ (e ∈ ResultCode.plain → info = 0)
  | .stop _ => True

section Meets
variable {α β : Type} {errs : List ResultCode} {Q : α → Prop}

theorem meets_value {a : α} (h : Q a) : (Eval.value a).Meets errs Q := h

theorem meets_raise_zero {e : ResultCode} (he : e ∈ errs) : (Eval.raise e 0 : Eval α).Meets errs Q := ⟨he, fun _ => rfl⟩

theorem meets_raise_informative {e : ResultCode} {info : Nat} (he : e ∈ errs) (hinfo : e ∉ ResultCode.plain) :
    (Eval.raise e info : Eval α).Meets errs Q := ⟨he, fun h => absurd h hinfo⟩

theorem Eval.Meets.bind {R : β → Prop} {x : Eval β} {f : β → Eval α} (hx : x.Meets errs R)
    (hf : ∀ b, R b → (f b).Meets errs Q) : (x.bind f).Meets errs Q := by
  cases x with
  | value b => exact hf b hx
  | raise e info => exact hx
  | stop r => trivial

/-- The errors of a rule stay as they are when more is known of its results. -/
theorem Eval.Meets.ofValue {R : α → Prop} {x : Eval α} (hx : x.Meets errs R) (hv : ∀ a, x = .value a → Q a) :
    x.Meets errs Q := by
  cases x with
  | value a => exact hv a rfl
  | raise e info => exact hx
  | stop r => trivial

theorem meets_checkSource {len cap : Nat} {rest : Eval α} (he : .capacityExceeded ∈ errs)
    (h : len ≤ cap → rest.Meets errs Q) : (checkSource len cap rest).Meets errs Q := by
  by_cases hle : len ≤ cap
  · rw [checkSource_le _ hle]; exact h hle
  · rw [checkSource_gt _ (Nat.lt_of_not_le hle)]; exact meets_raise_zero he

theorem meets_checkOutput {len cap : Nat} {rest : Eval α} (he : .capacityExceeded ∈ errs)
    (h : len ≤ cap → rest.Meets errs Q) : (checkOutput len cap rest).Meets errs Q := meets_checkSource he h

theorem meets_readEntry (buf : Buffer) (m : Store α) (i : Nat) : (readEntry buf m i).Meets errs fun a => m.get? i = some a := by
  cases h : readEntry buf m i with
  | value a => exact readEntry_eq_value.mp h
  | raise e info => exact absurd h (readEntry_ne_raise _ _ _ _ _)
  | stop f => trivial

theorem meets_readFrom (buf : Buffer) (m : Store α) (i n : Nat) : (readFrom buf m i n).Meets errs fun l => l.length = n := by
  cases h : readFrom buf m i n with
  | value l => exact (readFrom_eq_value.mp h).1
  | raise e info => exact absurd h (readFrom_ne_raise _ _ _ _ _ _)
  | stop f => trivial

theorem meets_symseq (s : State) (b : SymBuf) : (s.symseq b).Meets errs fun src => src.length = s.symLen b :=
  meets_readFrom _ _ _ _

theorem meets_bitseq (s : State) : s.bitseq.Meets errs fun bits => bits.length = s.bitLen := meets_readFrom _ _ _ _

theorem Eval.Meets.ending_ok {x : Eval α} (hx : x.Meets errs Q) {store : α → State → State} {s u : State}
    (h : x.ending store s = .ok u) : ∃ a, Q a ∧ u = store a s := by
  cases x with
  | value a => exact ⟨a, hx, by simpa [Eval.ending] using h.symm⟩
  | raise e info => cases h
  | stop f => cases h

theorem Eval.Meets.ending_error {x : Eval α} (hx : x.Meets errs Q) {store : α → State → State} {s : State} {e : ResultCode}
    {info : Nat} (h : x.ending store s = .error e info) : e ∈ errs ∧ (e ∈ ResultCode.plain → info = 0) := by
  cases x with
  | value a => cases h
  | raise e' info' => cases h; exact hx
  | stop f => cases h

end Meets

/-! ### The rule of each command: its errors (R221) and the sizes of its results -/

/-- The errors each command can end with (R221). -/
def errorsOf : Instr → List ResultCode
  | .buildTree _ => [.capacityExceeded]
  | .treeStore => [.notReady]
  | .treeLoad => [.invalidFormat, .capacityExceeded]
  | .deriveCodes => [.capacityExceeded, .notReady]
  | .hufEnc _ => [.unknownSymbol, .capacityExceeded, .notReady]
  | .hufDec _ => [.corruptStream, .capacityExceeded, .notReady]
  | .rleEnc _ _ => [.capacityExceeded]
  | .rleDec _ _ => [.capacityExceeded, .invariantViolation]
  | .pack => [.capacityExceeded]
  | .unpack => [.invalidFormat, .capacityExceeded]

/-- What R44 asks of a tree the block holds: distinct leaves within the alphabet. -/
def Tree.Fits (c : Config) (t : Tree) : Prop := t.leaves.Nodup ∧ t.leaves.length ≤ c.maxAlpha

theorem buildTree_fits {c : Config} {src : List Symbol} (h : (distinctSyms src).length ≤ c.maxAlpha) :
    (buildTree src).Fits c := by
  have hp := buildTree_leaves src
  exact ⟨hp.nodup_iff.mpr (distinctSyms_nodup src), by rwa [hp.length_eq]⟩

theorem buildTreeEval_meets (b : SymBuf) (s : State) :
    (buildTreeEval b s).Meets (errorsOf (.buildTree b)) (Tree.Fits s.cfg) :=
  meets_checkSource (by simp [errorsOf]) fun _ => (meets_symseq s b).bind fun _ _ =>
    meets_checkOutput (by simp [errorsOf]) fun hout => meets_value (buildTree_fits hout)

theorem treeStoreEval_meets (s : State) :
    (treeStoreEval s).Meets (errorsOf .treeStore) fun out => ∃ t, s.tree = some t ∧ out = t.serialize := by
  unfold treeStoreEval
  split
  · exact meets_raise_zero (by decide)
  next t ht => exact meets_value ⟨t, ht, rfl⟩

/-- The parser raises `InvalidFormat` alone; a node it gives takes up the entries it says (R172). -/
theorem parseNode_meets (m : Memory) (n depth i : Nat) :
    (parseNode m n depth i).Meets (errorsOf .treeLoad) fun p => p.2 = i + p.1.size ∧ p.2 ≤ n := by
  suffices h : (parseNode m n depth i).Meets (errorsOf .treeLoad) fun _ => True from h.ofValue fun _ => parseNode_end
  induction depth generalizing i with
  | zero => exact meets_raise_informative (by decide) (by decide)
  | succ depth ih =>
    simp only [parseNode]
    split
    · exact meets_raise_informative (by decide) (by decide)
    · refine (meets_readEntry _ _ _).bind fun tag _ => ?_
      split
      · exact (meets_readEntry _ _ _).bind fun _ _ => trivial
      · split
        · exact (ih _).bind fun _ _ => (ih _).bind fun _ _ => trivial
        · exact meets_raise_informative (by decide) (by decide)

/-- A node that fills TSER has its leaves within the alphabet (R43). -/
theorem leaves_le_of_size_le {c : Config} {n : Node} (h : n.size ≤ c.maxTser) : n.leaves.length ≤ c.maxAlpha := by
  have hpos := size_pos n
  have hsize := size_eq_leaves n
  simp only [Config.maxTser] at h
  omega

theorem treeLoadEval_meets (s : State) : (treeLoadEval s).Meets (errorsOf .treeLoad) (Tree.Fits s.cfg) := by
  refine meets_checkSource (by decide) fun hlen => ?_
  split
  · exact meets_value ⟨List.nodup_nil, Nat.zero_le _⟩
  · refine (parseNode_meets _ _ _ _).bind fun p ⟨hend, _⟩ => ?_
    split
    · exact meets_raise_informative (by decide) (by decide)
    next hall =>
      split
      · exact meets_raise_informative (by decide) (by decide)
      next hdup => exact meets_value ⟨firstDuplicate_leaves.mp hdup, leaves_le_of_size_le (by omega)⟩

theorem deriveCodesEval_meets (s : State) :
    (deriveCodesEval s).Meets (errorsOf .deriveCodes) fun table =>
      ∃ t, s.tree = some t ∧ table = t.codes ∧ tooLong t.codes = false := by
  unfold deriveCodesEval
  split
  · exact meets_raise_zero (by decide)
  next t ht =>
    split
    · exact meets_raise_zero (by decide)
    next hlong => exact meets_value ⟨t, ht, rfl, by simpa using hlong⟩

theorem encodeFrom_meets (b : SymBuf) (table : CodeTable) (i : Nat) (src : List Symbol) :
    (encodeFrom table i src).Meets (errorsOf (.hufEnc b)) fun _ => True := by
  induction src generalizing i with
  | nil => trivial
  | cons x rest ih =>
    simp only [encodeFrom]
    split
    · exact meets_raise_informative (by simp [errorsOf]) (by decide)
    · exact (ih _).bind fun _ _ => trivial

theorem hufEncEval_meets (b : SymBuf) (s : State) :
    (hufEncEval b s).Meets (errorsOf (.hufEnc b)) fun out => out.length ≤ s.cfg.maxBits := by
  unfold hufEncEval
  split
  · exact meets_raise_zero (by simp [errorsOf])
  · exact meets_checkSource (by simp [errorsOf]) fun _ => (meets_symseq s b).bind fun _ _ =>
      (encodeFrom_meets b _ _ _).bind fun _ _ => meets_checkOutput (by simp [errorsOf]) fun hout => meets_value hout

theorem decodeLoop_meets (d : SymBuf) (root node : Node) (start k : Nat) (bits : BitString) :
    (decodeLoop root node start k bits).Meets (errorsOf (.hufDec d)) fun _ => True := by
  induction bits generalizing node start k with
  | nil =>
    simp only [decodeLoop]
    split
    · exact meets_raise_informative (by simp [errorsOf]) (by decide)
    · trivial
  | cons b rest ih =>
    simp only [decodeLoop]
    split
    · exact (ih _ _ _).bind fun _ _ => trivial
    · exact ih _ _ _

theorem decodeBits_meets (d : SymBuf) (bits : BitString) (t : Tree) :
    (decodeBits bits t).Meets (errorsOf (.hufDec d)) fun _ => True := by
  match t with
  | .empty =>
    simp only [decodeBits]
    split
    · trivial
    · exact meets_raise_informative (by simp [errorsOf]) (by decide)
  | .root (.leaf _) => trivial
  | .root (.inner _ _) => exact decodeLoop_meets d _ _ _ _ _

theorem hufDecEval_meets (d : SymBuf) (s : State) :
    (hufDecEval s).Meets (errorsOf (.hufDec d)) fun out => out.length ≤ s.cfg.maxSyms := by
  unfold hufDecEval
  split
  · exact meets_raise_zero (by simp [errorsOf])
  · exact meets_checkSource (by simp [errorsOf]) fun _ => (meets_bitseq s).bind fun _ _ =>
      (decodeBits_meets d _ _).bind fun _ _ => meets_checkOutput (by simp [errorsOf]) fun hout => meets_value hout

theorem rleEncEval_meets (b d : SymBuf) (s : State) :
    (rleEncEval b s).Meets (errorsOf (.rleEnc b d)) fun out => out.length ≤ s.cfg.maxSyms :=
  meets_checkSource (by simp [errorsOf]) fun _ => (meets_symseq s b).bind fun _ _ =>
    meets_checkOutput (by simp [errorsOf]) fun hout => meets_value hout

theorem rleDecEval_meets (b d : SymBuf) (s : State) :
    (rleDecEval b s).Meets (errorsOf (.rleDec b d)) fun out => out.length ≤ s.cfg.maxSyms := by
  refine meets_checkSource (by simp [errorsOf]) fun _ => ?_
  split
  · exact meets_raise_informative (by simp [errorsOf]) (by decide)
  · refine (meets_symseq s b).bind fun src _ => meets_checkOutput (by simp [errorsOf]) fun hout => meets_value ?_
    rwa [totalCount_eq] at hout

theorem packEval_meets (s : State) :
    (packEval s).Meets (errorsOf .pack) fun out => ∃ bits : BitString, bits.length ≤ s.cfg.maxBits ∧ out = packed bits :=
  meets_checkSource (by decide) fun hlen => (meets_bitseq s).bind fun bits hbits => meets_value ⟨bits, hbits ▸ hlen, rfl⟩

theorem unpackBits_length_le (padding : Nat) (data : List Byte) : (unpackBits padding data).length ≤ 8 * data.length := by
  simp only [unpackBits, List.length_take, flatMap_bitsOfByte_length]
  omega

theorem unpackEval_meets (s : State) :
    (unpackEval s).Meets (errorsOf .unpack) fun out => out.length ≤ 8 * (s.cfg.maxBytes - 1) := by
  refine meets_checkSource (by decide) fun hlen => ?_
  split
  · exact meets_raise_informative (by decide) (by decide)
  · refine (meets_readEntry _ _ _).bind fun header _ => ?_
    split
    · exact meets_raise_informative (by decide) (by decide)
    · split
      · exact meets_raise_informative (by decide) (by decide)
      · refine (meets_readFrom _ _ _ _).bind fun data hdata => meets_value ?_
        have := unpackBits_length_le header.toNat data
        omega

/-- A command that ends with an error ends with one of its own, and with information only where the code carries some (R221,
R223). -/
theorem endingOf_error {s : State} {i : Instr} {e : ResultCode} {info : Nat} (h : endingOf s i = .error e info) :
    e ∈ errorsOf i ∧ (e ∈ ResultCode.plain → info = 0) := by
  cases i with
  | buildTree b => exact (buildTreeEval_meets b s).ending_error h
  | treeStore => exact (treeStoreEval_meets s).ending_error h
  | treeLoad => exact (treeLoadEval_meets s).ending_error h
  | deriveCodes => exact (deriveCodesEval_meets s).ending_error h
  | hufEnc b => exact (hufEncEval_meets b s).ending_error h
  | hufDec d => exact (hufDecEval_meets d s).ending_error h
  | rleEnc b d => exact (rleEncEval_meets b d s).ending_error h
  | rleDec b d => exact (rleDecEval_meets b d s).ending_error h
  | pack => exact (packEval_meets s).ending_error h
  | unpack => exact (unpackEval_meets s).ending_error h

/-! ### The invariant of the data

The part of `Inv` that speaks of the data alone holds in the middle of a command too, between its results and its completion. -/

/-- The clauses of `Inv` about the build, the buffers, TREE and CODE. -/
structure DataInv (s : State) : Prop where
  cfgLegal : s.cfg.Legal
  memWf : s.mem.wf s.cfg = true
  treeFits : ∀ t, s.tree = some t → t.Fits s.cfg
  codeOfTree : ∀ c, s.code = some c → ∃ t, s.tree = some t ∧ c = t.codes ∧
    ∀ e ∈ c, 1 ≤ e.code.length ∧ e.code.length ≤ Config.maxCodeLen

theorem Inv.data {s : State} (h : Inv s) : DataInv s := ⟨h.cfgLegal, h.memWf, h.treeLeaves, h.codeOfTree⟩

namespace DataInv
variable {s : State}

/-- Completion makes the whole invariant of the data's, when the result is one the block reports (R105, R222, R223). -/
theorem complete (h : DataInv s) {e : ResultCode} {info : Nat} (hown : e ≠ .shapeMismatch)
    (hinfo : e ∈ ResultCode.plain → info = 0) : Inv (s.complete e info) where
  cfgLegal := h.cfgLegal
  memWf := h.memWf
  busyInflight := rfl
  busyClears := fun hb => absurd hb (by simp)
  cmdInflight := fun w hw => absurd hw (by simp)
  errOwn := hown
  errInfoZero := fun _ he => by simp [hinfo he]
  treeLeaves := h.treeFits
  codeOfTree := h.codeOfTree

theorem storeSyms (h : DataInv s) (b : SymBuf) {out : List Symbol} (hout : out.length ≤ s.cfg.maxSyms) :
    DataInv (s.storeSyms b out) := ⟨h.cfgLegal, storeSyms_wf b hout h.memWf, h.treeFits, h.codeOfTree⟩

theorem storeBits (h : DataInv s) {out : BitString} (hout : out.length ≤ s.cfg.maxBits) : DataInv (s.storeBits out) := by
  obtain ⟨-, -, hwords, -⟩ := h.cfgLegal
  exact ⟨h.cfgLegal, storeBits_wf hwords hout h.memWf, h.treeFits, h.codeOfTree⟩

theorem storeBytes (h : DataInv s) {out : List Byte} (hout : out.length ≤ s.cfg.maxBytes) : DataInv (s.storeBytes out) :=
  ⟨h.cfgLegal, storeBytes_wf hout h.memWf, h.treeFits, h.codeOfTree⟩

theorem storeTser (h : DataInv s) {out : List (Word × Word)} (hout : out.length ≤ s.cfg.maxTser) : DataInv (s.storeTser out) :=
  ⟨h.cfgLegal, storeTser_wf hout h.memWf, h.treeFits, h.codeOfTree⟩

/-- A new tree takes the code table with it (R46 (a)). -/
theorem storeTree (h : DataInv s) {t : Tree} (ht : t.Fits s.cfg) : DataInv (s.storeTree t) where
  cfgLegal := h.cfgLegal
  memWf := h.memWf
  treeFits := fun t' h' => by cases h'; exact ht
  codeOfTree := fun c hc => by cases hc

theorem storeCode (h : DataInv s) {t : Tree} (ht : s.tree = some t) (hlong : tooLong t.codes = false) :
    DataInv (s.storeCode t.codes) where
  cfgLegal := h.cfgLegal
  memWf := h.memWf
  treeFits := h.treeFits
  codeOfTree := fun c hc => by
    cases hc
    refine ⟨t, ht, rfl, fun e he => ⟨codes_pos he, ?_⟩⟩
    simp only [tooLong, List.any_eq_false, decide_eq_true_eq] at hlong
    exact Nat.le_of_not_lt (hlong e he)

/-- The error effects keep the invariant of the data: what is voided is empty, and CODE goes with TREE (R106). -/
theorem voidDest (h : DataInv s) (d : Dest) : DataInv (s.voidDest d) := by
  have hwf := voidDest_wf d h.memWf
  cases d with
  | tree => exact ⟨h.cfgLegal, hwf, fun t ht => (by cases ht), fun c hc => by cases hc⟩
  | code => exact ⟨h.cfgLegal, hwf, h.treeFits, fun c hc => by cases hc⟩
  | sym b => exact ⟨h.cfgLegal, hwf, h.treeFits, h.codeOfTree⟩
  | bits => exact ⟨h.cfgLegal, hwf, h.treeFits, h.codeOfTree⟩
  | bytes => exact ⟨h.cfgLegal, hwf, h.treeFits, h.codeOfTree⟩
  | tser => exact ⟨h.cfgLegal, hwf, h.treeFits, h.codeOfTree⟩

end DataInv

theorem packed_length_le {c : Config} {bits : BitString} (hwords : c.maxBits % 32 = 0) (h : bits.length ≤ c.maxBits) :
    (packed bits).length ≤ c.maxBytes := by
  have := ceilDiv_le (n := bits.length) (d := 8) (m := c.maxBits / 8) (by decide) (by omega)
  rw [packed_length, Config.maxBytes]
  omega

/-- The results of every command keep the invariant of the data. -/
theorem endingOf_ok_dataInv {s u : State} {i : Instr} (hs : DataInv s) (h : endingOf s i = .ok u) : DataInv u := by
  obtain ⟨-, -, hwords, -⟩ := hs.cfgLegal
  cases i with
  | buildTree b => obtain ⟨t, ht, rfl⟩ := (buildTreeEval_meets b s).ending_ok h; exact hs.storeTree ht
  | treeStore =>
    obtain ⟨_, ⟨t, ht, rfl⟩, rfl⟩ := (treeStoreEval_meets s).ending_ok h
    exact hs.storeTser (tree_serialize_le (hs.treeFits t ht).2)
  | treeLoad => obtain ⟨t, ht, rfl⟩ := (treeLoadEval_meets s).ending_ok h; exact hs.storeTree ht
  | deriveCodes =>
    obtain ⟨_, ⟨t, ht, rfl, hlong⟩, rfl⟩ := (deriveCodesEval_meets s).ending_ok h
    exact hs.storeCode ht hlong
  | hufEnc b => obtain ⟨out, hout, rfl⟩ := (hufEncEval_meets b s).ending_ok h; exact hs.storeBits hout
  | hufDec d => obtain ⟨out, hout, rfl⟩ := (hufDecEval_meets d s).ending_ok h; exact hs.storeSyms d hout
  | rleEnc b d => obtain ⟨out, hout, rfl⟩ := (rleEncEval_meets b d s).ending_ok h; exact hs.storeSyms d hout
  | rleDec b d => obtain ⟨out, hout, rfl⟩ := (rleDecEval_meets b d s).ending_ok h; exact hs.storeSyms d hout
  | pack =>
    obtain ⟨_, ⟨bits, hbits, rfl⟩, rfl⟩ := (packEval_meets s).ending_ok h
    exact hs.storeBytes (packed_length_le hwords hbits)
  | unpack =>
    obtain ⟨out, hout, rfl⟩ := (unpackEval_meets s).ending_ok h
    refine hs.storeBits ?_
    simp only [Config.maxBytes] at hout
    omega

/-- No command reports `ShapeMismatch` (R222). -/
theorem ne_shapeMismatch_of_mem_errorsOf {i : Instr} {e : ResultCode} (h : e ∈ errorsOf i) : e ≠ .shapeMismatch := by
  rintro rfl
  cases i <;> simp [errorsOf] at h

/-! ### The invariant, turn by turn -/

namespace Inv
variable {s : State}

theorem withEnv (h : Inv s) (env : Env) : Inv { s with env := env } := { h with }

theorem withLens (h : Inv s) (lens : Lengths) : Inv { s with lens := lens } := { h with }

theorem withIe (h : Inv s) (ie : Bool) : Inv { s with ie := ie } := { h with }

theorem withMem (h : Inv s) {mem : Memory} (hm : mem.wf s.cfg = true) : Inv { s with mem := mem } := { h with memWf := hm }

theorem dropWrite (h : Inv s) : Inv (dropWrite s) := { h with }

theorem writeStatus (h : Inv s) (v : Word) : Inv (writeStatus v s) :=
  { h with
    busyClears := fun hb => by
      obtain ⟨hdone, herr⟩ := h.busyClears hb
      exact ⟨by simp [hdone], herr⟩ }

/-- Acceptance sets BUSY, clears DONE and ERR and notes the word, all at once (R100). -/
theorem accept (h : Inv s) (w : Word) : Inv (s.accept w) :=
  { h with
    busyInflight := rfl
    busyClears := fun _ => ⟨rfl, rfl⟩
    cmdInflight := fun _ hw => Option.some.inj hw
    errOwn := by simp
    errInfoZero := fun hb => absurd hb (by simp) }

/-- A reset of any legal build gives the invariant (R250, R251). -/
theorem hardReset (h : s.cfg.Legal) : Inv s.hardReset where
  cfgLegal := h
  memWf := empty_wf s.cfg
  busyInflight := rfl
  busyClears := fun hb => absurd hb (by simp)
  cmdInflight := fun w hw => absurd hw (by simp)
  errOwn := by simp
  errInfoZero := fun _ _ => rfl
  treeLeaves := fun t ht => absurd ht (by simp)
  codeOfTree := fun c hc => absurd hc (by simp)

theorem writeCsr (h : Inv s) (r : Csr) (v : Word) : Inv (writeCsr r v s) := by
  cases r with
  | ctrl =>
    simp only [Machine.writeCsr, writeCtrl]
    split
    · exact hardReset h.cfgLegal
    · exact h.withIe _
  | status => exact h.writeStatus v
  | cmd => exact h.accept v
  | sym0Len | sym1Len | bitLen | byteLen | tserLen => exact h.withLens _
  | id | codeCount | treeStat | errInfo | capSyms | capBits | capBytes | capAlpha | capCodeLen => exact h

theorem writeRegion (h : Inv s) {addr : Word} {r : Region} (v : Word) (hr : regionOf s.cfg addr = some r) :
    Inv (writeRegion r v s) := by
  have hwf := writeRegion_wf v hr h.memWf
  rw [writeRegion_cfg] at hwf
  cases r with
  | csr r => exact h.writeCsr r v
  | reserved | code _ _ => exact h
  | sym _ _ | bits _ | bytes _ | tserTag _ | tserSym _ => exact h.withMem hwf

theorem busWrite (h : Inv s) {addr v : Word} {t : State} (hw : busWrite addr v s = some t) : Inv t := by
  rcases busWrite_eq_some hw with ⟨-, rfl⟩ | ⟨r, hr, -, rfl⟩
  · exact h.dropWrite
  · exact h.writeRegion v hr

theorem hostMove (h : Inv s) {t : State} (hm : HostMove s t) : Inv t := by
  cases hm with
  | none env => exact h.withEnv env
  | write before env hw => exact ((h.withEnv before).busWrite hw).withEnv env
  | reset env => exact (hardReset h.cfgLegal).withEnv env

theorem completeIllegal (h : Inv s) : Inv s.completeIllegal := h.data.complete (by decide) fun _ => rfl

theorem exec (h : Inv s) {i : Instr} {t : State} (hx : exec i s = .next t) : Inv t := by
  rcases exec_eq_next hx with ⟨-, u, hu, rfl⟩ | ⟨-, e, info, he, rfl⟩ | ⟨-, rfl⟩
  · exact (endingOf_ok_dataInv h.data hu).complete (by decide) fun _ => rfl
  · obtain ⟨hown, hinfo⟩ := endingOf_error he
    exact (h.data.voidDest (destOf i)).complete (ne_shapeMismatch_of_mem_errorsOf hown) hinfo
  · exact h.completeIllegal

theorem engineStep (h : Inv s) {t : State} (he : engineStep s = .next t) : Inv t := by
  rcases engineStep_eq_next he with ⟨-, rfl⟩ | ⟨_, i, -, -, hi⟩ | ⟨_, -, -, rfl⟩
  · exact h
  · exact h.exec hi
  · exact h.completeIllegal

theorem step (h : Inv s) {t : State} (hs : step s = .next t) : Inv t := by
  have htail : Inv s.tail := h.withEnv _
  rcases step_eq_next hs with ⟨-, he⟩ | ⟨-, rfl⟩
  · exact htail.engineStep he
  · exact htail.hostMove (hostStep_move s.tail)

end Inv

theorem default_legal : Config.default.Legal := by decide

/-- The reset state is what a reset makes of it. -/
theorem reset_hardReset : State.reset.hardReset = State.reset := rfl

/-! ### The statements of 00_scope.md -/

/-- Settles O9: the engine's turn by the postconditions of the commands' rules, the host's by what a bus write or a reset does. -/
theorem stepKeepsInvariant : Obligations.StepKeepsInvariant := fun _ _ hs hstep => hs.step hstep

/-- Settles O10: neither a command's end nor the host's turn writes the parameters. -/
theorem stepKeepsParameters : Obligations.StepKeepsParameters := fun _ _ hstep => step_cfg hstep

/-- Settles O4, clause by clause from the equations of `step`; `withFetchWord` is an acceptance with the engine next. -/
theorem stepRunsDecodedCommand : Obligations.StepRunsDecodedCommand := by
  refine ⟨fun s w i hm hw hi => ?_, fun s hm => step_of_host hm, fun s w i hi => ?_⟩
  · rw [step_of_engine hm, engineStep_of_decode (s := s.tail) hw hi]
    rfl
  · rw [step_of_engine (withFetchWord_mover s 32 w.toNat), withFetchWord_tail,
      engineStep_of_decode (s := s.accept w) rfl hi]
    rfl

/-- Settles O8: `State.reset` is the reset of the default build, which is legal. -/
theorem resetMeetsInvariant : Obligations.ResetMeetsInvariant := by
  have h := Inv.hardReset (s := State.reset) default_legal
  rwa [reset_hardReset] at h

end Sys2Proof.Machine

namespace Sys2Proof.Machine

/-! ## The state and its registers (10_state.md)

The map of the CSR block and what a bus access to it does, said once; the statements about single registers follow from these. -/

/-! ### The address map -/

/-- The map of R24 has each register at its own offset. -/
theorem Csr.ofOffset_eq_some {a : Nat} {r : Csr} (h : Csr.ofOffset a = some r) : a = r.offset := by
  unfold Csr.ofOffset at h
  split at h <;> cases h <;> rfl

theorem regionOf_csr (c : Config) (r : Csr) : regionOf c (BitVec.ofNat 32 r.offset) = some (.csr r) := by cases r <;> rfl

/-- Below 0x1000 lies the CSR block (R62). -/
theorem regionOf_of_lt {c : Config} {a : Word} (haligned : a.toNat % 4 = 0) (h : a.toNat < 0x1000) :
    regionOf c a = some (((Csr.ofOffset a.toNat).map Region.csr).getD .reserved) := by
  simp only [regionOf, haligned, ne_eq, not_true_eq_false, if_false, h, if_true]
  cases Csr.ofOffset a.toNat <;> rfl

/-- Is the region part of one of the six windows (R62)? -/
def Region.inWindow : Region → Bool
  | .csr _ | .reserved => false
  | .sym _ _ | .bits _ | .bytes _ | .tserTag _ | .tserSym _ | .code _ _ => true

/-- At 0x1000 and above lie the windows alone (R62). -/
theorem regionOf_inWindow {c : Config} {a : Word} {r : Region} (h : 0x1000 ≤ a.toNat) (hr : regionOf c a = some r) :
    r.inWindow = true := by
  simp only [regionOf, if_neg (Nat.not_lt.mpr h)] at hr
  split at hr
  · cases hr
  · split at hr
    case h_5 => -- the TSER window, whose entries are two words
      obtain ⟨-, rfl⟩ := within_eq_some hr
      split <;> rfl
    case h_7 => cases hr -- beyond the windows
    all_goals
      obtain ⟨-, rfl⟩ := within_eq_some hr
      rfl

theorem aligned_of_regionOf {c : Config} {a : Word} {r : Region} (h : regionOf c a = some r) : a.toNat % 4 = 0 := by
  by_contra hne
  simp [regionOf, hne] at h

/-- Only its own offset names a register. -/
theorem eq_offset_of_regionOf {c : Config} {a : Word} {r : Csr} (h : regionOf c a = some (.csr r)) :
    a = BitVec.ofNat 32 r.offset := by
  have hlt : a.toNat < 0x1000 := by
    by_contra hge
    exact absurd (regionOf_inWindow (Nat.le_of_not_lt hge) h) (by simp [Region.inWindow])
  rw [regionOf_of_lt (aligned_of_regionOf h) hlt] at h
  cases ho : Csr.ofOffset a.toNat with
  | none => simp [ho] at h
  | some q =>
    obtain rfl : q = r := by simpa [ho] using h
    rw [← Csr.ofOffset_eq_some ho, BitVec.ofNat_toNat, BitVec.setWidth_eq]

/-- The reserved offsets of R24. -/
theorem regionOf_reserved {c : Config} {a : Word} (haligned : a.toNat % 4 = 0)
    (hrange : 0x030 ≤ a.toNat ∧ a.toNat ≤ 0x03C ∨ 0x054 ≤ a.toNat ∧ a.toNat ≤ 0xFFC) : regionOf c a = some .reserved := by
  rw [regionOf_of_lt haligned (by omega)]
  cases ho : Csr.ofOffset a.toNat with
  | none => rfl
  | some r =>
    rw [Csr.ofOffset_eq_some ho] at hrange
    cases r <;> simp [Csr.offset] at hrange

/-! ### What an access finds and does -/

section Access
variable {s : State} {a : Word} {r : Region}

theorem busRead_of_region (hr : regionOf s.cfg a = some r) :
    busRead a s = some (s.draw (sample s r).known (sample s r).mask) := by
  simp only [busRead, hr]

/-- Where the spec gives the whole word, a read returns it and changes nothing (R71). -/
theorem busRead_of_exact {v : Word} (hr : regionOf s.cfg a = some r) (hv : sample s r = .exact v) :
    busRead a s = some (v, s) := by
  rw [busRead_of_region hr, hv]
  exact congrArg some (draw_exact v s)

/-- Where the spec gives no bit of the word, a read draws a free value (U2, U4 to U6). -/
theorem busRead_of_unspecified (hr : regionOf s.cfg a = some r) (hv : sample s r = .unspecified) :
    busRead a s = some (Config.freeWord s.env.draws, { s with env := { s.env with draws := s.env.draws + 1 } }) := by
  have hfree (x : Word) : x &&& 4294967295#32 = x := BitVec.and_allOnes
  rw [busRead_of_region hr, hv]
  simp [Sample.unspecified, State.draw, hfree]

theorem busWrite_of_region (v : Word) (hr : regionOf s.cfg a = some r) (hw : r.writable = true)
    (hb : s.status.busy = true → r.writableWhileBusy = true) : busWrite a v s = some (writeRegion r v s) := by
  have hkept : (s.status.busy && !r.writableWhileBusy) = false := by
    cases hbusy : s.status.busy with
    | false => rfl
    | true => rw [hb hbusy]; rfl
  simp [busWrite, hr, hw, hkept]

/-- A busy block drops every other write and sets WERR (R68 (b)). -/
theorem busWrite_of_busy (v : Word) (hr : regionOf s.cfg a = some r) (hw : r.writable = true) (hb : s.status.busy = true)
    (hdrop : r.writableWhileBusy = false) : busWrite a v s = some (dropWrite s) := by
  simp [busWrite, hr, hw, hb, hdrop]

/-- Whether a read is a bus error depends on the address and the build alone (R61, R69). -/
theorem busRead_isNone (a : Word) (s : State) : (busRead a s).isNone = (regionOf s.cfg a).isNone := by
  cases hr : regionOf s.cfg a with
  | none => simp [busRead, hr]
  | some r => simp [busRead, hr]

/-- Whether a write is a bus error depends on the address and the build alone (R61, R64, R69). -/
theorem busWrite_isNone (a v : Word) (s : State) : (busWrite a v s).isNone = !(regionOf s.cfg a).any Region.writable := by
  cases hr : regionOf s.cfg a with
  | none => simp [busWrite, hr]
  | some r =>
    simp only [busWrite, hr, Option.any_some]
    cases r.writable with
    | false => rfl
    | true =>
      rw [Bool.not_true, if_neg Bool.false_ne_true]
      split <;> rfl

/-- A busy block hides the windows (R68 (c)). -/
theorem sample_inWindow_of_busy (hb : s.status.busy = true) (hr : r.inWindow = true) : sample s r = .unspecified := by
  cases r with
  | csr _ | reserved => cases hr
  | sym _ _ | bits _ | bytes _ | tserTag _ | tserSym _ | code _ _ => simp [sample, hb]

end Access

/-! ### Registers -/

section Registers
variable {s : State} {r : Csr}

/-- A register that is not hidden reads the value it holds (R26). -/
theorem busRead_csr (h : s.status.busy = true → r.hiddenWhileBusy = false) :
    busRead (BitVec.ofNat 32 r.offset) s = some (readCsr s r, s) := by
  refine busRead_of_exact (regionOf_csr s.cfg r) ?_
  cases hb : s.status.busy with
  | false => simp [sample, hb]
  | true => simp [sample, h hb]

theorem busRead_csr_of_idle (r : Csr) (h : s.status.busy = false) :
    busRead (BitVec.ofNat 32 r.offset) s = some (readCsr s r, s) := busRead_csr fun hb => absurd hb (by simp [h])

theorem busRead_csr_of_hidden (hb : s.status.busy = true) (hr : r.hiddenWhileBusy = true) :
    busRead (BitVec.ofNat 32 r.offset) s =
      some (Config.freeWord s.env.draws, { s with env := { s.env with draws := s.env.draws + 1 } }) :=
  busRead_of_unspecified (regionOf_csr s.cfg r) (by simp [sample, hb, hr])

theorem busWrite_csr (v : Word) (h : s.status.busy = true → (Region.csr r).writableWhileBusy = true) :
    busWrite (BitVec.ofNat 32 r.offset) v s = some (writeCsr r v s) := busWrite_of_region v (regionOf_csr s.cfg r) rfl h

theorem busWrite_csr_of_idle (r : Csr) (v : Word) (h : s.status.busy = false) :
    busWrite (BitVec.ofNat 32 r.offset) v s = some (writeCsr r v s) := busWrite_csr v fun hb => absurd hb (by simp [h])

/-- A write to a register is no bus error. -/
theorem exists_busWrite_csr (r : Csr) (v : Word) (s : State) : ∃ t, busWrite (BitVec.ofNat 32 r.offset) v s = some t := by
  have h := busWrite_isNone (BitVec.ofNat 32 r.offset) v s
  rw [regionOf_csr] at h
  exact Option.isSome_iff_exists.mp (by simpa [Region.writable] using h)

end Registers

/-! ### The words of `CTRL`, `STATUS` and `TREE_STAT`

Each is an appending of its fields, stated here bit by bit; the `change` writes the width as the sum of the fields'. -/

theorem ctrlWord_getLsbD (s : State) (k : Nat) : s.ctrlWord.getLsbD k = (decide (k = 0) && s.ie) := by
  change BitVec.getLsbD (w := 31 + 1) (0#31 ++ BitVec.ofBool s.ie) k = _
  rw [BitVec.getLsbD_append, BitVec.getLsbD_ofBool]
  grind

theorem statusWord_getLsbD (s : State) (k : Nat) :
    s.statusWord.getLsbD k =
      if k = 0 then s.status.busy
      else if k = 1 then s.status.done
      else if 8 ≤ k ∧ k < 12 then s.status.err.toBits.getLsbD (k - 8)
      else if k = 16 then s.status.werr
      else false := by
  change BitVec.getLsbD (w := 15 + 1 + 4 + 4 + 6 + 1 + 1)
    (0#15 ++ BitVec.ofBool s.status.werr ++ 0#4 ++ s.status.err.toBits ++ 0#6 ++ BitVec.ofBool s.status.done ++
      BitVec.ofBool s.status.busy) k = _
  simp only [BitVec.getLsbD_append, BitVec.getLsbD_ofBool, BitVec.getLsbD_zero]
  grind

theorem statusWord_err (s : State) : s.statusWord.extractLsb' 8 4 = s.status.err.toBits := by
  ext k hk
  simp only [BitVec.getElem_extractLsb', statusWord_getLsbD]
  grind

theorem treeStatWord_getLsbD (s : State) (k : Nat) :
    s.treeStatWord.getLsbD k =
      if k = 0 then s.tree.isSome
      else if k = 1 then s.code.isSome
      else if k < 4 then s.treeKind.getLsbD (k - 2)
      else if k < 16 then false
      else (BitVec.ofNat 16 s.leafCount).getLsbD (k - 16) := by
  change BitVec.getLsbD (w := 16 + 12 + 2 + 1 + 1)
    (BitVec.ofNat 16 s.leafCount ++ 0#12 ++ s.treeKind ++ BitVec.ofBool s.code.isSome ++ BitVec.ofBool s.tree.isSome) k = _
  simp only [BitVec.getLsbD_append, BitVec.getLsbD_ofBool, BitVec.getLsbD_zero]
  grind

theorem treeStatWord_kind (s : State) : s.treeStatWord.extractLsb' 2 2 = s.treeKind := by
  ext k hk
  simp only [BitVec.getElem_extractLsb', treeStatWord_getLsbD]
  grind

/-- Dividing drops the fields below the first of an appending. -/
theorem toNat_append_div {m n : Nat} (x : BitVec m) (y : BitVec n) : (x ++ y).toNat / 2 ^ n = x.toNat := by
  rw [BitVec.toNat_append, ← Nat.shiftLeft_add_eq_or_of_lt y.isLt, Nat.shiftLeft_eq, Nat.mul_comm,
    Nat.mul_add_div (Nat.two_pow_pos n), Nat.div_eq_of_lt y.isLt, Nat.add_zero]

theorem treeStatWord_leafCount (s : State) : s.treeStatWord.toNat / 65536 = s.leafCount % 65536 := by
  change (BitVec.ofNat 16 s.leafCount ++ 0#12 ++ s.treeKind ++ BitVec.ofBool s.code.isSome ++
    BitVec.ofBool s.tree.isSome).toNat / (2 ^ 1 * 2 ^ 1 * 2 ^ 2 * 2 ^ 12) = _
  simp only [← Nat.div_div_eq_div_mul, toNat_append_div]
  exact BitVec.toNat_ofNat ..

/-! ### The statements about the registers -/

/-- Settles O16: `CMD` is neither hidden from a busy block's reads nor open to its writes. -/
theorem cmdRegister : Obligations.CmdRegister := by
  have hread (s : State) : busRead 0x00C#32 s = some (s.cmdLast, s) := busRead_csr (r := .cmd) fun _ => rfl
  exact ⟨fun s w hidle => busWrite_csr_of_idle .cmd w hidle,
    fun s w hbusy => busWrite_of_busy w (regionOf_csr s.cfg .cmd) rfl hbusy rfl, hread, hread State.reset⟩

/-- A register write that leaves the block idle, and the word that then reads back. -/
theorem busWrite_busRead_csr {s t : State} {v : Word} (r : Csr) (hs : s.status.busy = false) (hw : writeCsr r v s = t)
    (ht : t.status.busy = false) (hv : readCsr t r = v) :
    busWrite (BitVec.ofNat 32 r.offset) v s = some t ∧ busRead (BitVec.ofNat 32 r.offset) t = some (v, t) :=
  ⟨by rw [busWrite_csr_of_idle r v hs, hw], by rw [busRead_csr_of_idle r ht, hv]⟩

/-- Settles O17, register by register. -/
theorem lengthRegisters : Obligations.LengthRegisters := fun _ _ hidle =>
  ⟨busWrite_busRead_csr .sym0Len hidle rfl hidle rfl, busWrite_busRead_csr .sym1Len hidle rfl hidle rfl,
    busWrite_busRead_csr .bitLen hidle rfl hidle rfl, busWrite_busRead_csr .byteLen hidle rfl hidle rfl,
    busWrite_busRead_csr .tserLen hidle rfl hidle rfl⟩

/-- The registers whose writes are ignored (R25). -/
def Csr.readOnly : List Csr := [.id, .codeCount, .treeStat, .errInfo, .capSyms, .capBits, .capBytes, .capAlpha, .capCodeLen]

theorem writeCsr_readOnly {r : Csr} (h : r ∈ Csr.readOnly) (v : Word) (s : State) : writeCsr r v s = s := by
  simp only [Csr.readOnly, List.mem_cons, List.not_mem_nil, or_false] at h
  rcases h with rfl | rfl | rfl | rfl | rfl | rfl | rfl | rfl | rfl <;> rfl

/-- Settles O18 from the map of the CSR block and the words of the three registers. -/
theorem reservedAndReadOnly : Obligations.ReservedAndReadOnly := by
  intro s hidle
  refine ⟨fun a haligned hrange => ?_, fun a ha v => ?_, fun k hk => ?_, ?_, fun k hk => ?_, fun k hk => ?_⟩
  · have hr : regionOf s.cfg a = some .reserved := regionOf_reserved haligned hrange
    exact ⟨busRead_of_exact hr rfl, fun v => busWrite_of_region v hr rfl fun hb => absurd hb (by simp [hidle])⟩
  · obtain ⟨r, hr, rfl⟩ := List.mem_map.mp (show a ∈ Csr.readOnly.map fun r => BitVec.ofNat 32 r.offset from ha)
    rw [busWrite_csr_of_idle r v hidle, writeCsr_readOnly hr]
  · rw [ctrlWord_getLsbD, decide_eq_false (by omega), Bool.false_and]
  · rw [ctrlWord_getLsbD]; rfl
  · rw [statusWord_getLsbD, if_neg (by omega), if_neg (by omega), if_neg (by omega), if_neg (by omega)]
  · rw [treeStatWord_getLsbD, if_neg (by omega), if_neg (by omega), if_neg (by omega), if_pos hk.2]

/-- Settles O19: `CTRL` is open to a busy block's reads and writes. -/
theorem controlRegister : Obligations.ControlRegister := by
  have hwrite (s : State) (v : Word) : busWrite 0x004#32 v s = some (writeCtrl v s) := busWrite_csr (r := .ctrl) v fun _ => rfl
  refine ⟨⟨rfl, rfl⟩, fun s =>
    ⟨⟨busRead_csr (r := .ctrl) fun _ => rfl, ?_, fun k hk => ?_⟩, rfl, fun v hv => ?_, fun v hv => ?_⟩⟩
  · rw [ctrlWord_getLsbD]; rfl
  · rw [ctrlWord_getLsbD, decide_eq_false (by omega), Bool.false_and]
  · rw [hwrite, writeCtrl, hv]; rfl
  · exact ⟨s.hardReset, by rw [hwrite, writeCtrl, if_pos hv], rfl, hardReset_ie s⟩

/-- Settles O20: `STATUS` is open to a busy block's reads and writes. -/
theorem statusRegister : Obligations.StatusRegister := by
  intro s
  have hclear (a b : Bool) : (a && !b) = if b then false else a := by cases b <;> simp
  refine ⟨busRead_csr (r := .status) fun _ => rfl, by rw [statusWord_getLsbD]; rfl, by rw [statusWord_getLsbD]; rfl,
    statusWord_err s, by rw [statusWord_getLsbD]; rfl, fun v =>
      ⟨writeStatus v s, busWrite_csr (r := .status) v fun _ => rfl, rfl, rfl, rfl, hclear _ _, hclear _ _⟩⟩

/-- Settles O21; the invariant bounds the leaf count, and with it the size of the code table, by `MAX_ALPHA` (R36, R46). -/
theorem treeStatRegister : Obligations.TreeStatRegister := by
  refine ⟨⟨rfl, rfl⟩, fun s hs hidle => ?_⟩
  have hleaves {t : Tree} (ht : s.tree = some t) : t.leaves.length ≤ 65535 := by
    obtain ⟨-, -, -, -, -, -, halpha, -⟩ := hs.cfgLegal
    exact (hs.treeLeaves t ht).2.trans halpha
  have hcount : busRead 0x024#32 s = some (BitVec.ofNat 32 s.codeCount, s) := busRead_csr_of_idle .codeCount hidle
  refine ⟨busRead_csr_of_idle .errInfo hidle, busRead_csr_of_idle .treeStat hidle, by rw [treeStatWord_getLsbD]; rfl,
    by rw [treeStatWord_getLsbD]; rfl, fun k h4 h16 => ?_, fun ht => ?_, fun t ht => ?_, fun hc => ?_, fun c hc => ?_⟩
  · rw [treeStatWord_getLsbD, if_neg (by omega), if_neg (by omega), if_neg (by omega), if_pos h16]
  · simp [treeStatWord_kind, treeStatWord_leafCount, State.treeKind, State.leafCount, ht]
  · have hcount := hleaves ht
    rw [treeStatWord_kind, treeStatWord_leafCount]
    simp only [State.treeKind, State.leafCount, ht]
    refine ⟨Nat.mod_eq_of_lt (by omega), ?_⟩
    rcases t with _ | (_ | _) <;> rfl
  · rw [hcount, State.codeCount, hc]
  · obtain ⟨t, ht, rfl, -⟩ := hs.codeOfTree c hc
    refine ⟨_, hcount, ?_⟩
    simp only [State.codeCount, hc, codes_length]
    exact toNat_ofNat_le (hleaves ht) (by omega)

/-- The registers that read constants (R27, R38). -/
def Csr.constants : List Csr := [.id, .capSyms, .capBits, .capBytes, .capAlpha, .capCodeLen]

/-- Settles O22: the constants are hidden from no read, and the legal ranges of R7 fit a word. -/
theorem constantRegisters : Obligations.ConstantRegisters := by
  intro s hlegal
  obtain ⟨-, hsyms, -, -, hbits, -, halpha, -⟩ := hlegal
  have hbytes : s.cfg.maxBytes ≤ 8388609 := by simp only [Config.maxBytes]; omega
  have hread (r : Csr) (hr : r.hiddenWhileBusy = false) : busRead (BitVec.ofNat 32 r.offset) s = some (readCsr s r, s) :=
    busRead_csr fun _ => hr
  refine ⟨hread .id rfl, ⟨_, hread .capSyms rfl, toNat_ofNat_le hsyms (by omega)⟩,
    ⟨_, hread .capBits rfl, toNat_ofNat_le hbits (by omega)⟩, ⟨_, hread .capBytes rfl, toNat_ofNat_le hbytes (by omega)⟩,
    ⟨_, hread .capAlpha rfl, toNat_ofNat_le halpha (by omega)⟩, hread .capCodeLen rfl, fun a ha v => ?_⟩
  obtain ⟨r, -, rfl⟩ := List.mem_map.mp (show a ∈ Csr.constants.map fun r => BitVec.ofNat 32 r.offset from ha)
  obtain ⟨t, ht⟩ := exists_busWrite_csr r v s
  exact ⟨t, ht, busWrite_cfg ht⟩

/-! ### Accesses while a command is in flight -/

/-- Of the regions, a busy block lets `CTRL` and `STATUS` alone be written (R68 (a)). -/
theorem writableWhileBusy_iff {r : Region} : r.writableWhileBusy = true ↔ r = .csr .ctrl ∨ r = .csr .status := by
  cases r <;> simp [Region.writableWhileBusy]

/-- The registers whose value a busy block hides (R26). -/
def Csr.hidden : List Csr := [.sym0Len, .sym1Len, .bitLen, .byteLen, .tserLen, .codeCount, .treeStat, .errInfo]

theorem hiddenWhileBusy_of_mem : ∀ r ∈ Csr.hidden, r.hiddenWhileBusy = true := by decide

/-- Settles O24, clause by clause from the reads and writes of a busy block. -/
theorem accessesWhileBusy : Obligations.AccessesWhileBusy := by
  intro s hbusy
  refine ⟨fun v => ⟨?_, busWrite_csr (r := .status) v fun _ => rfl⟩, fun a v t hctrl hstatus ht => ?_, fun a v t ht ha => ?_,
    fun r hr => busRead_csr fun _ => ?_, fun a v => ⟨?_, ?_⟩⟩
  · exact busWrite_csr (r := .ctrl) v fun _ => rfl
  · rcases busWrite_eq_some ht with ⟨-, rfl⟩ | ⟨r, hr, hw, -⟩
    · rfl
    · rcases writableWhileBusy_iff.mp (hw hbusy) with rfl | rfl
      · exact absurd (eq_offset_of_regionOf hr) hctrl
      · exact absurd (eq_offset_of_regionOf hr) hstatus
  · suffices hdraw : busRead a s =
        some (Config.freeWord s.env.draws, { s with env := { s.env with draws := s.env.draws + 1 } }) by
      rw [hdraw] at ht
      cases ht
      exact ⟨rfl, rfl⟩
    rcases ha with hwindow | hcsr
    · cases hr : regionOf s.cfg a with
      | none => simp [busRead, hr] at ht
      | some r => exact busRead_of_unspecified hr (sample_inWindow_of_busy hbusy (regionOf_inWindow hwindow hr))
    · obtain ⟨r, hr, rfl⟩ := List.mem_map.mp (show a ∈ Csr.hidden.map fun r => BitVec.ofNat 32 r.offset from hcsr)
      exact busRead_csr_of_hidden hbusy (hiddenWhileBusy_of_mem r hr)
  · revert r
    decide
  · rw [busRead_isNone, busRead_isNone]
  · rw [busWrite_isNone, busWrite_isNone]

end Sys2Proof.Machine

namespace Sys2Proof.Machine

/-! ## How a command ends

What `exec` leaves when it answers a next state, whatever the command; and what R46 makes of the stores. -/

theorem ne_ok_of_mem_errorsOf {i : Instr} {e : ResultCode} (h : e ∈ errorsOf i) : e ≠ .ok := by
  rintro rfl
  cases i <;> simp [errorsOf] at h

/-- Whatever its result, a command completes and leaves control alone (R105, R106 (a)). -/
theorem exec_completes {i : Instr} {s t : State} (h : exec i s = .next t) :
    s.SameControl t ∧ t.inflight = none ∧ t.status.busy = false ∧ t.status.done = true := by
  rcases exec_eq_next h with ⟨-, u, hu, rfl⟩ | ⟨-, e, info, -, rfl⟩ | ⟨-, rfl⟩
  · obtain ⟨hcontrol, -, hexcept⟩ := endingOf_ok_frame hu
    exact ⟨(complete_frame .ok 0 hcontrol hexcept).1, rfl, rfl, rfl⟩
  · obtain ⟨hcontrol, -, hexcept⟩ := voidDest_frame (destOf i) s
    exact ⟨(complete_frame e info hcontrol hexcept).1, rfl, rfl, rfl⟩
  · exact ⟨⟨rfl, rfl, rfl, rfl, rfl⟩, rfl, rfl, rfl⟩

/-- A command touches nothing but its destination (R79, R112). -/
theorem exec_sameExcept {i : Instr} {s t : State} (hi : i.wellFormed = true) (h : exec i s = .next t) :
    s.SameExcept t (destOf i) := by
  rcases exec_eq_next h with ⟨-, u, hu, rfl⟩ | ⟨-, e, info, -, rfl⟩ | ⟨hbad, -⟩
  · obtain ⟨hcontrol, -, hexcept⟩ := endingOf_ok_frame hu
    exact (complete_frame .ok 0 hcontrol hexcept).2
  · obtain ⟨hcontrol, -, hexcept⟩ := voidDest_frame (destOf i) s
    exact (complete_frame e info hcontrol hexcept).2
  · simp [hi] at hbad

/-- A command that reports `OK` has ended with results. -/
theorem endingOf_of_exec_ok {i : Instr} {s t : State} (hi : i.wellFormed = true) (h : exec i s = .next t)
    (hok : t.status.err = .ok) : ∃ u, endingOf s i = .ok u ∧ t = u.complete .ok 0 := by
  rcases exec_eq_next h with ⟨-, hu⟩ | ⟨-, e, info, he, rfl⟩ | ⟨hbad, -⟩
  · exact hu
  · exact absurd hok (ne_ok_of_mem_errorsOf (endingOf_error he).1)
  · simp [hi] at hbad

/-- A command that reports an error has voided its destination (R106). -/
theorem voided_of_exec_error {i : Instr} {s t : State} (hi : i.wellFormed = true) (h : exec i s = .next t)
    (herr : t.status.err ≠ .ok) : t.Voided (destOf i) := by
  rcases exec_eq_next h with ⟨-, u, -, rfl⟩ | ⟨-, e, info, -, rfl⟩ | ⟨hbad, -⟩
  · exact absurd rfl herr
  · exact complete_voided e info (voidDest_voided (destOf i) s)
  · simp [hi] at hbad

/-- A command with another destination leaves TREE and CODE as they were (R46 (e)). -/
theorem sameStores_of_sameExcept {s t : State} {d : Dest} (h : s.SameExcept t d) (htree : d ≠ .tree) (hcode : d ≠ .code) :
    s.SameStores t := by
  cases d with
  | sym b => cases b <;> exact h.2.2
  | bits | bytes | tser => exact h.2.2
  | tree => exact absurd rfl htree
  | code => exact absurd rfl hcode

/-- The commands that write TREE: CODE goes either way, TREE with an error (R46 (a), (b)). -/
theorem exec_tree_validity {i : Instr} {s t : State} (hi : i.wellFormed = true) (hd : destOf i = .tree)
    (h : exec i s = .next t) :
    (t.status.err = .ok → t.tree.isSome = true ∧ t.code = none) ∧ (t.status.err ≠ .ok → t.tree = none ∧ t.code = none) := by
  refine ⟨fun hok => ?_, fun herr => ?_⟩
  · obtain ⟨u, hu, rfl⟩ := endingOf_of_exec_ok hi h hok
    obtain ⟨tree, rfl⟩ : ∃ tree, u = s.storeTree tree := by
      cases i with
      | buildTree b => obtain ⟨tree, -, rfl⟩ := (buildTreeEval_meets b s).ending_ok hu; exact ⟨tree, rfl⟩
      | treeLoad => obtain ⟨tree, -, rfl⟩ := (treeLoadEval_meets s).ending_ok hu; exact ⟨tree, rfl⟩
      | treeStore | deriveCodes | hufEnc _ | hufDec _ | rleEnc _ _ | rleDec _ _ | pack | unpack => cases hd
    exact ⟨rfl, rfl⟩
  · have hvoid := voided_of_exec_error hi h herr
    rwa [hd] at hvoid

/-- DERIVE_CODES (R46 (c), (d)). -/
theorem exec_deriveCodes_validity {s t : State} (h : exec .deriveCodes s = .next t) :
    t.tree = s.tree ∧ (t.status.err = .ok → t.code.isSome = true) ∧ (t.status.err ≠ .ok → t.code = none) := by
  refine ⟨(exec_sameExcept (i := .deriveCodes) rfl h).2.2, fun hok => ?_, voided_of_exec_error (i := .deriveCodes) rfl h⟩
  obtain ⟨u, hu, rfl⟩ := endingOf_of_exec_ok rfl h hok
  obtain ⟨table, -, rfl⟩ := (deriveCodesEval_meets s).ending_ok hu
  rfl

/-- Settles O15: the commands by their destination, the last clause by the invariant, which the step keeps. -/
theorem validityTransitions : Obligations.ValidityTransitions := by
  refine ⟨fun i s t hi h => ?_, fun s => ⟨rfl, rfl⟩, fun s t c hs hstep hc => ?_⟩
  · cases i with
    | buildTree b => exact exec_tree_validity hi rfl h
    | treeLoad => exact exec_tree_validity hi rfl h
    | deriveCodes => exact exec_deriveCodes_validity h
    | treeStore | hufEnc _ | hufDec _ | rleEnc _ _ | rleDec _ _ | pack | unpack =>
      exact sameStores_of_sameExcept (exec_sameExcept hi h) (by simp [destOf]) (by simp [destOf])
  · obtain ⟨tree, htree, hcodes, -⟩ := (hs.step hstep).codeOfTree c hc
    exact ⟨tree, htree, hcodes⟩

/-! ### BUSY and DONE -/

/-- The engine's turn completes the command in flight, whatever its word spells, and does nothing else to control (R101, R105). -/
theorem engineStep_completes {s t : State} (h : engineStep s = .next t) (hin : s.inflight.isSome = true) :
    s.SameControl t ∧ t.inflight = none ∧ t.status.busy = false ∧ t.status.done = true := by
  rcases engineStep_eq_next h with ⟨hnone, -⟩ | ⟨_, i, -, -, hi⟩ | ⟨_, -, -, rfl⟩
  · simp [hnone] at hin
  · exact exec_completes hi
  · exact ⟨⟨rfl, rfl, rfl, rfl, rfl⟩, rfl, rfl, rfl⟩

/-- A bus write to a busy block keeps BUSY, or resets the block (R68, R251). -/
theorem busWrite_busy {a v : Word} {s t : State} (h : busWrite a v s = some t) (hb : s.status.busy = true) :
    t.status.busy = true ∨ t = s.hardReset := by
  rcases busWrite_eq_some h with ⟨-, rfl⟩ | ⟨r, -, hr, rfl⟩
  · exact .inl hb
  · rcases writableWhileBusy_iff.mp (hr hb) with rfl | rfl
    · simp only [writeRegion, writeCsr, writeCtrl]
      split
      · exact .inr rfl
      · exact .inl hb
    · exact .inl hb

/-- No write to a register sets DONE: a reset and an acceptance clear it, and `STATUS` is W1C (R29, R100, R250). -/
theorem writeCsr_done (r : Csr) (v : Word) (s : State) (h : (writeCsr r v s).status.done = true) : s.status.done = true := by
  cases r with
  | ctrl =>
    simp only [writeCsr, writeCtrl] at h
    split at h
    · cases h
    · exact h
  | status => exact (Bool.and_eq_true_iff.mp h).1
  | cmd => cases h
  | sym0Len | sym1Len | bitLen | byteLen | tserLen => exact h
  | id | codeCount | treeStat | errInfo | capSyms | capBits | capBytes | capAlpha | capCodeLen => exact h

/-- No bus write sets DONE (R29). -/
theorem busWrite_done {a v : Word} {s t : State} (h : busWrite a v s = some t) (ht : t.status.done = true) :
    s.status.done = true := by
  rcases busWrite_eq_some h with ⟨-, rfl⟩ | ⟨r, -, -, rfl⟩
  · exact ht
  · cases r with
    | csr r => exact writeCsr_done r v s ht
    | reserved | sym _ _ | bits _ | bytes _ | tserTag _ | tserSym _ | code _ _ => exact ht

/-- The host ends BUSY by a reset alone (R251). -/
theorem HostMove.reset_of_busy_ends {s t : State} (h : HostMove s t) (hb : s.status.busy = true) (ht : t.status.busy = false) :
    t = { s.hardReset with env := t.env } := by
  cases h with
  | none _ => simp [hb] at ht
  | @write _ _ t before _ hw =>
    rcases busWrite_busy hw hb with hbusy | rfl
    · simp [hbusy] at ht
    · rfl
  | reset _ => rfl

/-- The host never sets DONE (R29). -/
theorem HostMove.done {s t : State} (h : HostMove s t) (ht : t.status.done = true) : s.status.done = true := by
  cases h with
  | none _ => exact ht
  | @write _ _ t before _ hw => exact busWrite_done (s := { s with env := before }) (t := t) hw ht
  | reset _ => cases ht

/-- Settles O11: the engine's turn completes the command that Inv says is in flight; the host can only reset. -/
theorem busyEndsOnlyByCompletionOrReset : Obligations.BusyEndsOnlyByCompletionOrReset := by
  intro s t hs hbusy hstep ht
  rcases step_eq_next hstep with ⟨hm, he⟩ | ⟨hm, rfl⟩
  · have hin : s.tail.inflight.isSome = true := hs.busyInflight.symm.trans hbusy
    obtain ⟨⟨-, -, hcmd, -⟩, hnone, -, hdone⟩ := engineStep_completes he hin
    exact .inl ⟨hm, hdone, hnone, hcmd⟩
  · exact .inr ⟨hm, (hostStep_move s.tail).reset_of_busy_ends hbusy ht⟩

/-- Settles O12: of the two agents the engine alone sets DONE, and only with a command in flight. -/
theorem doneRisesOnlyAtCompletion : Obligations.DoneRisesOnlyAtCompletion := by
  intro s t hstep hs ht
  rcases step_eq_next hstep with ⟨hm, he⟩ | ⟨-, rfl⟩
  · cases hw : s.inflight with
    | none =>
      have hidle : t = s.tail := by simpa [engineStep, hw] using he.symm
      rw [hidle, tail_status, hs] at ht
      cases ht
    | some w =>
      obtain ⟨-, hnone, hbusy, -⟩ := engineStep_completes he (by rw [tail_inflight, hw]; rfl)
      exact ⟨hm, rfl, hbusy, hnone⟩
  · have hdone : s.status.done = true := (hostStep_move s.tail).done ht
    rw [hs] at hdone
    cases hdone

end Sys2Proof.Machine

namespace Sys2Proof.Machine

/-! ## Where a command stops

`Eval.StopsOnly P` is the companion of `Eval.Meets` for the faults: where evaluating a rule stops, `P` holds of the reason. -/

/-- Evaluation stops, if at all, for a reason that satisfies `P`. -/
def Eval.StopsOnly {α : Type} (P : Fault → Prop) (x : Eval α) : Prop := ∀ f, x = .stop f → P f

section StopsOnly
variable {α β : Type} {P : Fault → Prop}

theorem stopsOnly_value (a : α) : (Eval.value a).StopsOnly P := fun _ h => by cases h

theorem stopsOnly_raise (e : ResultCode) (info : Nat) : (Eval.raise e info : Eval α).StopsOnly P := fun _ h => by cases h

theorem Eval.StopsOnly.bind {x : Eval β} {f : β → Eval α} (hx : x.StopsOnly P) (hf : ∀ b, (f b).StopsOnly P) :
    (x.bind f).StopsOnly P := fun r h => by
  rcases bind_eq_stop h with h | ⟨b, -, h⟩
  · exact hx r h
  · exact hf b r h

theorem stopsOnly_checkSource (len cap : Nat) {rest : Eval α} (h : rest.StopsOnly P) :
    (checkSource len cap rest).StopsOnly P := by
  unfold checkSource
  split
  · exact stopsOnly_raise _ _
  · exact h

theorem stopsOnly_checkOutput (len cap : Nat) {rest : Eval α} (h : rest.StopsOnly P) :
    (checkOutput len cap rest).StopsOnly P := stopsOnly_checkSource len cap h

theorem stopsOnly_readEntry {buf : Buffer} {m : Store α} {i : Nat} (h : m.get? i = none → P (.unwrittenEntry buf i)) :
    (readEntry buf m i).StopsOnly P := fun f hf => by
  obtain ⟨rfl, hnone⟩ := readEntry_eq_stop hf
  exact h hnone

theorem stopsOnly_readFrom {buf : Buffer} {m : Store α} {i n : Nat}
    (h : ∀ k, k < n → m.get? (i + k) = none → P (.unwrittenEntry buf (i + k))) :
    (readFrom buf m i n).StopsOnly P := fun f hf => by
  obtain ⟨k, hk, rfl, hnone⟩ := readFrom_eq_stop hf
  exact h k hk hnone

end StopsOnly

/-- The reason is an entry of the command's own source that has not been written (R49, R79). -/
def State.StopsAtSource (s : State) (i : Instr) (f : Fault) : Prop :=
  ∃ buf k, f = .unwrittenEntry buf k ∧ s.UnwrittenSource k i buf

theorem symseq_stopsOnly (s : State) (b : SymBuf) (i : Instr)
    (h : ∀ k, k < s.symLen b → (s.mem.sym b).get? k = none → s.UnwrittenSource k i (.sym b)) :
    (s.symseq b).StopsOnly (s.StopsAtSource i) :=
  stopsOnly_readFrom fun k hk hnone => by
    rw [Nat.zero_add] at hnone ⊢
    exact ⟨_, k, rfl, h k hk hnone⟩

theorem bitseq_stopsOnly (s : State) (i : Instr)
    (h : ∀ k, k < s.bitLen → s.mem.bits.get? k = none → s.UnwrittenSource k i .bits) :
    s.bitseq.StopsOnly (s.StopsAtSource i) :=
  stopsOnly_readFrom fun k hk hnone => by
    rw [Nat.zero_add] at hnone ⊢
    exact ⟨_, k, rfl, h k hk hnone⟩

/-! ### The loops that read no buffer -/

section Loops
variable {P : Fault → Prop}

theorem encodeFrom_stopsOnly (table : CodeTable) (i : Nat) (src : List Symbol) : (encodeFrom table i src).StopsOnly P := by
  induction src generalizing i with
  | nil => exact stopsOnly_value _
  | cons x rest ih =>
    simp only [encodeFrom]
    split
    · exact stopsOnly_raise _ _
    · exact (ih _).bind fun _ => stopsOnly_value _

theorem decodeLoop_stopsOnly (root node : Node) (start k : Nat) (bits : BitString) :
    (decodeLoop root node start k bits).StopsOnly P := by
  induction bits generalizing node start k with
  | nil =>
    simp only [decodeLoop]
    split
    · exact stopsOnly_raise _ _
    · exact stopsOnly_value _
  | cons b rest ih =>
    simp only [decodeLoop]
    split
    · exact (ih _ _ _).bind fun _ => stopsOnly_value _
    · exact ih _ _ _

theorem decodeBits_stopsOnly (bits : BitString) (t : Tree) : (decodeBits bits t).StopsOnly P := by
  match t with
  | .empty =>
    simp only [decodeBits]
    split
    · exact stopsOnly_value _
    · exact stopsOnly_raise _ _
  | .root (.leaf _) => exact stopsOnly_value _
  | .root (.inner _ _) => exact decodeLoop_stopsOnly _ _ _ _ _

end Loops

/-- The parser reads only entries before the `n`-th (R172). -/
theorem parseNode_stopsOnly {P : Fault → Prop} {m : Memory} {n : Nat}
    (htag : ∀ k, k < n → m.tserTag.get? k = none → P (.unwrittenEntry .tserTag k))
    (hsym : ∀ k, k < n → m.tserSym.get? k = none → P (.unwrittenEntry .tserSym k)) (depth i : Nat) :
    (parseNode m n depth i).StopsOnly P := by
  induction depth generalizing i with
  | zero => exact stopsOnly_raise _ _
  | succ depth ih =>
    simp only [parseNode]
    split
    · exact stopsOnly_raise _ _
    next hlt =>
      have hi : i < n := Nat.lt_of_not_le hlt
      refine (stopsOnly_readEntry (htag i hi)).bind fun tag => ?_
      split
      · exact (stopsOnly_readEntry (hsym i hi)).bind fun _ => stopsOnly_value _
      · split
        · exact (ih _).bind fun _ => (ih _).bind fun _ => stopsOnly_value _
        · exact stopsOnly_raise _ _

/-! ### Each command stops only at its own source -/

theorem buildTreeEval_stopsOnly (b : SymBuf) (s : State) : (buildTreeEval b s).StopsOnly (s.StopsAtSource (.buildTree b)) :=
  stopsOnly_checkSource _ _ <| (symseq_stopsOnly s b (.buildTree b) fun _ hk hnone => ⟨rfl, hk, hnone⟩).bind fun _ =>
    stopsOnly_checkOutput _ _ <| stopsOnly_value _

theorem treeStoreEval_stopsOnly (s : State) : (treeStoreEval s).StopsOnly (s.StopsAtSource .treeStore) := by
  unfold treeStoreEval
  split
  · exact stopsOnly_raise _ _
  · exact stopsOnly_value _

theorem treeLoadEval_stopsOnly (s : State) : (treeLoadEval s).StopsOnly (s.StopsAtSource .treeLoad) := by
  refine stopsOnly_checkSource _ _ ?_
  split
  · exact stopsOnly_value _
  · refine Eval.StopsOnly.bind ?_ fun _ => ?_
    · exact parseNode_stopsOnly (fun k hk hnone => ⟨_, k, rfl, hk, hnone⟩) (fun k hk hnone => ⟨_, k, rfl, hk, hnone⟩) _ _
    split
    · exact stopsOnly_raise _ _
    · split
      · exact stopsOnly_raise _ _
      · exact stopsOnly_value _

theorem deriveCodesEval_stopsOnly (s : State) : (deriveCodesEval s).StopsOnly (s.StopsAtSource .deriveCodes) := by
  unfold deriveCodesEval
  split
  · exact stopsOnly_raise _ _
  · split
    · exact stopsOnly_raise _ _
    · exact stopsOnly_value _

theorem hufEncEval_stopsOnly (b : SymBuf) (s : State) : (hufEncEval b s).StopsOnly (s.StopsAtSource (.hufEnc b)) := by
  unfold hufEncEval
  split
  · exact stopsOnly_raise _ _
  · exact stopsOnly_checkSource _ _ <| (symseq_stopsOnly s b (.hufEnc b) fun _ hk hnone => ⟨rfl, hk, hnone⟩).bind fun _ =>
      (encodeFrom_stopsOnly _ _ _).bind fun _ => stopsOnly_checkOutput _ _ <| stopsOnly_value _

theorem hufDecEval_stopsOnly (d : SymBuf) (s : State) : (hufDecEval s).StopsOnly (s.StopsAtSource (.hufDec d)) := by
  unfold hufDecEval
  split
  · exact stopsOnly_raise _ _
  · exact stopsOnly_checkSource _ _ <| (bitseq_stopsOnly s (.hufDec d) fun _ hk hnone => ⟨hk, hnone⟩).bind fun _ =>
      (decodeBits_stopsOnly _ _).bind fun _ => stopsOnly_checkOutput _ _ <| stopsOnly_value _

theorem rleEncEval_stopsOnly (b d : SymBuf) (s : State) : (rleEncEval b s).StopsOnly (s.StopsAtSource (.rleEnc b d)) :=
  stopsOnly_checkSource _ _ <| (symseq_stopsOnly s b (.rleEnc b d) fun _ hk hnone => ⟨rfl, hk, hnone⟩).bind fun _ =>
    stopsOnly_checkOutput _ _ <| stopsOnly_value _

theorem rleDecEval_stopsOnly (b d : SymBuf) (s : State) : (rleDecEval b s).StopsOnly (s.StopsAtSource (.rleDec b d)) := by
  refine stopsOnly_checkSource _ _ ?_
  split
  · exact stopsOnly_raise _ _
  · exact (symseq_stopsOnly s b (.rleDec b d) fun _ hk hnone => ⟨rfl, hk, hnone⟩).bind fun _ =>
      stopsOnly_checkOutput _ _ <| stopsOnly_value _

theorem packEval_stopsOnly (s : State) : (packEval s).StopsOnly (s.StopsAtSource .pack) :=
  stopsOnly_checkSource _ _ <| (bitseq_stopsOnly s .pack fun _ hk hnone => ⟨hk, hnone⟩).bind fun _ => stopsOnly_value _

theorem unpackEval_stopsOnly (s : State) : (unpackEval s).StopsOnly (s.StopsAtSource .unpack) := by
  refine stopsOnly_checkSource _ _ ?_
  split
  · exact stopsOnly_raise _ _
  next hlen =>
    refine (stopsOnly_readEntry fun hnone => ⟨_, 0, rfl, Nat.pos_of_ne_zero hlen, hnone⟩).bind fun header => ?_
    split
    · exact stopsOnly_raise _ _
    · split
      · exact stopsOnly_raise _ _
      · exact (stopsOnly_readFrom fun k hk hnone => ⟨_, 1 + k, rfl, by omega, hnone⟩).bind fun _ => stopsOnly_value _

theorem Eval.StopsOnly.ending_stop {α : Type} {P : Fault → Prop} {x : Eval α} (hx : x.StopsOnly P) {store : α → State → State}
    {s : State} {f : Fault} (h : x.ending store s = .stop f) : P f := by
  cases x with
  | value a => cases h
  | raise e info => cases h
  | stop r => cases h; exact hx _ rfl

/-- A command whose rule stops has met an entry of its own source that has not been written (R49, R79). -/
theorem endingOf_stop {s : State} {i : Instr} {f : Fault} (h : endingOf s i = .stop f) : s.StopsAtSource i f := by
  cases i with
  | buildTree b => exact (buildTreeEval_stopsOnly b s).ending_stop h
  | treeStore => exact (treeStoreEval_stopsOnly s).ending_stop h
  | treeLoad => exact (treeLoadEval_stopsOnly s).ending_stop h
  | deriveCodes => exact (deriveCodesEval_stopsOnly s).ending_stop h
  | hufEnc b => exact (hufEncEval_stopsOnly b s).ending_stop h
  | hufDec d => exact (hufDecEval_stopsOnly d s).ending_stop h
  | rleEnc b d => exact (rleEncEval_stopsOnly b d s).ending_stop h
  | rleDec b d => exact (rleDecEval_stopsOnly b d s).ending_stop h
  | pack => exact (packEval_stopsOnly s).ending_stop h
  | unpack => exact (unpackEval_stopsOnly s).ending_stop h

/-- A command faults only where its rule stops. -/
theorem exec_eq_fault {i : Instr} {s : State} {f : Fault} (h : exec i s = .fault f) : endingOf s i = .stop f := by
  rw [exec_eq] at h
  split at h
  · cases he : endingOf s i with
    | ok u => rw [he] at h; cases h
    | error e info => rw [he] at h; cases h
    | stop r => rw [he] at h; cases h; rfl
  · cases h

/-- Every command has a meaning. -/
theorem exec_ne_refused (i : Instr) (s : State) (q : Refusal) : exec i s ≠ .refused q := by
  rw [exec_eq]
  split
  · cases endingOf s i <;> simp
  · simp

/-! ### Each command stops where its source is not written -/

/-- Evaluation stops. -/
def Eval.Stops {α : Type} (x : Eval α) : Prop := ∃ f, x = .stop f

section Stops
variable {α β : Type}

theorem Eval.Stops.bind {x : Eval β} (f : β → Eval α) (hx : x.Stops) : (x.bind f).Stops := by
  obtain ⟨r, rfl⟩ := hx
  exact ⟨r, rfl⟩

theorem stops_checkSource {len cap : Nat} {rest : Eval α} (hle : len ≤ cap) (h : rest.Stops) :
    (checkSource len cap rest).Stops := by rwa [checkSource_le _ hle]

theorem stops_readEntry (buf : Buffer) {m : Store α} {i : Nat} (hnone : m.get? i = none) : (readEntry buf m i).Stops :=
  ⟨.unwrittenEntry buf i, by simp only [readEntry, hnone]⟩

/-- Reading a source with an entry not written gives no sequence and raises nothing, so it stops. -/
theorem stops_readFrom (buf : Buffer) {m : Store α} {i n k : Nat} (hk : k < n) (hnone : m.get? (i + k) = none) :
    (readFrom buf m i n).Stops := by
  cases h : readFrom buf m i n with
  | value l =>
    obtain ⟨hlen, hget⟩ := readFrom_eq_value.mp h
    have := hget k hk
    rw [hnone, List.getElem?_eq_getElem (by omega)] at this
    cases this
  | raise e info => exact absurd h (readFrom_ne_raise _ _ _ _ _ _)
  | stop f => exact ⟨f, rfl⟩

theorem stops_symseq {s : State} {b : SymBuf} {k : Nat} (hk : k < s.symLen b) (hnone : (s.mem.sym b).get? k = none) :
    (s.symseq b).Stops := stops_readFrom _ hk (by rwa [Nat.zero_add])

theorem stops_bitseq {s : State} {k : Nat} (hk : k < s.bitLen) (hnone : s.mem.bits.get? k = none) : s.bitseq.Stops :=
  stops_readFrom _ hk (by rwa [Nat.zero_add])

/-- A well-formed command whose rule stops faults. -/
theorem Eval.Stops.exec {x : Eval α} (hx : x.Stops) {store : α → State → State} {s : State} {i : Instr}
    (hi : i.wellFormed = true) (hrule : endingOf s i = x.ending store s) : ∃ f, exec i s = .fault f := by
  obtain ⟨f, rfl⟩ := hx
  exact ⟨f, by rw [exec_eq, if_pos hi, hrule]; rfl⟩

end Stops

/-- UNPACK stops at a header not written, or, the header being legal, at a data byte not written (R122). -/
theorem stops_unpackEval {s : State} {k : Nat} (hcap : s.byteLen ≤ s.cfg.maxBytes) (hk : k < s.byteLen)
    (hnone : s.mem.bytes.get? k = none) (hheader : ∀ h, s.mem.bytes.get? 0 = some h → h.toNat ≤ 7) : (unpackEval s).Stops := by
  refine stops_checkSource hcap ?_
  rw [if_neg (by omega)]
  cases h0 : s.mem.bytes.get? 0 with
  | none => exact (stops_readEntry _ h0).bind _
  | some h =>
    have hk0 : k ≠ 0 := by rintro rfl; simp [h0] at hnone
    rw [readEntry_eq_value.mpr h0, bind_value, if_neg (Nat.not_lt.mpr (hheader h h0)), if_neg (by omega)]
    refine (stops_readFrom _ (k := k - 1) (by omega) ?_).bind _
    rwa [Nat.add_sub_cancel' (by omega)]

/-- The parser stops at an entry whose tag, or whose symbol with the tag of a leaf, is not written (R172). -/
theorem stops_parseNode_here {m : Memory} {n i : Nat} (depth : Nat) (hi : i < n)
    (hnone : m.tserTag.get? i = none ∨ m.tserTag.get? i = some 1#32 ∧ m.tserSym.get? i = none) :
    (parseNode m n (depth + 1) i).Stops := by
  simp only [parseNode, if_neg (Nat.not_le.mpr hi)]
  rcases hnone with htag | ⟨htag, hsym⟩
  · exact (stops_readEntry _ htag).bind _
  · rw [readEntry_eq_value.mpr htag, bind_value, if_pos (c := 1#32 = 1) rfl]
    exact (stops_readEntry _ hsym).bind _

/-- Where the entries agree with a node's portable form up to entry `k`, the parser reaches that entry, and stops there if it is not
written (R170, R172). -/
theorem stops_parseNode {m : Memory} {n : Nat} (node : Node) {depth i k : Nat} (hd : k < depth) (hk : k < node.size)
    (hn : i + k < n) (he : EntriesAt m i (node.serialize.take k))
    (hnone : m.tserTag.get? (i + k) = none ∨ m.tserTag.get? (i + k) = some 1#32 ∧ m.tserSym.get? (i + k) = none) :
    (parseNode m n depth i).Stops := by
  induction node generalizing depth i k with
  | leaf s =>
    obtain rfl : k = 0 := by simp only [Node.size] at hk; omega
    obtain ⟨d, rfl⟩ : ∃ d, depth = d + 1 := ⟨depth - 1, by omega⟩
    exact stops_parseNode_here d hn hnone
  | inner l r ihl ihr =>
    obtain ⟨d, rfl⟩ : ∃ d, depth = d + 1 := ⟨depth - 1, by omega⟩
    cases k with
    | zero => exact stops_parseNode_here d hn hnone
    | succ k =>
      rw [show i + (k + 1) = i + 1 + k by omega] at hn hnone
      simp only [Node.size] at hk
      simp only [Node.serialize, List.take_succ_cons] at he
      obtain ⟨⟨htag, -⟩, he⟩ := entriesAt_cons.mp he
      have hroot : parseNode m n (d + 1) i = (parseNode m n d (i + 1)).bind fun lj =>
          (parseNode m n d lj.2).bind fun rk => .value (.inner lj.1 rk.1, rk.2) := by
        simp [parseNode, readEntry_eq_value.mpr htag, show ¬ n ≤ i by omega]
      rw [hroot]
      have hlen := serialize_length l
      by_cases hkl : k < l.size
      · rw [List.take_append_of_le_length (by omega)] at he
        exact (ihl (by omega) hkl hn he hnone).bind _
      · rw [List.take_append, List.take_of_length_le (by omega)] at he
        obtain ⟨hl, hr⟩ := entriesAt_append.mp he
        rw [hlen] at hr
        have hk' : i + 1 + l.size + (k - l.size) = i + 1 + k := by omega
        rw [parseNode_serialize l d (i + 1) (by omega) (by omega) hl, bind_value]
        exact (ihr (by omega) (by omega) (by rwa [hk']) hr (by rwa [hk'])).bind _

theorem entriesAt_of_tserAgrees {s : State} {n : Node} {k : Nat} (h : s.TserAgrees n k) :
    EntriesAt s.mem 0 (n.serialize.take k) := by
  intro j e he
  rw [List.getElem?_take] at he
  split at he
  next hj => rw [Nat.zero_add]; exact h j hj e he
  · cases he

/-- TREE_LOAD stops at the entry its parse has reached when that is not written (R172). -/
theorem stops_treeLoadEval {s : State} {n : Node} {k : Nat} (hcap : s.tserLen ≤ s.cfg.maxTser) (hagrees : s.TserAgrees n k)
    (hkn : k < n.serialize.length) (hk : k < s.tserLen)
    (hnone : s.mem.tserTag.get? k = none ∨ s.mem.tserTag.get? k = some 1#32 ∧ s.mem.tserSym.get? k = none) :
    (treeLoadEval s).Stops := by
  refine stops_checkSource hcap ?_
  rw [if_neg (by omega)]
  rw [serialize_length] at hkn
  refine (stops_parseNode n (by omega) hkn ?_ (entriesAt_of_tserAgrees hagrees) ?_).bind _
  · rwa [Nat.zero_add]
  · rwa [Nat.zero_add]

/-- HUF_ENC reads its whole source before it looks up a symbol (R200). -/
theorem stops_hufEncEval {s : State} {b : SymBuf} (hcode : s.code.isSome = true) (hcap : s.symLen b ≤ s.cfg.maxSyms)
    (hsrc : (s.symseq b).Stops) : (hufEncEval b s).Stops := by
  obtain ⟨table, htable⟩ := Option.isSome_iff_exists.mp hcode
  simp only [hufEncEval, htable]
  exact stops_checkSource hcap (hsrc.bind _)

/-- HUF_DEC reads its whole source before it looks at the tree (R201). -/
theorem stops_hufDecEval {s : State} (htree : s.tree.isSome = true) (hcap : s.bitLen ≤ s.cfg.maxBits)
    (hsrc : s.bitseq.Stops) : (hufDecEval s).Stops := by
  obtain ⟨tree, htree⟩ := Option.isSome_iff_exists.mp htree
  simp only [hufDecEval, htree]
  exact stops_checkSource hcap (hsrc.bind _)

/-- RLE_DEC checks the length and then reads its whole source (R142). -/
theorem stops_rleDecEval {s : State} {b : SymBuf} (heven : s.symLen b % 2 = 0) (hcap : s.symLen b ≤ s.cfg.maxSyms)
    (hsrc : (s.symseq b).Stops) : (rleDecEval b s).Stops := by
  refine stops_checkSource hcap ?_
  rw [if_neg (by omega)]
  exact hsrc.bind _

/-- Settles O48: a fault is where the command's rule stops, and the rules stop at an unwritten entry of their source and only there. -/
theorem stopsOnlyAtUnwrittenEntries : Obligations.StopsOnlyAtUnwrittenEntries := by
  refine ⟨fun i s => ⟨exec_ne_refused i s, fun f hf => endingOf_stop (exec_eq_fault hf)⟩, fun s k =>
    ⟨fun b hcap hk hnone => ?_, fun hcap hk hnone => ?_, fun hcap hk hnone hheader => ?_, fun n hcap hagrees hkn hk hnone => ?_⟩⟩
  · have hsrc : (s.symseq b).Stops := stops_symseq hk hnone
    refine ⟨(stops_checkSource hcap (hsrc.bind _)).exec rfl rfl, fun hcode => (stops_hufEncEval hcode hcap hsrc).exec rfl rfl,
      fun d hbd => ⟨(stops_checkSource hcap (hsrc.bind _)).exec (decide_eq_true hbd) rfl, fun heven =>
        (stops_rleDecEval heven hcap hsrc).exec (decide_eq_true hbd) rfl⟩⟩
  · have hsrc : s.bitseq.Stops := stops_bitseq hk hnone
    exact ⟨(stops_checkSource hcap (hsrc.bind _)).exec rfl rfl, fun d htree => (stops_hufDecEval htree hcap hsrc).exec rfl rfl⟩
  · exact (stops_unpackEval hcap hk hnone hheader).exec rfl rfl
  · exact (stops_treeLoadEval hcap hagrees hkn hk hnone).exec rfl rfl

end Sys2Proof.Machine

namespace Sys2Proof.Machine

/-! ## The bus and the host's turn (20_memory.md)

Which region an address names, what the windows read and write, and the host's access as the bus's. -/

/-! ### The addresses of the windows (R62) -/

/-- An offset into the n-th 16 MiB of the map, taken apart as `regionOf` does. -/
theorem toNat_windowAddr (base : Nat) {n off : Nat} (hbase : base = 0x1000000 * n) (hpos : 0 < n) (hn : n < 256)
    (hoff : off < 0x1000000) :
    (BitVec.ofNat 32 (base + off)).toNat % 4 = off % 4 ∧ ¬ (BitVec.ofNat 32 (base + off)).toNat < 0x1000 ∧
      (BitVec.ofNat 32 (base + off)).toNat / 0x1000000 = n ∧ (BitVec.ofNat 32 (base + off)).toNat % 0x1000000 = off := by
  rw [toNat_ofNat_le (Nat.le_refl _) (by omega)]
  omega

section Windows
variable {c : Config} (hc : c.Legal)
include hc

theorem regionOf_sym (b : SymBuf) {i : Nat} (hi : i < c.maxSyms) :
    regionOf c (BitVec.ofNat 32 (0x1000000 * (if b = .sym0 then 1 else 2) + 4 * i)) = some (.sym b i) := by
  obtain ⟨-, hsyms, -⟩ := hc
  have haligned : 4 * i % 4 = 0 := by omega
  have hentry : 4 * i / 4 = i := by omega
  cases b with
  | sym0 =>
    obtain ⟨h4, hge, hn, hoff⟩ := toNat_windowAddr (0x1000000 * 1) (off := 4 * i) rfl (by decide) (by decide) (by omega)
    simp only [regionOf, if_true, h4, hge, hn, hoff, haligned, hentry]
    exact if_pos hi
  | sym1 =>
    obtain ⟨h4, hge, hn, hoff⟩ := toNat_windowAddr (0x1000000 * 2) (off := 4 * i) rfl (by decide) (by decide) (by omega)
    simp only [regionOf, reduceCtorEq, if_false, h4, hge, hn, hoff, haligned, hentry]
    exact if_pos hi

theorem regionOf_bits {w : Nat} (hw : w < c.maxBits / 32) :
    regionOf c (BitVec.ofNat 32 (0x3000000 + 4 * w)) = some (.bits w) := by
  obtain ⟨-, -, -, -, hbits, -⟩ := hc
  obtain ⟨h4, hge, hn, hoff⟩ := toNat_windowAddr 0x3000000 (n := 3) (off := 4 * w) rfl (by decide) (by decide) (by omega)
  have haligned : 4 * w % 4 = 0 := by omega
  have hword : 4 * w / 4 = w := by omega
  simp only [regionOf, h4, hge, hn, hoff, haligned, hword]
  exact if_pos hw

theorem regionOf_bytes {w : Nat} (hw : 4 * w < c.maxBytes) :
    regionOf c (BitVec.ofNat 32 (0x4000000 + 4 * w)) = some (.bytes w) := by
  obtain ⟨-, -, -, -, hbits, -⟩ := hc
  have hbytes : c.maxBytes ≤ 8388609 := by simp only [Config.maxBytes]; omega
  obtain ⟨h4, hge, hn, hoff⟩ := toNat_windowAddr 0x4000000 (n := 4) (off := 4 * w) rfl (by decide) (by decide) (by omega)
  have haligned : 4 * w % 4 = 0 := by omega
  have hword : 4 * w / 4 = w := by omega
  have hcap : w < ceilDiv c.maxBytes 4 := by simp only [ceilDiv]; omega
  simp only [regionOf, h4, hge, hn, hoff, haligned, hword]
  exact if_pos hcap

/-- An entry of TSER within the capacity ends in the window of any legal build. -/
theorem tserOffset_lt {i : Nat} (hi : i < c.maxTser) : 8 * i + 4 < 0x1000000 := by
  obtain ⟨-, -, -, -, -, -, halpha, -⟩ := hc
  simp only [Config.maxTser] at hi
  omega

theorem regionOf_tserTag {i : Nat} (hi : i < c.maxTser) :
    regionOf c (BitVec.ofNat 32 (0x5000000 + 8 * i)) = some (.tserTag i) := by
  have hlt := tserOffset_lt hc hi
  obtain ⟨h4, hge, hn, hoff⟩ := toNat_windowAddr 0x5000000 (n := 5) (off := 8 * i) rfl (by decide) (by decide) (by omega)
  have haligned : 8 * i % 4 = 0 := by omega
  have hentry : 8 * i / 8 = i := by omega
  have hfirst : 8 * i % 8 = 0 := by omega
  simp only [regionOf, h4, hge, hn, hoff, haligned, hentry, hfirst]
  exact if_pos hi

theorem regionOf_tserSym {i : Nat} (hi : i < c.maxTser) :
    regionOf c (BitVec.ofNat 32 (0x5000000 + 8 * i + 4)) = some (.tserSym i) := by
  have hlt := tserOffset_lt hc hi
  obtain ⟨h4, hge, hn, hoff⟩ := toNat_windowAddr 0x5000000 (n := 5) (off := 8 * i + 4) rfl (by decide) (by decide) (by omega)
  have haligned : (8 * i + 4) % 4 = 0 := by omega
  have hentry : (8 * i + 4) / 8 = i := by omega
  have hsecond : (8 * i + 4) % 8 = 4 := by omega
  rw [Nat.add_assoc]
  simp only [regionOf, h4, hge, hn, hoff, haligned, hentry, hsecond]
  exact if_pos hi

theorem regionOf_code {i field : Nat} (hi : i < c.maxAlpha) (hfield : field < 4) :
    regionOf c (BitVec.ofNat 32 (0x6000000 + 16 * i + 4 * field)) = some (.code i field) := by
  obtain ⟨-, -, -, -, -, -, halpha, -⟩ := hc
  obtain ⟨h4, hge, hn, hoff⟩ :=
    toNat_windowAddr 0x6000000 (n := 6) (off := 16 * i + 4 * field) rfl (by decide) (by decide) (by omega)
  have haligned : (16 * i + 4 * field) % 4 = 0 := by omega
  have hentry : (16 * i + 4 * field) / 16 = i := by omega
  have hword : (16 * i + 4 * field) % 16 / 4 = field := by omega
  rw [Nat.add_assoc]
  simp only [regionOf, h4, hge, hn, hoff, haligned, hentry, hword]
  exact if_pos hi

end Windows

/-! ### The addresses that are bus errors (R61, R62, R64, R69) -/

theorem within_eq_none {i cap : Nat} {r : Region} : within i cap r = none ↔ cap ≤ i := by simp [within]

/-- The addresses that name nothing: misaligned, between the CSR block and the windows, beyond the windows, or at or beyond a
buffer's capacity. -/
abbrev Unmapped (c : Config) (a : Nat) : Prop :=
  a % 4 ≠ 0 ∨ (0x1000 ≤ a ∧ a < 0x1000000) ∨ 0x7000000 ≤ a ∨
    (0x1000000 ≤ a ∧ a < 0x2000000 ∧ c.maxSyms ≤ (a - 0x1000000) / 4) ∨
    (0x2000000 ≤ a ∧ a < 0x3000000 ∧ c.maxSyms ≤ (a - 0x2000000) / 4) ∨
    (0x3000000 ≤ a ∧ a < 0x4000000 ∧ c.maxBits / 32 ≤ (a - 0x3000000) / 4) ∨
    (0x4000000 ≤ a ∧ a < 0x5000000 ∧ (c.maxBytes + 3) / 4 ≤ (a - 0x4000000) / 4) ∨
    (0x5000000 ≤ a ∧ a < 0x6000000 ∧ c.maxTser ≤ (a - 0x5000000) / 8) ∨
    (0x6000000 ≤ a ∧ a < 0x7000000 ∧ c.maxAlpha ≤ (a - 0x6000000) / 16)

theorem regionOf_eq_none_iff (c : Config) (a : Word) : regionOf c a = none ↔ Unmapped c a.toNat := by
  simp only [regionOf, Unmapped]
  split
  next hmisaligned => exact iff_of_true rfl (.inl hmisaligned)
  next haligned =>
    split
    next hcsr =>
      refine iff_of_false ?_ (by omega)
      split <;> simp
    next hge =>
      split
      case h_7 h1 h2 h3 h4 h5 h6 => -- no window
        have houtside : a.toNat / 0x1000000 = 0 ∨ 7 ≤ a.toNat / 0x1000000 := by
          simp only [imp_false] at h1 h2 h3 h4 h5 h6
          omega
        refine iff_of_true rfl ?_
        rcases houtside with hbefore | hbeyond
        · exact .inr (.inl (by omega))
        · exact .inr (.inr (.inl (by omega)))
      all_goals -- the capacity decides in its own window, and no other disjunct speaks of it
        simp (disch := omega) only [within_eq_none, ceilDiv, or_iff_right, or_iff_left, and_iff_right]
        omega

/-- Of the addresses that name something, those of the CODE window alone take no write. -/
theorem writable_of_regionOf {c : Config} {a : Word} {r : Region} (h : regionOf c a = some r) :
    r.writable = false ↔ 0x6000000 ≤ a.toNat ∧ a.toNat < 0x7000000 := by
  simp only [regionOf] at h
  split at h
  · cases h
  · split at h
    next hcsr =>
      refine iff_of_false ?_ (by omega)
      split at h <;> cases h <;> simp [Region.writable]
    · split at h
      case h_5 => -- the TSER window, whose entries are two words
        refine iff_of_false ?_ (by omega)
        obtain ⟨-, rfl⟩ := within_eq_some h
        split <;> simp [Region.writable]
      case h_6 => -- the CODE window
        obtain ⟨-, rfl⟩ := within_eq_some h
        exact iff_of_true rfl (by omega)
      case h_7 => cases h
      all_goals
        obtain ⟨-, rfl⟩ := within_eq_some h
        exact iff_of_false (by simp [Region.writable]) (by omega)

/-! ### The host's access as the bus's (R60 to R62) -/

section HostAccess
variable {s : State} {addr v : Word}

theorem hostRead_of_narrow {enables : BitVec 4} (h : enables ≠ 15#4) : hostRead addr enables s = (.busError, s) := if_pos h

theorem hostRead_of_some {u : Word} {t : State} (h : busRead (addr - s.cfg.platformBase) s = some (u, t)) :
    hostRead addr 15#4 s = (.data u, t) := by
  simp [hostRead, blockAddr, h]

theorem hostRead_of_none (h : busRead (addr - s.cfg.platformBase) s = none) : hostRead addr 15#4 s = (.busError, s) := by
  simp [hostRead, blockAddr, h]

theorem hostWrite_of_narrow {enables : BitVec 4} (h : enables ≠ 15#4) : hostWrite addr v enables s = (.busError, s) := if_pos h

theorem hostWrite_of_some {t : State} (h : busWrite (addr - s.cfg.platformBase) v s = some t) :
    hostWrite addr v 15#4 s = (.ack, t) := by
  simp [hostWrite, blockAddr, h]

theorem hostWrite_of_none (h : busWrite (addr - s.cfg.platformBase) v s = none) : hostWrite addr v 15#4 s = (.busError, s) := by
  simp [hostWrite, blockAddr, h]

end HostAccess

theorem busRead_eq_none_iff {a : Word} {s : State} : busRead a s = none ↔ Unmapped s.cfg a.toNat := by
  rw [← regionOf_eq_none_iff, ← Option.isNone_iff_eq_none, busRead_isNone, Option.isNone_iff_eq_none]

theorem busWrite_eq_none_iff {a v : Word} {s : State} :
    busWrite a v s = none ↔ Unmapped s.cfg a.toNat ∨ (0x6000000 ≤ a.toNat ∧ a.toNat < 0x7000000) := by
  rw [← regionOf_eq_none_iff, ← Option.isNone_iff_eq_none, busWrite_isNone]
  cases hr : regionOf s.cfg a with
  | none => simp
  | some r => simp [← writable_of_regionOf hr]

/-- Settles O25: the byte enables first, then the address, by what the map makes of it. -/
theorem busErrors : Obligations.BusErrors := by
  intro s addr v enables _
  by_cases hnarrow : enables = 15#4
  case neg =>
    exact ⟨fun _ => hostRead_of_narrow hnarrow, fun _ => hostWrite_of_narrow hnarrow,
      fun hgood => absurd (.inr (.inl hnarrow)) hgood, fun hgood => absurd (.inr (.inl hnarrow)) hgood⟩
  subst hnarrow
  have hbad {A B : Prop} : A ∨ (15#4 ≠ 15#4) ∨ B ↔ A ∨ B := by simp
  simp only [hbad]
  refine ⟨fun h => hostRead_of_none (busRead_eq_none_iff.mpr h), fun h => hostWrite_of_none (busWrite_eq_none_iff.mpr h),
    fun hgood => ?_, fun hgood hcode => ?_⟩
  · obtain ⟨⟨u, t⟩, h⟩ := Option.ne_none_iff_exists'.mp (mt busRead_eq_none_iff.mp hgood)
    exact ⟨u, t, hostRead_of_some h⟩
  · obtain ⟨t, h⟩ := Option.ne_none_iff_exists'.mp (mt (busWrite_eq_none_iff (v := v)).mp (not_or.mpr ⟨hgood, hcode⟩))
    exact ⟨t, hostWrite_of_some h⟩

/-- Settles O26: all that a read can change is the draw of a free value. -/
theorem readsHaveNoSideEffect : Obligations.ReadsHaveNoSideEffect := by
  intro s t a v h
  unfold busRead at h
  split at h
  · cases h
  next r _ =>
    have hdraw := draw_state (sample s r).known (sample s r).mask s
    rwa [Option.some.inj h] at hdraw

/-! ### A command in flight keeps its operands (R68, R76) -/

/-- A bus write to a busy block leaves what the command reads, or resets the block. -/
theorem busWrite_busy_operands {a v : Word} {s t : State} (h : busWrite a v s = some t) (hb : s.status.busy = true) :
    s.SameOperands t ∨ t = s.hardReset := by
  rcases busWrite_eq_some h with ⟨-, rfl⟩ | ⟨r, -, hr, rfl⟩
  · exact .inl ⟨rfl, rfl, rfl, rfl, rfl, rfl, rfl, rfl⟩
  · rcases writableWhileBusy_iff.mp (hr hb) with rfl | rfl
    · simp only [writeRegion, writeCsr, writeCtrl]
      split
      · exact .inr rfl
      · exact .inl ⟨rfl, rfl, rfl, rfl, rfl, rfl, rfl, rfl⟩
    · exact .inl ⟨rfl, rfl, rfl, rfl, rfl, rfl, rfl, rfl⟩

theorem HostMove.operands_of_busy {s t : State} (h : HostMove s t) (hb : s.status.busy = true) :
    s.SameOperands t ∨ t = { s.hardReset with env := t.env } := by
  cases h with
  | none _ => exact .inl ⟨rfl, rfl, rfl, rfl, rfl, rfl, rfl, rfl⟩
  | @write _ _ t before _ hw =>
    rcases busWrite_busy_operands hw hb with hsame | rfl
    · exact .inl hsame
    · exact .inr rfl
  | reset _ => exact .inr rfl

/-- Settles O13: the host's turn is at most one access or a reset, and a busy block drops all but the writes of `CTRL` and
`STATUS`. -/
theorem hostTurnWhileBusyKeepsOperands : Obligations.HostTurnWhileBusyKeepsOperands := fun s hbusy =>
  (hostStep_move s).operands_of_busy hbusy

/-! ### The windows of an idle block (R63 to R67) -/

theorem sampleEntry_of_get? {m : Store Word} {i : Nat} {v : Word} (h : m.get? i = some v) : sampleEntry m i = .exact v := by
  simp [sampleEntry, h]

theorem busWrite_of_idle {s : State} {a : Word} {r : Region} (v : Word) (hr : regionOf s.cfg a = some r)
    (hw : r.writable = true) (hidle : s.status.busy = false) : busWrite a v s = some (writeRegion r v s) :=
  busWrite_of_region v hr hw fun hb => absurd hb (by simp [hidle])

theorem Store.get?_set_same {α : Type} (m : Store α) (i : Nat) (a : α) : (m.set i a).get? i = some a := by
  rw [Store.get?_set, if_pos rfl]

theorem Store.get?_set_other {α : Type} (m : Store α) {i j : Nat} (a : α) (h : j ≠ i) : (m.set i a).get? j = m.get? j := by
  rw [Store.get?_set, if_neg h]

/-- Settles O27: a write to an idle block's entry is `Store.set`, whose reads `Store.get?_set` gives. -/
theorem symWindow : Obligations.SymWindow := by
  intro s b i hlegal hidle hi
  have hr := regionOf_sym hlegal b hi
  refine ⟨fun v hv => busRead_of_exact hr ?_, fun v => ⟨_, busWrite_of_idle v hr rfl hidle, rfl, ?_⟩⟩
  · simp [sample, hidle, sampleEntry_of_get? hv]
  · rw [writeRegion_sym_mem]
    refine ⟨?_, fun j hj => ?_, fun c hcb => sym_setSym_other _ _ _ _ hcb, setSym_bits .., setSym_bytes .., setSym_tserTag ..,
      setSym_tserSym ..⟩
    · rw [sym_setSym_same, Store.get?_set_same]
    · rw [sym_setSym_same, Store.get?_set_other _ _ hj]

/-- Settles O30: the two words of an entry are entries of two stores. -/
theorem tserWindow : Obligations.TserWindow := by
  intro s i hlegal hidle hi
  have htag := regionOf_tserTag hlegal hi
  have hsym := regionOf_tserSym hlegal hi
  refine ⟨fun v hv => busRead_of_exact htag ?_, fun v hv => busRead_of_exact hsym ?_,
    fun v => ⟨_, busWrite_of_idle v htag rfl hidle, rfl, Store.get?_set_same _ _ _, fun j hj => Store.get?_set_other _ _ hj⟩,
    fun v => ⟨_, busWrite_of_idle v hsym rfl hidle, rfl, Store.get?_set_same _ _ _, fun j hj => Store.get?_set_other _ _ hj⟩⟩
  · simp [sample, hidle, sampleEntry_of_get? hv]
  · simp [sample, hidle, sampleEntry_of_get? hv]

/-! ### Words and their bits and lanes -/

theorem bitsOfWord_getElem? {v : Word} {k : Nat} (hk : k < 32) : (bitsOfWord v)[k]? = some (v.getLsbD (31 - k)) := by
  rw [bitsOfWord, bitsOfNat_getElem? hk]
  rfl

/-- A bit string of at most a word is right-aligned in the word it makes (R64, R65). -/
theorem wordOfBits_getLsbD {bs : BitString} (h : bs.length ≤ 32) (k : Nat) :
    (wordOfBits bs).getLsbD k = if k < bs.length then bs.getD (bs.length - 1 - k) false else false := by
  rw [wordOfBits, BitVec.getLsbD_ofNat, natOfBits_testBit]
  split
  next hk => simp [show k < 32 by omega]
  · simp

theorem wordOfBits_bitsOfWord (v : Word) : wordOfBits (bitsOfWord v) = v := by
  ext k hk
  rw [← BitVec.getLsbD_eq_getElem, wordOfBits_getLsbD (by simp), bitsOfWord_length, if_pos hk, List.getD,
    bitsOfWord_getElem? (by omega), show 31 - (32 - 1 - k) = k by omega, BitVec.getLsbD_eq_getElem hk]
  rfl

theorem wordOfLanes_laneOfWord (v : Word) :
    wordOfLanes (laneOfWord v 0) (laneOfWord v 1) (laneOfWord v 2) (laneOfWord v 3) = v := by
  ext k hk
  simp only [wordOfLanes, laneOfWord]
  grind

/-- BITS-window word w, all of its bits written (R65). -/
theorem sampleBits_of_get? {m : Store Bool} {w : Nat} {v : Word}
    (h : ∀ k, k < 32 → m.get? (32 * w + k) = some (v.getLsbD (31 - k))) : sampleBits m w = .exact v := by
  have hentries : (List.range 32).map (fun k => m.get? (32 * w + k)) = (bitsOfWord v).map some := by
    apply List.ext_getElem?
    intro k
    by_cases hk : k < 32
    · rw [List.getElem?_map, List.getElem?_map, List.getElem?_range hk, bitsOfWord_getElem? hk]
      exact congrArg some (h k hk)
    · rw [List.getElem?_eq_none (by simpa using hk), List.getElem?_eq_none (by simpa using hk)]
  have hmask : wordOfBits (((bitsOfWord v).map some).map Option.isNone) = 0#32 := by
    rw [List.map_map, show Option.isNone ∘ some = fun _ : Bool => false from rfl, List.map_const', bitsOfWord_length]
    rfl
  have hknown : (((bitsOfWord v).map some).map fun e => e.getD false) = bitsOfWord v := by simp [Function.comp_def]
  simp only [sampleBits, hentries, hmask, hknown, wordOfBits_bitsOfWord]
  rfl

/-- A write to a BITS-window word, the bits stored told by what they read. -/
theorem busWrite_bits {s : State} {a : Word} {w : Nat} (v : Word) (hr : regionOf s.cfg a = some (.bits w))
    (hidle : s.status.busy = false) :
    ∃ stored, busWrite a v s = some { s with mem := { s.mem with bits := stored } } ∧
      ∀ j, stored.get? j = if 32 * w ≤ j ∧ j < 32 * w + 32 then (bitsOfWord v)[j - 32 * w]? else s.mem.bits.get? j :=
  ⟨_, busWrite_of_idle v hr rfl hidle, fun j => by rw [Store.get?_setMany, bitsOfWord_length]⟩

/-- Settles O28: a word's bits are stored as `bitsOfWord` lists them, and a word read back is made of the same list. -/
theorem bitsWindow : Obligations.BitsWindow := by
  intro s w v hlegal hidle hw
  have hr := regionOf_bits hlegal hw
  obtain ⟨stored, hwrite, hget⟩ := busWrite_bits v hr hidle
  refine ⟨fun h => busRead_of_exact hr ?_, _, hwrite, rfl, fun k hk => ?_, fun j hj => ?_⟩
  · simp [sample, hidle, sampleBits_of_get? h]
  · rw [hget, if_pos (by omega), Nat.add_sub_cancel_left, bitsOfWord_getElem? hk]
  · rw [hget, if_neg (by omega)]

theorem lanesOfWord_length (c : Config) (w : Nat) (v : Word) : (lanesOfWord c w v).length = min (c.maxBytes - 4 * w) 4 := by
  simp [lanesOfWord]

theorem lanesOfWord_getElem? {c : Config} {w j : Nat} (v : Word) (hj : j < 4) (hcap : 4 * w + j < c.maxBytes) :
    (lanesOfWord c w v)[j]? = some (laneOfWord v j) := by
  rw [lanesOfWord, List.getElem?_take_of_lt (by omega)]
  simp [hj]

/-- BYTES-window word w, all of its lanes within the capacity written and those beyond it 0 (R66). -/
theorem sampleBytes_of_lanes {c : Config} {m : Store Byte} {w : Nat} {v : Word}
    (h : ∀ j, j < 4 → if 4 * w + j < c.maxBytes then m.get? (4 * w + j) = some (laneOfWord v j) else laneOfWord v j = 0#8) :
    sampleBytes c m w = .exact v := by
  have hlane (j : Nat) (hj : j < 4) : sampleLane c m (4 * w + j) = (laneOfWord v j, 0#8) := by
    have hj := h j hj
    unfold sampleLane
    split
    next hbeyond => rw [if_neg (by omega)] at hj; rw [hj]; rfl
    next hwithin => rw [if_pos (by omega)] at hj; rw [hj]; rfl
  simp only [sampleBytes, hlane 0 (by decide), hlane 1 (by decide), hlane 2 (by decide), hlane 3 (by decide),
    wordOfLanes_laneOfWord]
  rfl

/-- Settles O29: a word's lanes are stored as far as the capacity goes, and those beyond it read 0. -/
theorem bytesWindow : Obligations.BytesWindow := by
  intro s w v hlegal hidle hw
  have hr := regionOf_bytes hlegal hw
  refine ⟨fun h => busRead_of_exact hr ?_, _, busWrite_of_idle v hr rfl hidle, rfl, fun j hj hcap => ?_, fun j hj => ?_⟩
  · simp [sample, hidle, sampleBytes_of_lanes h]
  · rw [writeRegion_bytes_mem, Store.get?_setMany, lanesOfWord_length, if_pos (by omega), Nat.add_sub_cancel_left,
      lanesOfWord_getElem? v hj hcap]
    rfl
  · rw [writeRegion_bytes_mem, Store.get?_setMany, lanesOfWord_length, if_neg (by omega)]

/-! ### The CODE window (R64) -/

theorem sampleCode_of_entry {table : CodeTable} {i : Nat} {e : CodeEntry} (h : table[i]? = some e) (field : Nat) :
    sampleCode (some table) i field = .exact (codeField e field) := by
  simp [sampleCode, h]

theorem sampleCode_of_none {code : Option CodeTable} {i field : Nat} (h : ∀ table, code = some table → table.length ≤ i)
    (hfield : field < 3) : sampleCode code i field = .unspecified := by
  have hnone : code.bind (fun table => table[i]?) = none := by
    cases code with
    | none => rfl
    | some table => exact List.getElem?_eq_none (h table rfl)
  simp only [sampleCode, hnone, hfield, if_true]

theorem sampleCode_fourth (code : Option CodeTable) (i : Nat) : sampleCode code i 3 = .exact 0#32 := by
  unfold sampleCode
  split <;> rfl

/-- Settles O31 from what `sampleCode` finds with an entry, without one, and in the fourth word. -/
theorem codeWindow : Obligations.CodeWindow := by
  intro s i hlegal hidle hi
  have hr {field : Nat} (hfield : field < 4) := regionOf_code hlegal hi hfield
  have hsample (field : Nat) : sample s (.code i field) = sampleCode s.code i field := by simp [sample, hidle]
  refine ⟨fun table e htable he hlen => ?_, ?_, fun hnone field hfield => ?_, fun field v hfield => ?_⟩
  · have hread {field : Nat} (hfield : field < 4) :
        busRead (BitVec.ofNat 32 (0x6000000 + 16 * i + 4 * field)) s = some (codeField e field, s) :=
      busRead_of_exact (hr hfield) (by rw [hsample, htable, sampleCode_of_entry he])
    exact ⟨hread (by decide), ⟨_, hread (by decide), toNat_ofNat_le hlen (by decide)⟩, _, hread (by decide),
      wordOfBits_getLsbD hlen⟩
  · exact busRead_of_exact (hr (by decide)) (by rw [hsample, sampleCode_fourth])
  · exact busRead_of_unspecified (hr (by omega)) (by rw [hsample, sampleCode_of_none hnone hfield])
  · simp [busWrite, hr hfield, Region.writable]

/-! ### The host's operations (R72, R88, R89) -/

theorem hostStep_of_pending {s : State} {op : HostOp} {rest : List HostOp} (h : s.env.pending = op :: rest) :
    hostStep s = performHostOp op { s with env := { s.env with pending := rest } } := by
  simp only [hostStep, h]

/-- `STATUS` is open to the host's reads, busy or idle (R26). -/
theorem hostRead_status (s : State) : hostRead (statusAddr s.cfg) 15#4 s = (.data s.statusWord, s) := by
  refine hostRead_of_some ?_
  rw [statusAddr, platformAddr, BitVec.add_comm, BitVec.add_sub_cancel]
  exact busRead_csr (r := .status) fun _ => rfl

theorem showsDone_status (s : State) : showsDone (.data s.statusWord) = s.status.done := by
  rw [showsDone, statusWord_getLsbD]
  rfl

theorem showsErr_status (s : State) (err : BitVec 4) : showsErr err (.data s.statusWord) = (s.status.err.toBits == err) := by
  rw [showsErr, statusWord_err]

theorem loadFrom_eq (c : Config) (b : SymBuf) (i : Nat) (vs : List Symbol) :
    loadFrom c b i vs = (vs.zipIdx i).map fun p => .wr (symAddr c b p.2) p.1 := by
  induction vs generalizing i with
  | nil => rfl
  | cons v rest ih => rw [loadFrom, ih, List.zipIdx_cons, List.map_cons]

theorem symAddr_eq (c : Config) (b : SymBuf) (i : Nat) :
    symAddr c b i = c.platformBase + BitVec.ofNat 32 (0x1000000 * (if b = .sym0 then 1 else 2) + 4 * i) := by
  cases b <;> rfl

theorem load_eq (c : Config) (b : SymBuf) (vs : List Symbol) :
    load c b vs =
      (vs.zipIdx.map fun p => .wr (c.platformBase + BitVec.ofNat 32 (0x1000000 * (if b = .sym0 then 1 else 2) + 4 * p.2)) p.1) ++
        [.wr (c.platformBase + (if b = .sym0 then 0x010#32 else 0x014#32)) (BitVec.ofNat 32 vs.length)] := by
  simp only [load, loadFrom_eq, symAddr_eq]
  cases b <;> rfl

theorem performHostOp_wait (s : State) :
    performHostOp .wait s =
      { s with env := { s.env with
        responses := .data s.statusWord :: s.env.responses
        pending := (if s.status.done then .wr (s.cfg.platformBase + 0x008#32) 2#32 else .wait) :: s.env.pending } } := by
  simp only [performHostOp, hostRead_status, waitTurn, showsDone_status]
  cases s.status.done <;> rfl

theorem performHostOp_waitErr (s : State) (err : BitVec 4) :
    performHostOp (.waitErr err) s =
      if s.status.done = true ∧ s.status.err.toBits ≠ err then
        { s with env := { s.env with responses := .data s.statusWord :: s.env.responses, failed := true, pending := [] } }
      else
        { s with env := { s.env with
          responses := .data s.statusWord :: s.env.responses
          pending := (if s.status.done then .wr (s.cfg.platformBase + 0x008#32) 2#32 else .waitErr err) :: s.env.pending } } := by
  have hclear : statusAddr s.cfg = s.cfg.platformBase + 0x008#32 := rfl
  simp only [performHostOp, hostRead_status, waitTurn, showsDone_status, showsErr_status]
  cases s.status.done with
  | false => simp [State.push, note]
  | true => by_cases h : s.status.err.toBits = err <;> simp [h, State.push, State.failProgram, note, hclear]

/-- Settles O60: an operation is the access it names, the read of `STATUS` being one that every block answers. -/
theorem hostTurnPerformsTheAccess : Obligations.HostTurnPerformsTheAccess := by
  refine ⟨fun s op rest hm hop => ?_, fun s addr v => ⟨fun t h => ?_, fun h => ?_, fun u t h => ⟨?_, ?_⟩, fun h => ⟨?_, ?_⟩,
    fun enables => ⟨?_, ?_⟩⟩, fun s => ⟨performHostOp_wait s, performHostOp_waitErr s⟩,
    fun c w err b vs => ⟨rfl, rfl, load_eq c b vs⟩⟩
  · rw [step_of_host hm, hostStep_of_pending (s := s.tail) hop]
    rfl
  · simp only [performHostOp, hostWrite_of_some h, note]
  · simp only [performHostOp, hostWrite_of_none h, note]
  · simp only [performHostOp, hostRead_of_some h, note]
  · simp only [performHostOp, hostRead_of_some h, BusResponse.data.injEq, note, State.failProgram]
  · simp only [performHostOp, hostRead_of_none h, note]
  · simp only [performHostOp, hostRead_of_none h, reduceCtorEq, if_false, note, State.failProgram]
  · split
    next hall => rw [hall]; rfl
    next hnarrow => simp only [performHostOp, hostWrite_of_narrow hnarrow, note]
  · split
    next hall => rw [hall]; rfl
    next hnarrow => simp only [performHostOp, hostRead_of_narrow hnarrow, note]

end Sys2Proof.Machine

/-! ## The command word

The decoder and the encoder of 30_encoding.md, field by field: a word with RSV = 0 is its other three fields put together again, so
decoding it is a question about those fields alone. The frame of the commands that the words spell stands at the end. -/

namespace Sys2Proof

/-! ### The fields of a word -/

@[simp] theorem ofBit_toBit (b : SymBuf) : SymBuf.ofBit b.toBit = b := by cases b <;> rfl

/-- A word from its fields, bit by bit (R80). -/
theorem getLsbD_assembleFields (op : BitVec 8) (s d : Bool) (k : Nat) :
    (assembleFields op s d).getLsbD k =
      if k < 8 then op.getLsbD k else if k = 8 then s else if k = 9 then d else false := by
  simp only [assembleFields, BitVec.getLsbD_append, BitVec.getLsbD_ofBool, BitVec.getLsbD_zero]
  grind

@[simp] theorem fieldOp_assembleFields (op : BitVec 8) (s d : Bool) : fieldOp (assembleFields op s d) = op :=
  BitVec.extractLsb'_append_eq_right

@[simp] theorem fieldS_assembleFields (op : BitVec 8) (s d : Bool) : fieldS (assembleFields op s d) = s :=
  getLsbD_assembleFields op s d 8

@[simp] theorem fieldD_assembleFields (op : BitVec 8) (s d : Bool) : fieldD (assembleFields op s d) = d :=
  getLsbD_assembleFields op s d 9

@[simp] theorem fieldRsv_assembleFields (op : BitVec 8) (s d : Bool) : fieldRsv (assembleFields op s d) = 0 := by
  refine BitVec.eq_of_getLsbD_eq fun k hk => ?_
  rw [fieldRsv, BitVec.getLsbD_extractLsb', getLsbD_assembleFields, if_neg (by omega), if_neg (by omega), if_neg (by omega)]
  simp

/-- A word without reserved bits is made of its other fields (R80). -/
theorem assembleFields_fields {w : Word} (h : fieldRsv w = 0) : assembleFields (fieldOp w) (fieldS w) (fieldD w) = w := by
  have hrsv (k : Nat) (hk : 10 ≤ k ∧ k < 32) : w.getLsbD k = false := by
    have hbit : (fieldRsv w).getLsbD (k - 10) = false := by simp [h]
    simpa [fieldRsv, Nat.add_sub_cancel' hk.1, show k - 10 < 22 by omega] using hbit
  refine BitVec.eq_of_getLsbD_eq fun k hk => ?_
  rw [getLsbD_assembleFields]
  split
  next hlt => simp [fieldOp, hlt]
  next =>
    split
    next h8 => rw [h8, fieldS]
    next =>
      split
      next h9 => rw [h9, fieldD]
      next => exact (hrsv k (by omega)).symm

/-! ### The decoder by fields -/

/-- Do the field bits fit the command: none set that it does not use, and no RLE command with S = D (R85 (d), (e))? -/
def Instr.fieldsFit (i : Instr) (s d : Bool) : Bool := !(s && !i.usesS || d && !i.usesD) && i.wellFormed

theorem decode_of_rsv_ne {w : Word} (h : fieldRsv w ≠ 0) : decode w = none := by
  rw [decode, decodeWord, if_pos h, Except.toOption]

/-- The decoder reads the command of the opcode and its field bits, if the bits fit it (R83, R85). -/
theorem decode_of_rsv_zero {w : Word} (h : fieldRsv w = 0) :
    decode w = (commandOf (fieldOp w).toNat (fieldS w) (fieldD w)).filter (·.fieldsFit (fieldS w) (fieldD w)) := by
  rw [decode, decodeWord, if_neg (not_not_intro h)]
  split
  next hop => rw [hop]; rfl
  next =>
    cases commandOf (fieldOp w).toNat (fieldS w) (fieldD w) with
    | none => rfl
    | some i =>
      simp only [Option.filter_some, Instr.fieldsFit]
      cases fieldS w && !i.usesS || fieldD w && !i.usesD <;> cases i.wellFormed <;> rfl

/-- `legal` is the same question (R83). -/
theorem legal_of_rsv_zero {w : Word} (h : fieldRsv w = 0) :
    legal w = (commandOf (fieldOp w).toNat (fieldS w) (fieldD w)).any (·.fieldsFit (fieldS w) (fieldD w)) := by
  simp only [legal, h, beq_self_eq_true, Bool.true_and]
  generalize fieldS w = s, fieldD w = d, (fieldOp w).toNat = op
  split
  case h_11 => simp [commandOf, *]
  all_goals cases s <;> cases d <;> rfl

theorem legal_of_rsv_ne {w : Word} (h : fieldRsv w ≠ 0) : legal w = false := by
  rw [legal, beq_eq_false_iff_ne.mpr h, Bool.false_and]

/-- The decoder reads exactly the legal words (R83). -/
theorem isSome_decode (w : Word) : (decode w).isSome = legal w := by
  by_cases h : fieldRsv w = 0
  · rw [decode_of_rsv_zero h, legal_of_rsv_zero h, Option.isSome_filter]
  · rw [decode_of_rsv_ne h, legal_of_rsv_ne h, Option.isSome_none]

/-! ### The encoder by fields -/

theorem fieldRsv_encode (i : Instr) : fieldRsv (encode i) = 0 := by
  cases i <;> exact fieldRsv_assembleFields _ _ _

/-- The opcode and the field bits of a command's word name the command (R82). -/
theorem commandOf_encode (i : Instr) :
    commandOf (fieldOp (encode i)).toNat (fieldS (encode i)) (fieldD (encode i)) = some i := by
  cases i <;> simp [encode, commandOf]

/-- The encoder sets no field bit that the command does not use (R84). -/
theorem fieldsFit_encode (i : Instr) : i.fieldsFit (fieldS (encode i)) (fieldD (encode i)) = i.wellFormed := by
  cases i <;> simp [encode, Instr.fieldsFit, Instr.usesS, Instr.usesD]

/-- Decoding the word of a well-formed command gives it back. -/
theorem decode_encode {i : Instr} (hi : i.wellFormed = true) : decode (encode i) = some i := by
  rw [decode_of_rsv_zero (fieldRsv_encode i), commandOf_encode, Option.filter_some, fieldsFit_encode, if_pos hi]

/-- A command whose field bits fit it has the word made of its opcode and those bits. -/
theorem encode_of_commandOf {op : Nat} {s d : Bool} {i : Instr} (h : commandOf op s d = some i)
    (hfit : i.fieldsFit s d = true) : encode i = assembleFields (BitVec.ofNat 8 op) s d := by
  unfold commandOf at h
  split at h <;> cases h
  all_goals
    revert hfit
    cases s <;> cases d <;> decide

/-- A word spells a command exactly when the command is well formed and the word is its own (R82 to R84). -/
theorem decode_eq_some {w : Word} {i : Instr} : decode w = some i ↔ i.wellFormed = true ∧ encode i = w := by
  constructor
  · intro h
    by_cases hrsv : fieldRsv w = 0
    · rw [decode_of_rsv_zero hrsv, Option.filter_eq_some_iff] at h
      obtain ⟨hcommand, hfit⟩ := h
      refine ⟨(Bool.and_eq_true_iff.mp hfit).2, ?_⟩
      rw [encode_of_commandOf hcommand hfit, BitVec.ofNat_toNat, BitVec.setWidth_eq, assembleFields_fields hrsv]
    · simp [decode_of_rsv_ne hrsv] at h
  · rintro ⟨hi, rfl⟩
    exact decode_encode hi

/-! ### The statements of 30_encoding.md -/

/-- Settles O3: of the three clauses the last two are the two directions of `decode_eq_some`. -/
theorem decodeEncodeAgree : Obligations.DecodeEncodeAgree :=
  ⟨isSome_decode, fun _ => decode_encode, fun _ _ => decode_eq_some.mp⟩

/-- The commands with a written form are the well-formed ones. -/
theorem mem_writableCommands {i : Instr} : i ∈ Machine.writableCommands ↔ i.wellFormed = true := by
  cases i with
  | buildTree b | hufEnc b | hufDec b => cases b <;> decide
  | rleEnc s d | rleDec s d => cases s <;> cases d <;> decide
  | treeStore | treeLoad | deriveCodes | pack | unpack => decide

theorem decode_eq_some_iff_mem (w : Word) (i : Instr) :
    decode w = some i ↔ (w, i) ∈ Machine.writableCommands.map fun c => (encode c, c) := by
  simp only [decode_eq_some, List.mem_map, Prod.mk.injEq, mem_writableCommands]
  constructor
  · exact fun ⟨hi, hw⟩ => ⟨i, hi, hw, rfl⟩
  · rintro ⟨_, hi, hw, rfl⟩
    exact ⟨hi, hw⟩

theorem legal_iff_mem (w : Word) : legal w = true ↔ w ∈ Machine.writableCommands.map encode := by
  simp only [← isSome_decode, Option.isSome_iff_exists, decode_eq_some, List.mem_map, mem_writableCommands]

/-- Settles O2: the fifteen words are those of the fifteen well-formed commands, and the pairs each command with its word. -/
theorem legalWordsAreFifteen : Obligations.LegalWordsAreFifteen :=
  fun w => ⟨legal_iff_mem w, decode_eq_some_iff_mem w⟩

/-- Settles O1: each word is that of the well-formed command beside it. -/
theorem specWordsDecode : Obligations.SpecWordsDecode := by
  unfold Obligations.SpecWordsDecode
  and_intros <;> exact decode_eq_some.mpr ⟨rfl, rfl⟩

end Sys2Proof

namespace Sys2Proof.Machine

/-! ### The frame of a command -/

/-- A term that spells no command completes with `IllegalCommand` and does nothing else (R102; log entry 13). -/
theorem exec_of_not_wellFormed {i : Instr} (hi : i.wellFormed = false) (s : State) : exec i s = .next s.completeIllegal := by
  rw [exec_eq, hi, if_neg Bool.false_ne_true]

/-- Settles O45: `exec_completes` for control, `exec_sameExcept` for the data; an ill-formed term completes as an illegal word does. -/
theorem commandsChangeOnlyTheirDestination : Obligations.CommandsChangeOnlyTheirDestination := by
  intro i s t h
  obtain ⟨hcontrol, hinflight, hbusy, hdone⟩ := exec_completes h
  refine ⟨hcontrol, hinflight, hbusy, hdone, fun hi => exec_sameExcept hi h, fun hi => ?_⟩
  rw [exec_of_not_wellFormed hi] at h
  cases h
  exact ⟨⟨rfl, rfl, rfl, rfl, rfl⟩, rfl⟩

end Sys2Proof.Machine

namespace Sys2Proof.Machine

/-! ## Errors: a failing command and an illegal word -/

/-- Settles O46: the frame is that of every completed command, and an error has voided the destination. -/
theorem errorEffects : Obligations.ErrorEffects := fun _ _ _ hi h herr =>
  have ⟨hcontrol, _⟩ := exec_completes h
  ⟨hcontrol, exec_sameExcept hi h, voided_of_exec_error hi h herr⟩

/-- A word that is not legal decodes to no command (R83, R85). -/
theorem decode_of_illegal {w : Word} (h : legal w = false) : decode w = none := by
  rwa [← isSome_decode, Option.isSome_eq_false_iff, Option.isNone_iff_eq_none] at h

/-- The engine's turn on a word that decodes to no command (R102). -/
theorem engineStep_of_decode_none {s : State} {w : Word} (hw : s.inflight = some w) (hnone : decode w = none) :
    engineStep s = .next s.completeIllegal := by
  simp only [engineStep, hw, hnone]

/-- Settles O5: the engine finds no command in the word, so the step is `completeIllegal` after the turn is taken. -/
theorem illegalWordHasNoOtherEffect : Obligations.IllegalWordHasNoOtherEffect := by
  intro s w hlegal hmover hinflight
  have hstep : step s = .next s.tail.completeIllegal := by
    rw [step_of_engine hmover, engineStep_of_decode_none (s := s.tail) hinflight (decode_of_illegal hlegal)]
  exact ⟨_, hstep, ⟨rfl, rfl, rfl⟩, ⟨rfl, rfl, rfl, rfl, rfl⟩, rfl, rfl, rfl⟩

end Sys2Proof.Machine

namespace Sys2Proof.Machine

/-! ## PACK and UNPACK (41_bitpack.md) -/

/-! ### Writing a result with its window-word fill (R112) -/

theorem Store.get?_overwrite_padded {α : Type} (m : Store α) (out : List α) (n : Nat) (a : α) (i : Nat) :
    (m.overwrite (out ++ List.replicate n a)).get? i =
      if i < out.length then out[i]? else if i < out.length + n then some a else m.get? i := by
  rw [Store.get?_overwrite, List.length_append, List.length_replicate]
  by_cases hout : i < out.length
  · rw [if_pos hout, if_pos (by omega), List.getElem?_append_left hout]
  · rw [if_neg hout, List.getElem?_append_right (by omega), List.getElem?_replicate]
    split
    next hpad => rw [if_pos (by omega)]
    next => rfl

theorem storeBits_get? (out : BitString) (s : State) (i : Nat) :
    (s.storeBits out).mem.bits.get? i =
      if i < out.length then out[i]?
      else if i < 32 * ((out.length + 31) / 32) then some false else s.mem.bits.get? i := by
  have hend : out.length + (32 * ceilDiv out.length 32 - out.length) = 32 * ((out.length + 31) / 32) := by
    simp only [ceilDiv]; omega
  rw [storeBits_mem, fillBits, Store.get?_overwrite_padded, hend]

theorem storeBytes_get? (out : List Byte) (s : State) (i : Nat) :
    (s.storeBytes out).mem.bytes.get? i =
      if i < out.length then out[i]?
      else if i < 4 * ((out.length + 3) / 4) ∧ i < s.cfg.maxBytes then some 0#8 else s.mem.bytes.get? i := by
  rw [storeBytes_mem, fillBytes, Store.get?_overwrite_padded]
  refine ite_congr rfl (fun _ => rfl) fun hout => ite_congr ?_ (fun _ => rfl) fun _ => rfl
  simp only [ceilDiv, eq_iff_iff]
  omega

theorem storeBits_holds {out : BitString} (h : out.length < 2 ^ 32) (s : State) : (s.storeBits out).HoldsBits out :=
  ⟨toNat_ofNat_le (Nat.le_refl _) h, fun i hi => by rw [storeBits_get?, if_pos hi]⟩

theorem storeBytes_holds {out : List Byte} (h : out.length < 2 ^ 32) (s : State) : (s.storeBytes out).HoldsBytes out :=
  ⟨toNat_ofNat_le (Nat.le_refl _) h, fun i hi => by rw [storeBytes_get?, if_pos hi]⟩

/-! ### The packed buffer (R120) -/

/-- A bit string spells the sum of its bits, each shifted to its place. -/
theorem natOfBits_eq_sum (bs : BitString) :
    natOfBits bs = ∑ k ∈ Finset.range bs.length, (bs.getD k false).toNat <<< (bs.length - 1 - k) := by
  induction bs using List.reverseRecOn with
  | nil => rfl
  | append_singleton bs b ih =>
    have hterm : ∀ k ∈ Finset.range bs.length,
        ((bs ++ [b]).getD k false).toNat <<< (bs.length + 1 - 1 - k) =
          2 * (bs.getD k false).toNat <<< (bs.length - 1 - k) := by
      intro k hk
      have hk := Finset.mem_range.mp hk
      rw [List.getD_append _ _ _ _ hk, show bs.length + 1 - 1 - k = bs.length - 1 - k + 1 by omega, Nat.shiftLeft_succ]
    rw [natOfBits_append, ih, List.length_append, List.length_singleton, Finset.sum_range_succ, Finset.sum_congr rfl hterm,
      Finset.mul_sum]
    simp

/-- The eight bits of data byte j: those from 8j on of the string, extended by zeros to whole bytes. -/
def dataChunk (b : BitString) (j : Nat) : BitString :=
  ((b ++ List.replicate (paddingOf b.length) false).drop (8 * j)).take 8

theorem packed_getElem?_data {b : BitString} {j : Nat} (hj : j < ceilDiv b.length 8) :
    (packed b)[1 + j]? = some (byteOfBits (dataChunk b j)) := by
  rw [packed, Nat.add_comm, List.getElem?_cons_succ, List.getElem?_map, List.getElem?_range hj]
  rfl

theorem dataChunk_length {b : BitString} {j : Nat} (hj : j < ceilDiv b.length 8) : (dataChunk b j).length = 8 := by
  have hspec := paddingOf_spec b.length
  simp only [dataChunk, List.length_take, List.length_drop, List.length_append, List.length_replicate]
  omega

theorem getD_append_replicate_false (b : BitString) (n k : Nat) :
    (b ++ List.replicate n false).getD k false = b.getD k false := by
  by_cases hk : k < b.length
  · exact List.getD_append _ _ _ _ hk
  · rw [List.getD_append_right _ _ _ _ (by omega), List.getD, List.getElem?_getD_replicate_default_eq,
      List.getD_eq_default _ _ (by omega)]

theorem dataChunk_getD (b : BitString) (j : Nat) {k : Nat} (hk : k < 8) :
    (dataChunk b j).getD k false = b.getD (8 * j + k) false := by
  rw [← getD_append_replicate_false b (paddingOf b.length), dataChunk, List.getD, List.getElem?_take_of_lt hk, List.getElem?_drop]
  rfl

/-- The header of a packed buffer is the padding count. -/
theorem packed_eq_cons (b : BitString) : packed b = BitVec.ofNat 8 (paddingOf b.length) :: (packed b).tail := rfl

theorem toNat_header (b : BitString) : (BitVec.ofNat 8 (paddingOf b.length)).toNat = paddingOf b.length := by
  have := paddingOf_le b.length
  rw [BitVec.toNat_ofNat]; omega

/-- With no data byte the string is empty, so the padding count is 0. -/
theorem paddingOf_of_packed_tail_nil {b : BitString} (h : (packed b).tail = []) : paddingOf b.length = 0 := by
  have hlen := packed_length b
  have hspec := paddingOf_spec b.length
  rw [packed_eq_cons, h, List.length_singleton] at hlen
  omega

/-- Settles O32: a data byte is the number its eight bits spell, which `natOfBits_eq_sum` writes as a sum. -/
theorem packedBufferFormat : Obligations.PackedBufferFormat := by
  intro b
  refine ⟨packed_length b, rfl, fun j hj => ?_⟩
  have hj : j < ceilDiv b.length 8 := hj
  rw [packed_getElem?_data hj, byteOfBits, natOfBits_eq_sum, dataChunk_length hj]
  congr 2
  exact Finset.sum_congr rfl fun k hk => by rw [dataChunk_getD b j (Finset.mem_range.mp hk)]

/-! ### PACK (R121) -/

theorem packEval_of_holds {s : State} {b : BitString} (hb : s.HoldsBits b) (hcap : b.length ≤ s.cfg.maxBits) :
    packEval s = .value (packed b) := by
  rw [packEval, checkSource_le _ (by rw [hb.1]; exact hcap), bitseq_eq_value.mpr hb, bind_value]

theorem pack_succeeds {s : State} {b : BitString} {P : State → Prop} (hb : s.HoldsBits b) (hcap : b.length ≤ s.cfg.maxBits)
    (hP : P ((s.storeBytes (packed b)).complete .ok 0)) : Succeeds .pack s P :=
  succeeds_of_ending rfl (by rw [endingOf, packEval_of_holds hb hcap]; rfl) hP

/-- A packed buffer's length fits `BYTE_LEN` on every legal build (R7). -/
theorem packed_length_lt {c : Config} (hlegal : c.Legal) {b : BitString} (hcap : b.length ≤ c.maxBits) :
    (packed b).length < 2 ^ 32 := by
  obtain ⟨-, -, -, -, hmax, -⟩ := hlegal
  rw [packed_length, ceilDiv]; omega

/-- Settles O33: reading BITS gives `packed b`, and `storeBytes_get?` says what BYTES holds after it is written. -/
theorem packRule : Obligations.PackRule := by
  refine ⟨decode_encode (i := .pack) rfl, fun s hlegal => ⟨fun hgt => ?_, fun b hb hcap => pack_succeeds hb hcap ?_⟩⟩
  · exact fails_of_ending rfl (by decide) (by rw [endingOf, packEval, checkSource_gt _ hgt]; rfl)
  · refine ⟨storeBytes_holds (packed_length_lt hlegal hcap) s, fun i hge hlt hlane => ?_, fun i hge => ?_⟩
    · rw [complete_mem, storeBytes_get?, if_neg (by omega), if_pos ⟨hlt, hlane⟩]
    · rw [complete_mem, storeBytes_get?, if_neg (by omega), if_neg (by omega)]

/-! ### The bits of the data bytes (R122) -/

theorem unpackBits_length (padding : Nat) (data : List Byte) : (unpackBits padding data).length = 8 * data.length - padding := by
  simp only [unpackBits, List.length_take, flatMap_bitsOfByte_length]; omega

theorem unpackBits_getElem? {padding : Nat} {data : List Byte} {i : Nat} (hi : i < 8 * data.length - padding) :
    (unpackBits padding data)[i]? = some ((data.getD (i / 8) 0#8).getLsbD (7 - i % 8)) := by
  rw [unpackBits, flatMap_bitsOfByte_length, List.getElem?_take_of_lt hi, flatMap_bitsOfByte_getElem? (by omega)]

/-- Two sequences of data bytes whose bits before the padding agree unpack alike (R124). -/
theorem unpackBits_congr {padding : Nat} {data data' : List Byte} (hlen : data.length = data'.length)
    (h : ∀ i, i < 8 * data.length - padding →
      (data.getD (i / 8) 0#8).getLsbD (7 - i % 8) = (data'.getD (i / 8) 0#8).getLsbD (7 - i % 8)) :
    unpackBits padding data = unpackBits padding data' := by
  apply List.ext_getElem?
  intro i
  by_cases hi : i < 8 * data.length - padding
  · rw [unpackBits_getElem? hi, unpackBits_getElem? (by omega), h i hi]
  · rw [List.getElem?_eq_none (by rw [unpackBits_length]; omega), List.getElem?_eq_none (by rw [unpackBits_length]; omega)]

/-! ### UNPACK (R122) -/

theorem unpackEval_of_empty {s : State} (h : s.byteLen = 0) : unpackEval s = .raise .invalidFormat 0 := by
  rw [unpackEval, checkSource_le _ (by omega), if_pos h]

theorem unpackEval_of_bad_header {s : State} {h : Byte} (hpos : 0 < s.byteLen) (hcap : s.byteLen ≤ s.cfg.maxBytes)
    (hget : s.mem.bytes.get? 0 = some h) (hbad : 7 < h.toNat ∨ s.byteLen = 1 ∧ h.toNat ≠ 0) :
    unpackEval s = .raise .invalidFormat h.toNat := by
  rw [unpackEval, checkSource_le _ hcap, if_neg (by omega), readEntry_eq_value.mpr hget, bind_value]
  by_cases hbig : 7 < h.toNat
  · rw [if_pos hbig]
  · rw [if_neg hbig, if_pos (hbad.resolve_left hbig)]

theorem unpackEval_of_holds {s : State} {h : Byte} {data : List Byte} (hs : s.HoldsBytes (h :: data))
    (hcap : data.length + 1 ≤ s.cfg.maxBytes) (hheader : h.toNat ≤ 7) (hempty : data = [] → h.toNat = 0) :
    unpackEval s = .value (unpackBits h.toNat data) := by
  obtain ⟨hlen, hget⟩ := hs
  rw [List.length_cons] at hlen hget
  have hhead : readEntry .bytes s.mem.bytes 0 = .value h := readEntry_eq_value.mpr (hget 0 (by omega))
  have hdata : readFrom .bytes s.mem.bytes 1 (s.byteLen - 1) = .value data :=
    readFrom_eq_value.mpr ⟨by omega, fun k hk => by rw [hget (1 + k) (by omega), Nat.add_comm, List.getElem?_cons_succ]⟩
  have hok : ¬(s.byteLen = 1 ∧ h.toNat ≠ 0) := fun ⟨hone, hne⟩ => hne (hempty (List.length_eq_zero_iff.mp (by omega)))
  rw [unpackEval, checkSource_le _ (by omega), if_neg (by omega), hhead, bind_value, if_neg (by omega), if_neg hok, hdata,
    bind_value]

theorem unpack_fails {s : State} {e : ResultCode} {info : Nat} (he : e ≠ .ok) (h : unpackEval s = .raise e info) :
    FailsWith .unpack s e info :=
  fails_of_ending rfl he (by rw [endingOf, h]; rfl)

theorem unpack_succeeds {s : State} {b : BitString} {P : State → Prop} (h : unpackEval s = .value b)
    (hP : P ((s.storeBits b).complete .ok 0)) : Succeeds .unpack s P :=
  succeeds_of_ending rfl (by rw [endingOf, h]; rfl) hP

/-- What UNPACK gives fits `BIT_LEN` on every legal build (R7). -/
theorem unpackBits_length_lt {c : Config} (hlegal : c.Legal) {data : List Byte} (hcap : data.length + 1 ≤ c.maxBytes)
    (padding : Nat) : (unpackBits padding data).length < 2 ^ 32 := by
  obtain ⟨-, -, -, -, hmax, -⟩ := hlegal
  rw [Config.maxBytes] at hcap
  rw [unpackBits_length]; omega

/-- Settles O34: one lemma on `unpackEval` for each outcome, and `storeBits_get?` for what BITS holds after the last. -/
theorem unpackRule : Obligations.UnpackRule := by
  refine ⟨decode_encode (i := .unpack) rfl, fun s hlegal => ⟨fun hgt => ?_, fun hzero => ?_, fun h hpos hcap hget hbig => ?_,
    fun h hone hget hne => ?_, fun h data hs hcap hheader hempty => ?_⟩⟩
  · exact unpack_fails (by decide) (checkSource_gt _ hgt)
  · exact unpack_fails (by decide) (unpackEval_of_empty hzero)
  · exact unpack_fails (by decide) (unpackEval_of_bad_header hpos hcap hget (.inl hbig))
  · have hcap : s.byteLen ≤ s.cfg.maxBytes := by rw [hone, Config.maxBytes]; omega
    exact unpack_fails (by decide) (unpackEval_of_bad_header (by omega) hcap hget (.inr ⟨hone, hne⟩))
  · have hlen := unpackBits_length h.toNat data
    refine unpack_succeeds (unpackEval_of_holds hs hcap hheader hempty) ⟨?_, fun i hi => ?_, fun i hge hlt => ?_, fun i hge => ?_⟩
    · exact (storeBits_holds (unpackBits_length_lt hlegal hcap _) s).1.trans hlen
    · rw [complete_mem, storeBits_get?, hlen, if_pos hi, unpackBits_getElem? hi]
    · rw [complete_mem, storeBits_get?, hlen, if_neg (by omega), if_pos hlt]
    · rw [complete_mem, storeBits_get?, hlen, if_neg (by omega), if_neg (by omega)]

/-! ### PACK and UNPACK together (R123, R124) -/

/-- A command that succeeds answers a next state, which reports `OK`. -/
theorem Succeeds.exec_ok {i : Instr} {s : State} {P : State → Prop} (h : Succeeds i s P) :
    ∃ t, exec i s = .next t ∧ t.status.err = .ok ∧ t.cfg = s.cfg ∧ P t := by
  obtain ⟨t, hexec, ⟨hstatus, -⟩, ⟨hcfg, -⟩, -, hP⟩ := h
  exact ⟨t, hexec, by rw [hstatus], hcfg, hP⟩

/-- UNPACK of a buffer it accepts leaves the bits of the data bytes in BITS. -/
theorem unpack_holds {s : State} {h : Byte} {data : List Byte} (hlegal : s.cfg.Legal) (hs : s.HoldsBytes (h :: data))
    (hcap : data.length + 1 ≤ s.cfg.maxBytes) (hheader : h.toNat ≤ 7) (hempty : data = [] → h.toNat = 0) :
    ∃ u, exec .unpack s = .next u ∧ u.status.err = .ok ∧ u.HoldsBits (unpackBits h.toNat data) := by
  have hbits := storeBits_holds (unpackBits_length_lt hlegal hcap h.toNat) s
  obtain ⟨u, hexec, herr, -, hu⟩ := (unpack_succeeds (P := (·.HoldsBits (unpackBits h.toNat data)))
    (unpackEval_of_holds hs hcap hheader hempty) hbits).exec_ok
  exact ⟨u, hexec, herr, hu⟩

/-- UNPACK of a packed buffer gives the bit string back. -/
theorem unpack_packed {s : State} {b : BitString} (hlegal : s.cfg.Legal) (hs : s.HoldsBytes (packed b))
    (hcap : b.length ≤ s.cfg.maxBits) : ∃ u, exec .unpack s = .next u ∧ u.status.err = .ok ∧ u.HoldsBits b := by
  have ⟨_, _, hwords, _⟩ := hlegal
  have hbytes := packed_length_le hwords hcap
  have hheader := toNat_header b
  rw [packed_eq_cons] at hs hbytes
  have hunpack := unpack_holds hlegal hs hbytes (hheader.trans_le (paddingOf_le _)) fun h =>
    hheader.trans (paddingOf_of_packed_tail_nil h)
  rwa [hheader, unpackBits_packed] at hunpack

/-- Settles O49: PACK leaves the packed buffer in BYTES, and UNPACK of it, from any state with the same data, is `unpack_packed`. -/
theorem packUnpackRoundTrip : Obligations.PackUnpackRoundTrip := by
  intro s b hlegal hb hcap
  have hbytes := storeBytes_holds (packed_length_lt hlegal hcap) s
  obtain ⟨t, hexec, herr, hcfg, ht⟩ := (pack_succeeds (P := (·.HoldsBytes (packed b))) hb hcap hbytes).exec_ok
  refine ⟨t, hexec, herr, fun t' ⟨hcfg', hmem, hlens, _⟩ => ?_⟩
  have hcfg' : t'.cfg = s.cfg := hcfg'.trans hcfg
  have ht' : t'.HoldsBytes (packed b) := by
    simp only [State.HoldsBytes, State.byteLen, hmem, hlens]
    exact ht
  exact unpack_packed (hcfg' ▸ hlegal) ht' (hcfg' ▸ hcap)

/-- Settles O50: the header of a packed buffer is its padding count, and UNPACK's result is a function of the bits before the
filler (`unpackBits_congr`). -/
theorem unpackIgnoresFillerBits : Obligations.UnpackIgnoresFillerBits := by
  refine ⟨fun b => ⟨_, _, packed_eq_cons b, ?_, fun h => ?_⟩, ?_⟩
  · exact (toNat_header b).trans_le (paddingOf_le _)
  · exact (toNat_header b).trans (paddingOf_of_packed_tail_nil h)
  · intro s t h data data' hlegal hcfg hlen hs ht hcap hheader hempty hbits
    have hempty' : data' = [] → h.toNat = 0 := fun hnil => hempty (List.length_eq_zero_iff.mp (by rw [hlen, hnil]; rfl))
    obtain ⟨u, hu, huerr, hubits⟩ := unpack_holds hlegal hs hcap hheader hempty
    obtain ⟨v, hv, hverr, hvbits⟩ := unpack_holds (hcfg ▸ hlegal) ht (by rw [← hlen, hcfg]; exact hcap) hheader hempty'
    exact ⟨u, v, _, hu, hv, huerr, hverr, hubits, unpackBits_congr hlen hbits ▸ hvbits⟩

end Sys2Proof.Machine

namespace Sys2Proof.Machine

/-! ## RLE_ENC and RLE_DEC (42_rle.md) -/

/-! ### Writing a symbol buffer (R112) -/

theorem storeSyms_get? (b : SymBuf) (out : List Symbol) (s : State) (i : Nat) :
    ((s.storeSyms b out).mem.sym b).get? i = if i < out.length then out[i]? else (s.mem.sym b).get? i := by
  rw [storeSyms_mem, sym_setSym_same, Store.get?_overwrite]

theorem storeSyms_holds (b : SymBuf) {out : List Symbol} (h : out.length < 2 ^ 32) (s : State) :
    (s.storeSyms b out).HoldsSyms b out := by
  refine ⟨?_, fun i hi => by rw [storeSyms_get?, if_pos hi]⟩
  rw [State.symLen, storeSyms_lens, lens_sym_setSym_same, toNat_ofNat_le (Nat.le_refl _) h]

/-- Whatever fits a symbol buffer has a length that is a word, on every legal build (R7). -/
theorem lt_word_of_le_maxSyms {c : Config} (hlegal : c.Legal) {n : Nat} (h : n ≤ c.maxSyms) : n < 2 ^ 32 := by
  obtain ⟨-, hmax, -⟩ := hlegal
  omega

/-- A command whose rule ends by writing `out` to `SYM[d]` leaves it there, and the entries from its length on as before. -/
theorem succeeds_of_storeSyms {i : Instr} {s : State} {d : SymBuf} {out : List Symbol} (hi : i.wellFormed = true)
    (hlegal : s.cfg.Legal) (hfits : out.length ≤ s.cfg.maxSyms) (h : endingOf s i = .ok (s.storeSyms d out)) :
    Succeeds i s fun t => t.HoldsSyms d out ∧ ∀ k, out.length ≤ k → (t.mem.sym d).get? k = (s.mem.sym d).get? k :=
  succeeds_of_ending hi h ⟨storeSyms_holds d (lt_word_of_le_maxSyms hlegal hfits) s, fun k hk => by
    rw [complete_mem, storeSyms_get?, if_neg (by omega)]⟩

/-- What a symbol buffer holds is data. -/
theorem State.HoldsSyms.of_sameData {s t : State} {b : SymBuf} {xs : List Symbol} (hs : s.HoldsSyms b xs) (h : s.SameData t) :
    t.HoldsSyms b xs := by
  obtain ⟨-, hmem, hlens, -⟩ := h
  simp only [State.HoldsSyms, State.symLen, hmem, hlens]
  exact hs

/-! ### Pairs as a symbol buffer stores them (R140) -/

/-- A pair with its count as the word a symbol buffer stores. -/
def storedPair (p : Symbol × Nat) : Symbol × Word := (p.1, BitVec.ofNat 32 p.2)

/-- A stored pair with its count as a number. -/
def readPair (p : Symbol × Word) : Symbol × Nat := (p.1, p.2.toNat)

theorem readPair_storedPair {p : Symbol × Nat} (h : p.2 < 2 ^ 32) : readPair (storedPair p) = p :=
  Prod.ext rfl (toNat_ofNat_le (Nat.le_refl _) h)

theorem readPair_injective : Function.Injective readPair := fun _ _ h =>
  Prod.ext (Prod.ext_iff.mp h).1 (BitVec.eq_of_toNat_eq (Prod.ext_iff.mp h).2)

theorem flat_length (ps : List (Symbol × Word)) : (ps.flatMap fun p => [p.1, p.2]).length = 2 * ps.length := by
  simp [List.length_flatMap, Nat.mul_comm]

theorem totalCount_eq_sum (ps : List (Symbol × Nat)) : totalCount ps = (ps.map Prod.snd).sum := by
  induction ps with
  | nil => rfl
  | cons p rest ih => rw [totalCount, ih, List.map_cons, List.sum_cons]

theorem totalCount_readPair (ps : List (Symbol × Word)) :
    totalCount (ps.map readPair) = (ps.map fun p => p.2.toNat).sum := by
  rw [totalCount_eq_sum, List.map_map]; rfl

theorem expandPairs_readPair (ps : List (Symbol × Word)) :
    expandPairs (ps.map readPair) = ps.flatMap fun p => List.replicate p.2.toNat p.1 := by
  rw [expandPairs_eq, List.flatMap_map]; rfl

theorem expandPairs_readPair_length (ps : List (Symbol × Word)) :
    (expandPairs (ps.map readPair)).length = (ps.map fun p => p.2.toNat).sum := by
  rw [← totalCount_eq, totalCount_readPair]

/-! ### Runs -/

theorem runs_cons_head (v : Symbol) (rest : List Symbol) : ∃ c more, runs (v :: rest) = (v, c) :: more := by
  rw [runs]
  split
  next => exact ⟨_, _, rfl⟩
  next u c more _ =>
    split
    next heq => exact ⟨_, _, by rw [heq]⟩
    next => exact ⟨_, _, rfl⟩

/-- A symbol before another starts a run of its own exactly when the two differ. -/
theorem runs_cons_cons_length (v w : Symbol) (rest : List Symbol) :
    (runs (v :: w :: rest)).length = (runs (w :: rest)).length + if v = w then 0 else 1 := by
  obtain ⟨c, more, hw⟩ := runs_cons_head w rest
  rw [runs, hw]
  dsimp only
  split <;> rfl

/-- A sequence has at most one run more than it has neighbours that differ. -/
theorem runs_length_le (xs : List Symbol) :
    (runs xs).length ≤ (xs.zip (xs.drop 1)).countP (fun p => p.1 != p.2) + 1 := by
  induction xs with
  | nil => exact Nat.zero_le _
  | cons v rest ih =>
    cases rest with
    | nil => exact Nat.le_refl _
    | cons w rest =>
      rw [runs_cons_cons_length, List.drop_one, List.tail_cons, List.zip_cons_cons, List.countP_cons]
      rw [List.drop_one, List.tail_cons] at ih
      by_cases h : v = w <;> simpa [h] using ih

theorem count_le_of_mem_runs {xs : List Symbol} {p : Symbol × Nat} (h : p ∈ runs xs) : p.2 ≤ xs.length := by
  have hsum : xs.length = ((runs xs).map Prod.snd).sum := by rw [← totalCount_eq_sum, totalCount_eq, expand_runs]
  rw [hsum]
  exact List.le_sum_of_mem (List.mem_map_of_mem h)

/-- The runs of a sequence as RLE_ENC stores them. -/
def storedRuns (xs : List Symbol) : List (Symbol × Word) := (runs xs).map storedPair

theorem storedRuns_length (xs : List Symbol) : (storedRuns xs).length = (runs xs).length := List.length_map _

/-- The counts of a sequence whose length is a word are stored without loss. -/
theorem map_readPair_storedRuns {xs : List Symbol} (h : xs.length < 2 ^ 32) : (storedRuns xs).map readPair = runs xs := by
  have hread : ∀ p ∈ runs xs, (readPair ∘ storedPair) p = p := fun p hp =>
    readPair_storedPair ((count_le_of_mem_runs hp).trans_lt h)
  rw [storedRuns, List.map_map, List.map_congr_left hread, List.map_id']

theorem expand_storedRuns {xs : List Symbol} (h : xs.length < 2 ^ 32) : expandPairs ((storedRuns xs).map readPair) = xs := by
  rw [map_readPair_storedRuns h, expand_runs]

/-- The stored runs of a sequence meet the pair invariant (R140, R141). -/
theorem storedRuns_pos {xs : List Symbol} (h : xs.length < 2 ^ 32) : ∀ p ∈ storedRuns xs, 1 ≤ p.2.toNat := fun p hp =>
  runs_pos xs (readPair p) (map_readPair_storedRuns h ▸ List.mem_map_of_mem hp)

theorem storedRuns_chain (xs : List Symbol) : (storedRuns xs).IsChain (fun p q => p.1 ≠ q.1) :=
  (List.isChain_map storedPair).mpr (runs_chain xs)

/-- A stored stream that meets the pair invariant is the stored runs of what it expands to. -/
theorem storedRuns_expand {ps : List (Symbol × Word)} (h : (expandPairs (ps.map readPair)).length < 2 ^ 32)
    (hpos : ∀ p ∈ ps, 1 ≤ p.2.toNat) (hchain : ps.IsChain (fun p q => p.1 ≠ q.1)) :
    storedRuns (expandPairs (ps.map readPair)) = ps := by
  apply List.map_injective_iff.mpr readPair_injective
  rw [map_readPair_storedRuns h]
  exact runs_expand (List.forall_mem_map.mpr hpos) ((List.isChain_map readPair).mpr hchain)

theorem rleEncode_eq_flat (xs : List Symbol) : rleEncode xs = (storedRuns xs).flatMap fun p => [p.1, p.2] := by
  rw [rleEncode, flattenPairs_eq, storedRuns, List.flatMap_map]; rfl

theorem rleEncode_length (xs : List Symbol) : (rleEncode xs).length = 2 * (runs xs).length := flattenPairs_length _

section Rle
variable {s : State} {b d : SymBuf}

/-! ### RLE_ENC (R141) -/

theorem wellFormed_rleEnc (hbd : b ≠ d) : (Instr.rleEnc b d).wellFormed = true := decide_eq_true hbd

theorem rleEncEval_of_holds {src : List Symbol} (hs : s.HoldsSyms b src) (hcap : src.length ≤ s.cfg.maxSyms) :
    rleEncEval b s = checkOutput (2 * (runs src).length) s.cfg.maxSyms (.value (rleEncode src)) := by
  rw [rleEncEval, checkSource_le _ (by rw [hs.1]; exact hcap), symseq_eq_value.mpr hs, bind_value, rleEncode_length]

theorem rleEnc_fails (hbd : b ≠ d) {e : ResultCode} {info : Nat} (he : e ≠ .ok) (h : rleEncEval b s = .raise e info) :
    FailsWith (.rleEnc b d) s e info :=
  fails_of_ending (wellFormed_rleEnc hbd) he (by rw [endingOf, h]; rfl)

theorem rleEnc_succeeds {src : List Symbol} (hlegal : s.cfg.Legal) (hbd : b ≠ d) (hs : s.HoldsSyms b src)
    (hcap : src.length ≤ s.cfg.maxSyms) (hfits : 2 * (runs src).length ≤ s.cfg.maxSyms) :
    Succeeds (.rleEnc b d) s fun t =>
      t.HoldsSyms d (rleEncode src) ∧ ∀ k, (rleEncode src).length ≤ k → (t.mem.sym d).get? k = (s.mem.sym d).get? k :=
  succeeds_of_storeSyms (wellFormed_rleEnc hbd) hlegal (by rw [rleEncode_length]; exact hfits)
    (by rw [endingOf, rleEncEval_of_holds hs hcap, checkOutput_le _ hfits]; rfl)

/-! ### RLE_DEC (R142) -/

theorem wellFormed_rleDec (hbd : b ≠ d) : (Instr.rleDec b d).wellFormed = true := decide_eq_true hbd

theorem rleDecEval_of_odd (hcap : s.symLen b ≤ s.cfg.maxSyms) (hodd : s.symLen b % 2 = 1) :
    rleDecEval b s = .raise .invariantViolation (s.symLen b) := by
  rw [rleDecEval, checkSource_le _ hcap, if_pos hodd]

theorem rleDecEval_of_holds {ps : List (Symbol × Word)} (hs : s.HoldsSyms b (ps.flatMap fun p => [p.1, p.2]))
    (hcap : 2 * ps.length ≤ s.cfg.maxSyms) :
    rleDecEval b s =
      checkOutput (ps.map fun p => p.2.toNat).sum s.cfg.maxSyms (.value (expandPairs (ps.map readPair))) := by
  have hlen : s.symLen b = 2 * ps.length := hs.1.trans (flat_length ps)
  have hpairs : pairsOf (ps.flatMap fun p => [p.1, p.2]) = ps.map readPair := pairsOf_flat ps
  rw [rleDecEval, checkSource_le _ (by omega), if_neg (by omega), symseq_eq_value.mpr hs, bind_value, hpairs,
    totalCount_readPair]

theorem rleDec_fails (hbd : b ≠ d) {e : ResultCode} {info : Nat} (he : e ≠ .ok) (h : rleDecEval b s = .raise e info) :
    FailsWith (.rleDec b d) s e info :=
  fails_of_ending (wellFormed_rleDec hbd) he (by rw [endingOf, h]; rfl)

theorem rleDec_succeeds {ps : List (Symbol × Word)} (hlegal : s.cfg.Legal) (hbd : b ≠ d)
    (hs : s.HoldsSyms b (ps.flatMap fun p => [p.1, p.2])) (hcap : 2 * ps.length ≤ s.cfg.maxSyms)
    (hfits : (ps.map fun p => p.2.toNat).sum ≤ s.cfg.maxSyms) :
    Succeeds (.rleDec b d) s fun t =>
      t.HoldsSyms d (expandPairs (ps.map readPair)) ∧
        ∀ k, (expandPairs (ps.map readPair)).length ≤ k → (t.mem.sym d).get? k = (s.mem.sym d).get? k :=
  succeeds_of_storeSyms (wellFormed_rleDec hbd) hlegal (by rw [expandPairs_readPair_length]; exact hfits)
    (by rw [endingOf, rleDecEval_of_holds hs hcap, checkOutput_le _ hfits]; rfl)

end Rle

/-! ### The two rules -/

/-- Settles O35: the pairs are the runs of the source, and whether they fit decides between the two outcomes. -/
theorem rleEncRule : Obligations.RleEncRule := by
  refine ⟨decode_encode (i := .rleEnc .sym0 .sym1) rfl, decode_encode (i := .rleEnc .sym1 .sym0) rfl,
    fun s b d hlegal hbd => ⟨fun hgt => ?_, fun src hs hcap => ⟨runs src, ?_, runs_pos src, runs_chain src, fun hfits => ?_,
      fun hgt => ?_⟩⟩⟩
  · exact rleEnc_fails hbd (by decide) (checkSource_gt _ hgt)
  · rw [← expandPairs_eq, expand_runs]
  · have h := rleEnc_succeeds hlegal hbd hs hcap hfits
    rwa [rleEncode_length, rleEncode, flattenPairs_eq] at h
  · exact rleEnc_fails hbd (by decide) (by rw [rleEncEval_of_holds hs hcap, checkOutput_gt _ hgt])

/-- Settles O36: the length and its parity decide first, then the sum of the counts, which is the length of the output. -/
theorem rleDecRule : Obligations.RleDecRule := by
  refine ⟨decode_encode (i := .rleDec .sym0 .sym1) rfl, decode_encode (i := .rleDec .sym1 .sym0) rfl,
    fun s b d hlegal hbd => ⟨fun hgt => ?_, fun hcap hodd => ?_, fun ps hs hcap => ⟨fun hfits => ?_, fun hgt => ?_⟩⟩⟩
  · exact rleDec_fails hbd (by decide) (checkSource_gt _ hgt)
  · exact rleDec_fails hbd (by decide) (rleDecEval_of_odd hcap hodd)
  · have h := rleDec_succeeds hlegal hbd hs hcap hfits
    rwa [expandPairs_readPair_length, expandPairs_readPair] at h
  · exact rleDec_fails hbd (by decide) (by rw [rleDecEval_of_holds hs hcap, checkOutput_gt _ hgt])

/-! ### RLE_ENC and RLE_DEC together (R143, R144) -/

/-- Settles O51: RLE_ENC leaves the stored runs, whose counts read back as they were, and the runs expand to the sequence. -/
theorem rleRoundTrip : Obligations.RleRoundTrip := by
  intro s b c xs hlegal hbc hs hcap hruns
  have hfits : 2 * (runs xs).length ≤ s.cfg.maxSyms := by have := runs_length_le xs; omega
  have hout := expand_storedRuns (lt_word_of_le_maxSyms hlegal hcap)
  obtain ⟨t, hexec, herr, hcfg, ht, -⟩ := (rleEnc_succeeds hlegal hbc hs hcap hfits).exec_ok
  refine ⟨t, hexec, herr, fun t' hdata => ?_⟩
  have hcfg' : t'.cfg = s.cfg := hdata.1.trans hcfg
  have ht' := ht.of_sameData hdata
  rw [rleEncode_eq_flat] at ht'
  obtain ⟨u, hexec', herr', -, hu, -⟩ := (rleDec_succeeds (hcfg' ▸ hlegal) hbc.symm ht'
    (by rw [storedRuns_length, hcfg']; exact hfits)
    (by rw [← expandPairs_readPair_length, hout, hcfg']; exact hcap)).exec_ok
  exact ⟨u, hexec', herr', hout ▸ hu⟩

/-- Settles O52: RLE_DEC leaves the expanded sequence, and RLE_ENC of it the stored runs, no more of them than there were pairs
(`runs_expand_length`). -/
theorem rleNormalises : Obligations.RleNormalises := by
  intro s b c ps hlegal hbc hs hcap htotal
  have hlen : (expandPairs (ps.map readPair)).length ≤ s.cfg.maxSyms := (expandPairs_readPair_length ps).trans_le htotal
  have hword := lt_word_of_le_maxSyms hlegal hlen
  have hfits : 2 * (runs (expandPairs (ps.map readPair))).length ≤ s.cfg.maxSyms :=
    (Nat.mul_le_mul_left 2 ((runs_expand_length _).trans_eq (List.length_map _))).trans hcap
  obtain ⟨t, hexec, herr, hcfg, ht, -⟩ := (rleDec_succeeds hlegal hbc hs hcap htotal).exec_ok
  refine ⟨t, hexec, herr, fun t' hdata => ?_⟩
  have hcfg' : t'.cfg = s.cfg := hdata.1.trans hcfg
  obtain ⟨u, hexec', herr', -, hu, -⟩ := (rleEnc_succeeds (hcfg' ▸ hlegal) hbc.symm (ht.of_sameData hdata)
    (by rw [hcfg']; exact hlen) (by rw [hcfg']; exact hfits)).exec_ok
  refine ⟨u, hexec', herr', storedRuns _, rleEncode_eq_flat _ ▸ hu, ?_, storedRuns_pos hword, storedRuns_chain _,
    storedRuns_expand hword⟩
  rw [← expandPairs_readPair, expand_storedRuns hword, expandPairs_readPair]

end Sys2Proof.Machine

namespace Sys2Proof.Machine

/-! ## BUILD_TREE, TREE_STORE and TREE_LOAD (43_huffman_tree.md) -/

/-! ### BUILD_TREE (R160 to R163, R174) -/

theorem buildTree_eq_empty {src : List Symbol} : buildTree src = .empty ↔ src = [] := by
  refine ⟨fun h => ?_, fun h => by subst h; rfl⟩
  rcases buildTree_spec src with ⟨hnil, -⟩ | ⟨n, hroot, -⟩
  · exact hnil
  · rw [hroot] at h; cases h

theorem distinctSyms_eq_nil {src : List Symbol} : distinctSyms src = [] ↔ src = [] := by
  simp only [List.eq_nil_iff_forall_not_mem, mem_distinctSyms]

/-- One distinct symbol is a single leaf: the merge loop pops it and finds no second element (R160). -/
theorem buildTree_of_single {src : List Symbol} {x : Symbol} (h : distinctSyms src = [x]) :
    buildTree src = .root (.leaf x) := by
  simp [buildTree, h, leafQueue, mergeLoop, popMin]

/-- A source that is not empty is merged into one root (R160 to R162). -/
theorem buildTree_merges {src : List Symbol} (h : src ≠ []) :
    ∃ n, buildTree src = .root n ∧ HuffmanMerge (distinctSyms src).length
      ((distinctSyms src).zipIdx.map fun p => ⟨src.count p.1, p.2, .leaf p.1⟩) n := by
  rw [← leafQueue_eq]
  exact (buildTree_spec src).resolve_left fun ⟨hnil, _⟩ => h hnil

theorem leaves_length_eq_one {n : Node} : n.leaves.length = 1 ↔ ∃ x, n = .leaf x := by
  cases n with
  | leaf s => exact ⟨fun _ => ⟨s, rfl⟩, fun _ => rfl⟩
  | inner l r =>
    have hl := leaves_length_pos l
    have hr := leaves_length_pos r
    refine ⟨fun h => ?_, fun ⟨x, h⟩ => by cases h⟩
    rw [Node.leaves, List.length_append] at h
    omega

section BuildTree
variable {s : State} {b : SymBuf} {src : List Symbol}

/-- With its source written BUILD_TREE is its two capacity checks and the tree of the source. -/
theorem buildTreeEval_of_holds (hs : s.HoldsSyms b src) :
    buildTreeEval b s = checkSource src.length s.cfg.maxSyms
      (checkOutput (distinctSyms src).length s.cfg.maxAlpha (.value (buildTree src))) := by
  rw [buildTreeEval, symseq_eq_value.mpr hs, bind_value, hs.1]

theorem buildTree_fails (h : buildTreeEval b s = .raise .capacityExceeded 0) :
    FailsWith (.buildTree b) s .capacityExceeded 0 :=
  fails_of_ending rfl (by decide) (by rw [endingOf, h]; rfl)

theorem buildTree_succeeds {P : State → Prop} (hs : s.HoldsSyms b src) (hcap : src.length ≤ s.cfg.maxSyms)
    (halpha : (distinctSyms src).length ≤ s.cfg.maxAlpha) (hP : P ((s.storeTree (buildTree src)).complete .ok 0)) :
    Succeeds (.buildTree b) s P :=
  succeeds_of_ending rfl
    (by rw [endingOf, buildTreeEval_of_holds hs, checkSource_le _ hcap, checkOutput_le _ halpha]; rfl) hP

/-- A BUILD_TREE that reports `OK` has left the tree of its source. -/
theorem tree_of_buildTree_ok {t : State} (hs : s.HoldsSyms b src) (h : exec (.buildTree b) s = .next t)
    (hok : t.status.err = .ok) : t.tree = some (buildTree src) := by
  have hmeets : (buildTreeEval b s).Meets (errorsOf (.buildTree b)) (· = buildTree src) := by
    rw [buildTreeEval_of_holds hs]
    exact meets_checkSource (by simp [errorsOf]) fun _ => meets_checkOutput (by simp [errorsOf]) fun _ => meets_value rfl
  obtain ⟨u, hu, rfl⟩ := endingOf_of_exec_ok rfl h hok
  obtain ⟨_, rfl, rfl⟩ := hmeets.ending_ok hu
  rfl

end BuildTree

/-- Settles O37: the symbols are `distinctSyms src`, and the tree left is `buildTree src`, one lemma for each number of symbols. -/
theorem buildTreeRule : Obligations.BuildTreeRule := by
  refine ⟨decode_encode (i := .buildTree .sym0) rfl, decode_encode (i := .buildTree .sym1) rfl,
    fun s b _ => ⟨fun hgt => buildTree_fails (checkSource_gt _ hgt), fun src hs hcap =>
      ⟨distinctSyms src, distinctSyms_pairwise src, fun x => mem_distinctSyms, fun hgt => ?_, fun halpha =>
        buildTree_succeeds hs hcap halpha ⟨rfl, fun hnil => ?_, fun x hx => ?_, fun htwo => ?_⟩⟩⟩⟩
  · exact buildTree_fails (by rw [buildTreeEval_of_holds hs, checkSource_le _ hcap, checkOutput_gt _ hgt])
  · exact congrArg some (buildTree_eq_empty.mpr (distinctSyms_eq_nil.mp hnil))
  · exact congrArg some (buildTree_of_single hx)
  · have hne : src ≠ [] := fun hnil => by
      rw [distinctSyms_eq_nil.mpr hnil, List.length_nil] at htwo; omega
    obtain ⟨n, hroot, hmerge⟩ := buildTree_merges hne
    exact ⟨n, congrArg some hroot, hmerge⟩

/-- Settles O53: the tree left is `buildTree src`, whose leaves are a permutation of the distinct symbols. -/
theorem builtTreeShape : Obligations.BuiltTreeShape := by
  intro s t b src hs h hok
  have hleaves := buildTree_leaves src
  exact ⟨buildTree src, tree_of_buildTree_ok hs h hok, hleaves.nodup_iff.mpr (distinctSyms_nodup src),
    fun _ => hleaves.mem_iff.trans mem_distinctSyms, buildTree_eq_empty, fun n _ => innerCount_eq_leaves n,
    fun _ _ => leaves_length_eq_one⟩

/-- Settles O54: either command leaves `buildTree src`, a function of the source alone. -/
theorem buildTreeIsDeterministic : Obligations.BuildTreeIsDeterministic := by
  intro s s' t t' b b' src hs hs' h h' hok hok'
  rw [tree_of_buildTree_ok hs h hok, tree_of_buildTree_ok hs' h' hok']

/-! ### The portable form (R170) -/

/-- Settles O38: the equations are the definition's; the length counts the nodes. -/
theorem serializedTreeFormat : Obligations.SerializedTreeFormat := by
  refine ⟨fun _ => rfl, fun _ _ => rfl, rfl, fun _ => rfl, fun n => ?_, fun _ _ h => tree_serialize_le h⟩
  have hsize := size_eq_leaves n
  rw [Tree.serialize, Tree.leaves, serialize_length]
  omega

theorem serialize_length_pos (n : Node) : 0 < n.serialize.length := serialize_length n ▸ size_pos n

/-! ### TREE_STORE (R171) -/

theorem storeTser_tag_get? (out : List (Word × Word)) (s : State) (i : Nat) :
    (s.storeTser out).mem.tserTag.get? i = if i < out.length then (out.map Prod.fst)[i]? else s.mem.tserTag.get? i := by
  rw [storeTser_mem, Store.get?_overwrite, List.length_map]

theorem storeTser_sym_get? (out : List (Word × Word)) (s : State) (i : Nat) :
    (s.storeTser out).mem.tserSym.get? i = if i < out.length then (out.map Prod.snd)[i]? else s.mem.tserSym.get? i := by
  rw [storeTser_mem, Store.get?_overwrite, List.length_map]

theorem storeTser_holds {out : List (Word × Word)} (h : out.length < 2 ^ 32) (s : State) :
    (s.storeTser out).HoldsTser out :=
  ⟨toNat_ofNat_le (Nat.le_refl _) h, fun i hi => by
    rw [storeTser_tag_get?, storeTser_sym_get?, if_pos hi, if_pos hi]; exact ⟨rfl, rfl⟩⟩

/-- The portable form of a tree within the alphabet has a length that is a word, on every legal build (R7). -/
theorem serialize_length_lt {c : Config} (hlegal : c.Legal) {t : Tree} (h : t.leaves.length ≤ c.maxAlpha) :
    t.serialize.length < 2 ^ 32 := by
  obtain ⟨-, -, -, -, -, -, hmax, -⟩ := hlegal
  have hle := tree_serialize_le h
  rw [Config.maxTser] at hle
  omega

theorem treeStore_succeeds {s : State} {t : Tree} {P : State → Prop} (htree : s.tree = some t)
    (hP : P ((s.storeTser t.serialize).complete .ok 0)) : Succeeds .treeStore s P :=
  succeeds_of_ending rfl (by rw [endingOf, treeStoreEval, htree]; rfl) hP

/-- Settles O39: `storeTser_holds` for the entries written, `storeTser_tag_get?` and `storeTser_sym_get?` for the others. -/
theorem treeStoreRule : Obligations.TreeStoreRule := by
  refine ⟨decode_encode (i := .treeStore) rfl, fun s hlegal => ⟨fun hnone => ?_, fun t htree hfits =>
    treeStore_succeeds htree ⟨storeTser_holds (serialize_length_lt hlegal hfits) s, fun i hge => ?_⟩⟩⟩
  · exact fails_of_ending rfl (by decide) (by rw [endingOf, treeStoreEval, hnone]; rfl)
  · rw [complete_mem, storeTser_tag_get?, storeTser_sym_get?, if_neg (by omega), if_neg (by omega)]
    exact ⟨rfl, rfl⟩

/-! ### The leaves of a tree and their entries (R172) -/

/-- The leaves of a node that starts at entry `i`, read off its portable form. -/
theorem mem_leavesAt {n : Node} {i k : Nat} {x : Symbol} :
    (x, k) ∈ n.leavesAt i ↔ ∃ j, k = i + j ∧ n.serialize[j]? = some (1#32, x) := by
  induction n generalizing i with
  | leaf s =>
    rw [Node.leavesAt, Node.serialize, List.mem_singleton, Prod.mk.injEq]
    constructor
    · rintro ⟨rfl, rfl⟩; exact ⟨0, rfl, rfl⟩
    · rintro ⟨j, rfl, hj⟩
      cases j with
      | zero => cases hj; exact ⟨rfl, rfl⟩
      | succ j => cases hj
  | inner l r ihl ihr =>
    have hlen := serialize_length l
    rw [Node.leavesAt, Node.serialize, List.mem_append, ihl, ihr]
    constructor
    · rintro (⟨j, rfl, hj⟩ | ⟨j, rfl, hj⟩)
      · exact ⟨1 + j, by omega, by
          rwa [Nat.add_comm, List.getElem?_cons_succ, List.getElem?_append_left (List.getElem?_eq_some_iff.mp hj).1]⟩
      · exact ⟨l.size + j + 1, by omega, by
          rwa [List.getElem?_cons_succ, List.getElem?_append_right (by omega), hlen, Nat.add_sub_cancel_left]⟩
    · rintro ⟨j, rfl, hj⟩
      cases j with
      | zero => cases hj
      | succ j =>
        rw [List.getElem?_cons_succ] at hj
        by_cases hleft : j < l.serialize.length
        · rw [List.getElem?_append_left hleft] at hj
          exact .inl ⟨j, by omega, hj⟩
        · rw [List.getElem?_append_right (by omega)] at hj
          exact .inr ⟨j - l.serialize.length, by omega, hj⟩

/-- The leaves in preorder come from rising entries. -/
theorem leavesAt_sorted (n : Node) (i : Nat) : (n.leavesAt i).Pairwise (fun p q => p.2 < q.2) := by
  induction n generalizing i with
  | leaf s => exact List.pairwise_singleton _ _
  | inner l r ihl ihr =>
    refine List.pairwise_append.mpr ⟨ihl _, ihr _, fun p hp q hq => ?_⟩
    obtain ⟨j, hj, hget⟩ := mem_leavesAt.mp hp
    obtain ⟨k, hk, -⟩ := mem_leavesAt.mp hq
    have hlt := (List.getElem?_eq_some_iff.mp hget).1
    rw [serialize_length] at hlt
    omega

/-- Over rising entries `firstDuplicate` finds entry `i` when its symbol has come before and no entry below `i` repeats one. -/
theorem firstDuplicate_eq_some {seen : List Symbol} {l : List (Symbol × Nat)} {x : Symbol} {i : Nat}
    (hsorted : l.Pairwise fun p q => p.2 < q.2) (hmem : (x, i) ∈ l) (hdup : x ∈ seen ∨ ∃ j, j < i ∧ (x, j) ∈ l)
    (hfirst : ∀ y k, k < i → (y, k) ∈ l → y ∉ seen ∧ ∀ j, j < k → (y, j) ∉ l) : firstDuplicate seen l = some i := by
  induction l generalizing seen with
  | nil => cases hmem
  | cons p rest ih =>
    obtain ⟨z, m⟩ := p
    obtain ⟨hhead, hrest⟩ := List.pairwise_cons.mp hsorted
    rw [firstDuplicate]
    rcases List.mem_cons.mp hmem with heq | hmem
    · cases heq
      have hseen : x ∈ seen := hdup.resolve_right fun ⟨j, hj, hjl⟩ => by
        rcases List.mem_cons.mp hjl with heq | hjl
        · cases heq; exact Nat.lt_irrefl _ hj
        · exact Nat.lt_asymm hj (hhead _ hjl)
      rw [if_pos hseen]
    · have hnew := (hfirst z m (hhead _ hmem) (List.mem_cons_self ..)).1
      rw [if_neg hnew]
      refine ih hrest hmem ?_ fun y k hk hyk => ?_
      · rcases hdup with hseen | ⟨j, hj, hjl⟩
        · exact .inl (List.mem_cons_of_mem _ hseen)
        · rcases List.mem_cons.mp hjl with heq | hjl
          · cases heq; exact .inl (List.mem_cons_self ..)
          · exact .inr ⟨j, hj, hjl⟩
      · obtain ⟨hseen, hearlier⟩ := hfirst y k hk (List.mem_cons_of_mem _ hyk)
        refine ⟨fun hy => ?_, fun j hj hjl => hearlier j hj (List.mem_cons_of_mem _ hjl)⟩
        rcases List.mem_cons.mp hy with rfl | hy
        · exact hearlier m (hhead _ hyk) (List.mem_cons_self ..)
        · exact hseen hy

/-- The entry TREE_LOAD names for a repeated leaf, read off the portable form (R172). -/
theorem firstDuplicate_of_serialize {n : Node} {i : Nat} {x : Symbol} (hi : n.serialize[i]? = some (1#32, x))
    (hdup : ∃ j, j < i ∧ n.serialize[j]? = some (1#32, x))
    (hfirst : ∀ k y, k < i → n.serialize[k]? = some (1#32, y) → ¬ ∃ j, j < k ∧ n.serialize[j]? = some (1#32, y)) :
    firstDuplicate [] (n.leavesAt 0) = some i := by
  have hmem : ∀ y k, (y, k) ∈ n.leavesAt 0 ↔ n.serialize[k]? = some (1#32, y) := fun y k => by
    simp [mem_leavesAt]
  refine firstDuplicate_eq_some (leavesAt_sorted n 0) ((hmem x i).mpr hi) (.inr ?_) fun y k hk hyk => ?_
  · simpa only [hmem] using hdup
  · exact ⟨List.not_mem_nil, fun j hj hjl => hfirst k y hk ((hmem y k).mp hyk) ⟨j, hj, (hmem y j).mp hjl⟩⟩

/-! ### TREE_LOAD (R172) -/

section TreeLoad
variable {s : State} {n : Node}

/-- Entries that agree with a whole portable form parse to its node, whatever follows them. -/
theorem parseNode_of_tserAgrees (h : s.TserAgrees n n.serialize.length) (hlen : n.serialize.length ≤ s.tserLen) :
    parseNode s.mem s.tserLen (s.tserLen + 1) 0 = .value (n, n.serialize.length) := by
  have hentries := entriesAt_of_tserAgrees h
  rw [List.take_length] at hentries
  have hsize := serialize_length n
  have hparse := parseNode_serialize (n := s.tserLen) n (s.tserLen + 1) 0 (by omega) (by omega) hentries
  rwa [Nat.zero_add, ← hsize] at hparse

theorem treeLoadEval_of_empty (h : s.tserLen = 0) : treeLoadEval s = .value .empty := by
  rw [treeLoadEval, checkSource_le _ (by omega), if_pos h]

/-- An error of the parser is TREE_LOAD's. -/
theorem treeLoadEval_of_parse_raise {e : ResultCode} {info : Nat} (hcap : s.tserLen ≤ s.cfg.maxTser) (hpos : 0 < s.tserLen)
    (h : parseNode s.mem s.tserLen (s.tserLen + 1) 0 = .raise e info) : treeLoadEval s = .raise e info := by
  rw [treeLoadEval, checkSource_le _ hcap, if_neg (by omega), h, bind_raise]

/-- Where the entries agree with a portable form up to entry `k` and no further, TREE_LOAD raises at that entry. -/
theorem treeLoadEval_of_break {k : Nat} (hcap : s.tserLen ≤ s.cfg.maxTser) (hpos : 0 < s.tserLen) (h : s.TserAgrees n k)
    (hk : k < n.serialize.length)
    (hend : s.tserLen = k ∨ k < s.tserLen ∧ ∃ tag, s.mem.tserTag.get? k = some tag ∧ tag ≠ 1#32 ∧ tag ≠ 0#32) :
    treeLoadEval s = .raise .invalidFormat k := by
  rw [serialize_length] at hk
  refine treeLoadEval_of_parse_raise hcap hpos
    (parseNode_raise n (s.tserLen + 1) 0 k k (by omega) hk (by omega) (entriesAt_of_tserAgrees h) ?_)
  rw [Nat.zero_add]
  exact hend.imp (fun heq => ⟨heq, heq.symm⟩) fun ⟨hlt, htag⟩ => ⟨hlt, rfl, htag⟩

/-- Entries left after a whole tree (R172). -/
theorem treeLoadEval_of_trailing (hcap : s.tserLen ≤ s.cfg.maxTser) (h : s.TserAgrees n n.serialize.length)
    (hlen : n.serialize.length < s.tserLen) : treeLoadEval s = .raise .invalidFormat n.serialize.length := by
  rw [treeLoadEval, checkSource_le _ hcap, if_neg (by omega), parseNode_of_tserAgrees h hlen.le, bind_value,
    if_pos hlen.ne]

theorem treeLoadEval_of_duplicate {i : Nat} (hcap : s.tserLen ≤ s.cfg.maxTser) (h : s.TserAgrees n n.serialize.length)
    (hlen : s.tserLen = n.serialize.length) (hdup : firstDuplicate [] (n.leavesAt 0) = some i) :
    treeLoadEval s = .raise .invalidFormat i := by
  have hpos := serialize_length_pos n
  rw [treeLoadEval, checkSource_le _ hcap, if_neg (by omega), parseNode_of_tserAgrees h hlen.ge, bind_value,
    if_neg (not_not.mpr hlen.symm), hdup]

theorem treeLoadEval_of_nodup (hcap : s.tserLen ≤ s.cfg.maxTser) (h : s.TserAgrees n n.serialize.length)
    (hlen : s.tserLen = n.serialize.length) (hnodup : n.leaves.Nodup) : treeLoadEval s = .value (.root n) := by
  have hpos := serialize_length_pos n
  rw [treeLoadEval, checkSource_le _ hcap, if_neg (by omega), parseNode_of_tserAgrees h hlen.ge, bind_value,
    if_neg (not_not.mpr hlen.symm), firstDuplicate_leaves.mpr hnodup]

theorem treeLoad_fails {e : ResultCode} {info : Nat} (he : e ≠ .ok) (h : treeLoadEval s = .raise e info) :
    FailsWith .treeLoad s e info :=
  fails_of_ending rfl he (by rw [endingOf, h]; rfl)

theorem treeLoad_succeeds {t : Tree} (h : treeLoadEval s = .value t) :
    Succeeds .treeLoad s fun u => u.tree = some t ∧ u.code = none :=
  succeeds_of_ending rfl (by rw [endingOf, h]; rfl) ⟨rfl, rfl⟩

end TreeLoad

/-- Settles O40: one lemma on `treeLoadEval` for each outcome. -/
theorem treeLoadRule : Obligations.TreeLoadRule := by
  refine ⟨decode_encode (i := .treeLoad) rfl, fun s _ => ⟨fun hgt => ?_, fun hcap => ⟨fun hzero => ?_, fun n =>
    ⟨fun i tag hagrees hin hlt htag hne0 hne1 => ?_, fun hagrees hpos hlt => ?_, fun hagrees hlt => ?_,
      fun hagrees hlen => ⟨fun hnodup => ?_, fun i x hi hdup hfirst => ?_⟩⟩⟩⟩⟩
  · exact treeLoad_fails (by decide) (checkSource_gt _ hgt)
  · exact treeLoad_succeeds (treeLoadEval_of_empty hzero)
  · exact treeLoad_fails (by decide)
      (treeLoadEval_of_break hcap (by omega) hagrees hin (.inr ⟨hlt, tag, htag, hne1, hne0⟩))
  · exact treeLoad_fails (by decide) (treeLoadEval_of_break hcap hpos hagrees hlt (.inl rfl))
  · exact treeLoad_fails (by decide) (treeLoadEval_of_trailing hcap hagrees hlt)
  · exact treeLoad_succeeds (treeLoadEval_of_nodup hcap hagrees hlen hnodup)
  · exact treeLoad_fails (by decide)
      (treeLoadEval_of_duplicate hcap hagrees hlen (firstDuplicate_of_serialize hi hdup hfirst))

/-! ### TREE_STORE and TREE_LOAD together (R173) -/

/-- What TSER holds is data. -/
theorem State.HoldsTser.of_sameData {s t : State} {es : List (Word × Word)} (hs : s.HoldsTser es) (h : s.SameData t) :
    t.HoldsTser es := by
  obtain ⟨-, hmem, hlens, -⟩ := h
  simp only [State.HoldsTser, State.tserLen, hmem, hlens]
  exact hs

/-- A TSER that holds a portable form agrees with it, sym words of inner nodes included. -/
theorem State.HoldsTser.agrees {s : State} {n : Node} (hs : s.HoldsTser n.serialize) :
    s.TserAgrees n n.serialize.length := by
  intro i hi e he
  obtain ⟨htag, hsym⟩ := hs.2 i hi
  rw [List.getElem?_map, he] at htag hsym
  exact ⟨htag, fun _ => hsym⟩

/-- TREE_LOAD of a tree's portable form gives the tree back. -/
theorem treeLoadEval_of_holds {s : State} {tree : Tree} (hs : s.HoldsTser tree.serialize) (hfits : tree.Fits s.cfg) :
    treeLoadEval s = .value tree := by
  obtain ⟨hnodup, halpha⟩ := hfits
  cases tree with
  | empty => exact treeLoadEval_of_empty hs.1
  | root n => exact treeLoadEval_of_nodup (hs.1.trans_le (tree_serialize_le halpha)) hs.agrees hs.1 hnodup

/-- DERIVE_CODES is a function of the tree held. -/
theorem deriveCodes_congr {s s' t t' : State} (htree : s.tree = s'.tree) (h : exec .deriveCodes s = .next t)
    (h' : exec .deriveCodes s' = .next t') : t.code = t'.code ∧ t.status.err = t'.status.err := by
  have heval : deriveCodesEval s = deriveCodesEval s' := by rw [deriveCodesEval, deriveCodesEval, htree]
  have hs : finish .code State.storeCode (deriveCodesEval s') s = .next t := heval ▸ h
  have hs' : finish .code State.storeCode (deriveCodesEval s') s' = .next t' := h'
  cases hr : deriveCodesEval s' with
  | value table => rw [hr] at hs hs'; cases hs; cases hs'; exact ⟨rfl, rfl⟩
  | raise e info => rw [hr] at hs hs'; cases hs; cases hs'; exact ⟨rfl, rfl⟩
  | stop f => rw [hr] at hs; cases hs

/-- Settles O55: TREE_STORE leaves the portable form in TSER, TREE_LOAD parses it back, and DERIVE_CODES looks at the tree alone. -/
theorem treeRoundTrip : Obligations.TreeRoundTrip := by
  intro s tree hinv htree
  have hfits : tree.Fits s.cfg := hinv.treeLeaves tree htree
  have hholds := storeTser_holds (serialize_length_lt hinv.cfgLegal hfits.2) s
  obtain ⟨t, hstore, herr, hcfg, ht⟩ := (treeStore_succeeds (P := (·.HoldsTser tree.serialize)) htree hholds).exec_ok
  refine ⟨t, hstore, herr, fun t' hdata => ?_⟩
  have hcfg' : t'.cfg = s.cfg := hdata.1.trans hcfg
  obtain ⟨u, hload, herr', -, hu, -⟩ :=
    (treeLoad_succeeds (treeLoadEval_of_holds (ht.of_sameData hdata) (hcfg' ▸ hfits))).exec_ok
  exact ⟨u, hload, herr', hu, fun v w => deriveCodes_congr (htree.trans hu.symm)⟩

end Sys2Proof.Machine

namespace Sys2Proof.Machine

/-! ## Codewords and DERIVE_CODES (44_huffman_codes.md) -/

/-! ### Codewords as paths (R190, R192) -/

/-- Settles O41: the symbols by `codes_syms`, the paths by `mem_codes_inner`. -/
theorem codesArePaths : Obligations.CodesArePaths :=
  ⟨rfl, fun _ => rfl, fun l r => ⟨codes_syms (.root (.inner l r)), fun _ he => mem_codes_inner.mp he⟩⟩

theorem follow_append (n : Node) (p q : BitString) : n.follow (p ++ q) = (n.follow p).bind (·.follow q) := by
  induction p generalizing n with
  | nil => rw [List.nil_append, Node.follow, Option.bind_some]
  | cons b p ih =>
    cases n with
    | leaf x => rfl
    | inner l r => cases b <;> exact ih _

/-- Below a leaf no path goes on, so two paths to leaves of which one extends the other are the same path. -/
theorem sym_eq_of_follow_isPrefix {n : Node} {p q : BitString} {x y : Symbol} (hp : n.follow p = some (.leaf x))
    (hq : n.follow q = some (.leaf y)) (h : p <+: q) : x = y := by
  obtain ⟨rest, rfl⟩ := h
  rw [follow_append, hp, Option.bind_some] at hq
  cases rest with
  | nil => cases hq; rfl
  | cons b rest => cases hq

/-- In the code table of a tree with distinct leaves no codeword begins with another (R192). -/
theorem codes_prefixFree {t : Tree} (h : t.leaves.Nodup) :
    t.codes.Pairwise fun e f => ¬ e.code <+: f.code ∧ ¬ f.code <+: e.code := by
  rw [← codes_syms, List.Nodup, List.pairwise_map] at h
  match t with
  | .empty => exact .nil
  | .root (.leaf x) => exact List.pairwise_singleton _ _
  | .root (.inner l r) =>
    refine h.imp_of_mem fun he hf hne => ?_
    have hpath := mem_codes_inner.mp he
    have hpath' := mem_codes_inner.mp hf
    exact ⟨fun hpre => hne (sym_eq_of_follow_isPrefix hpath hpath' hpre),
      fun hpre => hne (sym_eq_of_follow_isPrefix hpath' hpath hpre).symm⟩

/-! ### DERIVE_CODES (R191) -/

section DeriveCodes
variable {s : State}

theorem deriveCodesEval_of_none (h : s.tree = none) : deriveCodesEval s = .raise .notReady 0 := by
  rw [deriveCodesEval, h]

theorem deriveCodesEval_of_tooLong {t : Tree} (h : s.tree = some t) (hlong : tooLong t.codes = true) :
    deriveCodesEval s = .raise .capacityExceeded 0 := by
  simp only [deriveCodesEval, h, hlong, if_true]

theorem deriveCodesEval_of_fits {t : Tree} (h : s.tree = some t) (hlong : tooLong t.codes = false) :
    deriveCodesEval s = .value t.codes := by
  simp only [deriveCodesEval, h, hlong, Bool.false_eq_true, if_false]

theorem deriveCodes_fails {e : ResultCode} (he : e ≠ .ok) (h : deriveCodesEval s = .raise e 0) :
    FailsWith .deriveCodes s e 0 :=
  fails_of_ending rfl he (by rw [endingOf, h]; rfl)

theorem deriveCodes_succeeds {t : Tree} {P : State → Prop} (h : s.tree = some t) (hlong : tooLong t.codes = false)
    (hP : P ((s.storeCode t.codes).complete .ok 0)) : Succeeds .deriveCodes s P :=
  succeeds_of_ending rfl (by rw [endingOf, deriveCodesEval_of_fits h hlong]; rfl) hP

/-- The codewords of a tree at most 32 deep fit `MAX_CODE_LEN` (R7, R191). -/
theorem tooLong_of_depth_le {n : Node} (h : n.depth ≤ 32) : tooLong (Tree.root n).codes = false :=
  Bool.eq_false_iff.mpr fun hlong => Nat.not_lt.mpr h ((tooLong_codes n).mp hlong)

/-- A DERIVE_CODES that reports `OK` has left the code table of the tree held. -/
theorem code_of_deriveCodes_ok {t : State} (h : exec .deriveCodes s = .next t) (hok : t.status.err = .ok) :
    ∃ tree, s.tree = some tree ∧ t.code = some tree.codes := by
  obtain ⟨u, hu, rfl⟩ := endingOf_of_exec_ok rfl h hok
  obtain ⟨_, ⟨tree, htree, rfl, -⟩, rfl⟩ := (deriveCodesEval_meets s).ending_ok hu
  exact ⟨tree, htree, rfl⟩

end DeriveCodes

/-- Settles O42: one lemma on `deriveCodesEval` for each outcome; the table is too long exactly when a leaf is deeper than 32. -/
theorem deriveCodesRule : Obligations.DeriveCodesRule := by
  refine ⟨decode_encode (i := .deriveCodes) rfl, fun s => ⟨fun hnone => ?_, fun hempty => ?_,
    fun n hroot => ⟨fun hdeep => ?_, fun hdepth => ?_⟩⟩⟩
  · exact deriveCodes_fails (by decide) (deriveCodesEval_of_none hnone)
  · exact deriveCodes_succeeds hempty rfl rfl
  · exact deriveCodes_fails (by decide) (deriveCodesEval_of_tooLong hroot ((tooLong_codes n).mpr hdeep))
  · exact deriveCodes_succeeds hroot (tooLong_of_depth_le hdepth) ⟨rfl, codes_length (.root n)⟩

/-- Settles O56: the table left is that of the tree held, whose leaves the invariant keeps distinct. -/
theorem codesArePrefixFree : Obligations.CodesArePrefixFree := by
  intro s t table hinv h hok hcode
  obtain ⟨tree, htree, hcodes⟩ := code_of_deriveCodes_ok h hok
  obtain rfl : tree.codes = table := Option.some.inj (hcodes.symm.trans hcode)
  have hnodup := (hinv.treeLeaves tree htree).1
  exact ⟨by rwa [codes_syms], codes_prefixFree hnodup⟩

/-! ### The depth of a built tree (R193) -/

/-- A source longer than `MAX_SYMS` fails, so a BUILD_TREE that reports `OK` has read no more (R103). -/
theorem length_le_of_buildTree_ok {s t : State} {b : SymBuf} {src : List Symbol} (hs : s.HoldsSyms b src)
    (h : exec (.buildTree b) s = .next t) (hok : t.status.err = .ok) : src.length ≤ s.cfg.maxSyms := by
  by_contra hgt
  have hfail := buildTree_fails (checkSource_gt _ (hs.1 ▸ Nat.lt_of_not_le hgt))
  obtain ⟨u, hu, ⟨hstatus, -⟩, -⟩ := hfail
  cases h.symm.trans hu
  rw [hstatus] at hok
  cases hok

/-- A sequence shorter than F(k + 2) allows no depth from `k` on, as Fibonacci numbers rise. -/
theorem depth_lt_of_fib {n : Node} {len k : Nat} (hfib : Nat.fib (n.depth + 2) ≤ len) (hlen : len < Nat.fib (k + 2)) :
    n.depth < k :=
  Nat.lt_of_not_le fun hle => Nat.not_le.mpr hlen ((Nat.fib_mono (Nat.add_le_add_right hle 2)).trans hfib)

/-- Settles O57: the Fibonacci bound is `buildTree_fib`; F(34) exceeds the greatest `MAX_SYMS` of R7, F(30) exceeds 2^19. -/
theorem builtTreesAreShallow : Obligations.BuiltTreesAreShallow := by
  intro s t b src n hlegal hs h hok hroot
  have hcap := length_le_of_buildTree_ok hs h hok
  have hfib : Nat.fib (n.depth + 2) ≤ src.length :=
    buildTree_fib (Option.some.inj ((tree_of_buildTree_ok hs h hok).symm.trans hroot))
  have hmax : s.cfg.maxSyms ≤ 4194304 := hlegal.2.1
  have h34 : Nat.fib (32 + 2) = 5702887 := by norm_num
  have h30 : Nat.fib (28 + 2) = 832040 := by norm_num
  have hdepth : n.depth < 32 := depth_lt_of_fib hfib (by omega)
  refine ⟨hfib, Nat.le_of_lt_succ hdepth, fun hdefault => Nat.le_of_lt_succ (depth_lt_of_fib (k := 28) hfib (by omega)),
    fun t' hdata => ?_⟩
  obtain ⟨-, -, -, htree, -⟩ := hdata
  obtain ⟨u, hexec, herr, -⟩ := (deriveCodes_succeeds (P := fun _ => True) (htree.trans hroot)
    (tooLong_of_depth_le hdepth.le) trivial).exec_ok
  exact ⟨u, hexec, herr⟩

end Sys2Proof.Machine

namespace Sys2Proof.Machine

/-! ## HUF_ENC and HUF_DEC (45_huffman_coding.md) -/

/-! ### Writing BITS within the capacity (R104, R112) -/

/-- Whatever fits BITS has a length that is a word, on every legal build (R7). -/
theorem lt_word_of_le_maxBits {c : Config} (hlegal : c.Legal) {n : Nat} (h : n ≤ c.maxBits) : n < 2 ^ 32 := by
  obtain ⟨-, -, -, -, hmax, -⟩ := hlegal
  omega

/-- What BITS holds is data. -/
theorem State.HoldsBits.of_sameData {s t : State} {bits : BitString} (hs : s.HoldsBits bits) (h : s.SameData t) :
    t.HoldsBits bits := by
  obtain ⟨-, hmem, hlens, -⟩ := h
  simp only [State.HoldsBits, State.bitLen, hmem, hlens]
  exact hs

/-- Writing the empty sequence leaves a symbol buffer's entries as they were (U3). -/
theorem storeSyms_nil_mem (d : SymBuf) (s : State) : (s.storeSyms d []).mem = s.mem := by
  have hkeep : (s.mem.sym d).overwrite [] = s.mem.sym d := List.filter_eq_self.mpr fun _ _ => rfl
  rw [storeSyms_mem, hkeep]
  cases d <;> rfl

/-! ### Codewords in input order (R200, R204) -/

/-- The codewords of a sequence in input order, `""` for a symbol without one. -/
def codewords (table : CodeTable) (xs : List Symbol) : List BitString := xs.map fun x => (codeFor table x).getD []

theorem codewords_flatten_length (table : CodeTable) (xs : List Symbol) :
    (codewords table xs).flatten.length = (xs.map fun x => ((codeFor table x).getD []).length).sum := by
  rw [codewords, List.length_flatten, List.map_map]
  rfl

theorem codewords_forall₂ {table : CodeTable} {xs : List Symbol} (h : ∀ x ∈ xs, x ∈ table.map CodeEntry.sym) :
    List.Forall₂ (fun x c => codeFor table x = some c) xs (codewords table xs) := by
  refine List.forall₂_map_right_iff.mpr (List.forall₂_same.mpr fun x hx => ?_)
  cases hc : codeFor table x with
  | none => exact absurd (h x hx) (codeFor_eq_none.mp hc)
  | some c => rfl

/-- The loop of HUF_ENC gives nothing but its symbols' codewords in input order (R200). -/
theorem encodeFrom_eq_value {table : CodeTable} {i : Nat} {src : List Symbol} {out : BitString}
    (h : encodeFrom table i src = .value out) :
    ∃ cs, List.Forall₂ (fun x c => codeFor table x = some c) src cs ∧ out = cs.flatten := by
  induction src generalizing i out with
  | nil => cases h; exact ⟨[], .nil, rfl⟩
  | cons x rest ih =>
    rw [encodeFrom] at h
    cases hc : codeFor table x with
    | none => rw [hc] at h; cases h
    | some c =>
      rw [hc] at h
      obtain ⟨out', hrest, hout⟩ := bind_eq_value h
      obtain ⟨cs, hcs, rfl⟩ := ih hrest
      cases hout
      exact ⟨c :: cs, .cons hc hcs, rfl⟩

/-- The table the invariant keeps is that of the tree held, its symbols the distinct leaves (R44, R46). -/
theorem Inv.code_eq {s : State} (h : Inv s) {table : CodeTable} (hcode : s.code = some table) :
    ∃ tree, s.tree = some tree ∧ table = tree.codes ∧ (table.map CodeEntry.sym).Nodup := by
  obtain ⟨tree, htree, rfl, -⟩ := h.codeOfTree table hcode
  exact ⟨tree, htree, rfl, codes_syms tree ▸ (h.treeLeaves tree htree).1⟩

/-! ### HUF_ENC (R200) -/

section HufEnc
variable {s : State} {b : SymBuf} {table : CodeTable} {src : List Symbol} {cs : List BitString}

theorem hufEncEval_of_none (h : s.code = none) : hufEncEval b s = .raise .notReady 0 := by
  rw [hufEncEval, h]

theorem hufEncEval_of_long (hcode : s.code = some table) (hgt : s.cfg.maxSyms < s.symLen b) :
    hufEncEval b s = .raise .capacityExceeded 0 := by
  simp only [hufEncEval, hcode, checkSource_gt _ hgt]

/-- With a code table and its source written HUF_ENC is its loop and the check of the output. -/
theorem hufEncEval_of_holds (hcode : s.code = some table) (hs : s.HoldsSyms b src) (hcap : s.symLen b ≤ s.cfg.maxSyms) :
    hufEncEval b s =
      (encodeFrom table 0 src).bind fun out => checkOutput out.length s.cfg.maxBits (.value out) := by
  simp only [hufEncEval, hcode, checkSource_le _ hcap, symseq_eq_value.mpr hs, bind_value]

/-- With a codeword for every symbol only the check of the output is left. -/
theorem hufEncEval_of_codes (hcode : s.code = some table) (hs : s.HoldsSyms b src) (hcap : s.symLen b ≤ s.cfg.maxSyms)
    (hcs : List.Forall₂ (fun x c => codeFor table x = some c) src cs) :
    hufEncEval b s = checkOutput cs.flatten.length s.cfg.maxBits (.value cs.flatten) := by
  rw [hufEncEval_of_holds hcode hs hcap, encodeFrom_value hcs, bind_value]

theorem hufEnc_fails {e : ResultCode} {info : Nat} (he : e ≠ .ok) (h : hufEncEval b s = .raise e info) :
    FailsWith (.hufEnc b) s e info :=
  fails_of_ending rfl he (by rw [endingOf, h]; rfl)

theorem hufEnc_succeeds {P : State → Prop} (hcode : s.code = some table) (hs : s.HoldsSyms b src)
    (hcap : s.symLen b ≤ s.cfg.maxSyms) (hcs : List.Forall₂ (fun x c => codeFor table x = some c) src cs)
    (hfits : cs.flatten.length ≤ s.cfg.maxBits) (hP : P ((s.storeBits cs.flatten).complete .ok 0)) :
    Succeeds (.hufEnc b) s P :=
  succeeds_of_ending rfl
    (by rw [endingOf, hufEncEval_of_codes hcode hs hcap hcs, checkOutput_le _ hfits]; rfl) hP

/-- A HUF_ENC that reports `OK` has found a codeword for every symbol and left their total length in `BIT_LEN`. -/
theorem bitLen_of_hufEnc_ok {t : State} (hlegal : s.cfg.Legal) (hcode : s.code = some table) (hs : s.HoldsSyms b src)
    (h : exec (.hufEnc b) s = .next t) (hok : t.status.err = .ok) :
    ∃ cs, List.Forall₂ (fun x c => codeFor table x = some c) src cs ∧ t.bitLen = cs.flatten.length := by
  obtain ⟨u, hu, rfl⟩ := endingOf_of_exec_ok rfl h hok
  have hmeets : (hufEncEval b s).Meets (errorsOf (.hufEnc b)) fun out => out.length ≤ s.cfg.maxBits ∧
      ∃ cs, List.Forall₂ (fun x c => codeFor table x = some c) src cs ∧ out = cs.flatten := by
    simp only [hufEncEval, hcode, symseq_eq_value.mpr hs, bind_value]
    exact meets_checkSource (by simp [errorsOf]) fun _ =>
      ((encodeFrom_meets b table 0 src).ofValue fun _ => encodeFrom_eq_value).bind fun _ hcs =>
        meets_checkOutput (by simp [errorsOf]) fun hout => meets_value ⟨hout, hcs⟩
  obtain ⟨_, ⟨hfits, cs, hcs, rfl⟩, rfl⟩ := hmeets.ending_ok hu
  exact ⟨cs, hcs, (storeBits_holds (lt_word_of_le_maxBits hlegal hfits) s).1⟩

end HufEnc

/-- Settles O43: one lemma on `hufEncEval` for each check, and `storeBits_get?` for what BITS holds after the last. -/
theorem hufEncRule : Obligations.HufEncRule := by
  refine ⟨decode_encode (i := .hufEnc .sym0) rfl, decode_encode (i := .hufEnc .sym1) rfl,
    fun s b hlegal => ⟨fun hnone => ?_, fun table hcode hnodup => ⟨fun hgt => ?_, fun hcap =>
      ⟨fun src i x hs hx hno hbefore => ?_, fun src cs hs hmem => ?_⟩⟩⟩⟩
  · exact hufEnc_fails (by decide) (hufEncEval_of_none hnone)
  · exact hufEnc_fails (by decide) (hufEncEval_of_long hcode hgt)
  · have hfound : ∀ j, j < i → ∀ y, src[j]? = some y → ∃ c, codeFor table y = some c := fun j hj y hy =>
      Option.ne_none_iff_exists'.mp fun hc => codeFor_eq_none.mp hc (hbefore j y hj hy)
    have hloop : encodeFrom table 0 src = .raise .unknownSymbol i := by
      rw [encodeFrom_unknown hx (codeFor_eq_none.mpr hno) hfound, Nat.zero_add]
    exact hufEnc_fails (by decide) (by rw [hufEncEval_of_holds hcode hs hcap, hloop, bind_raise])
  · have hcs := hmem.imp fun _ _ => (codeFor_eq_some hnodup).mpr
    refine ⟨fun hfits => hufEnc_succeeds hcode hs hcap hcs hfits ⟨?_, fun i hge hlt => ?_, fun i hge => ?_⟩, fun hgt => ?_⟩
    · exact storeBits_holds (lt_word_of_le_maxBits hlegal hfits) s
    · rw [complete_mem, storeBits_get?, if_neg (by omega), if_pos hlt]
    · rw [complete_mem, storeBits_get?, if_neg (by omega), if_neg (by omega)]
    · exact hufEnc_fails (by decide) (by rw [hufEncEval_of_codes hcode hs hcap hcs, checkOutput_gt _ hgt])

/-! ### HUF_DEC (R201) -/

section HufDec
variable {s : State} {d : SymBuf} {tree : Tree} {bits : BitString} {out : List Symbol}

theorem hufDecEval_of_none (h : s.tree = none) : hufDecEval s = .raise .notReady 0 := by
  rw [hufDecEval, h]

theorem hufDecEval_of_long (htree : s.tree.isSome = true) (hgt : s.cfg.maxBits < s.bitLen) :
    hufDecEval s = .raise .capacityExceeded 0 := by
  obtain ⟨tree, htree⟩ := Option.isSome_iff_exists.mp htree
  simp only [hufDecEval, htree, checkSource_gt _ hgt]

/-- With a tree and its source written HUF_DEC is `decodeBits` and the check of the output. -/
theorem hufDecEval_of_holds (htree : s.tree = some tree) (hs : s.HoldsBits bits) (hcap : s.bitLen ≤ s.cfg.maxBits) :
    hufDecEval s = (decodeBits bits tree).bind fun out => checkOutput out.length s.cfg.maxSyms (.value out) := by
  simp only [hufDecEval, htree, checkSource_le _ hcap, bitseq_eq_value.mpr hs, bind_value]

theorem hufDec_fails {e : ResultCode} {info : Nat} (he : e ≠ .ok) (h : hufDecEval s = .raise e info) :
    FailsWith (.hufDec d) s e info :=
  fails_of_ending rfl he (by rw [endingOf, h]; rfl)

theorem hufDec_corrupt {info : Nat} (htree : s.tree = some tree) (hs : s.HoldsBits bits) (hcap : s.bitLen ≤ s.cfg.maxBits)
    (hdec : decodeBits bits tree = .raise .corruptStream info) : FailsWith (.hufDec d) s .corruptStream info :=
  hufDec_fails (by decide) (by rw [hufDecEval_of_holds htree hs hcap, hdec, bind_raise])

theorem hufDec_overflows (htree : s.tree = some tree) (hs : s.HoldsBits bits) (hcap : s.bitLen ≤ s.cfg.maxBits)
    (hdec : decodeBits bits tree = .value out) (hgt : s.cfg.maxSyms < out.length) :
    FailsWith (.hufDec d) s .capacityExceeded 0 :=
  hufDec_fails (by decide) (by rw [hufDecEval_of_holds htree hs hcap, hdec, bind_value, checkOutput_gt _ hgt])

/-- Symbols that fit the destination are what HUF_DEC writes to it. -/
theorem endingOf_hufDec (htree : s.tree = some tree) (hs : s.HoldsBits bits) (hcap : s.bitLen ≤ s.cfg.maxBits)
    (hdec : decodeBits bits tree = .value out) (hfits : out.length ≤ s.cfg.maxSyms) :
    endingOf s (.hufDec d) = .ok (s.storeSyms d out) := by
  rw [endingOf, hufDecEval_of_holds htree hs hcap, hdec, bind_value, checkOutput_le _ hfits]
  rfl

theorem hufDec_succeeds (hlegal : s.cfg.Legal) (htree : s.tree = some tree) (hs : s.HoldsBits bits)
    (hcap : s.bitLen ≤ s.cfg.maxBits) (hdec : decodeBits bits tree = .value out) (hfits : out.length ≤ s.cfg.maxSyms) :
    Succeeds (.hufDec d) s fun t =>
      t.HoldsSyms d out ∧ ∀ i, out.length ≤ i → (t.mem.sym d).get? i = (s.mem.sym d).get? i :=
  succeeds_of_storeSyms rfl hlegal hfits (endingOf_hufDec htree hs hcap hdec hfits)

end HufDec

/-- With an inner root, paths to leaves and no bits left give the leaves (R201). -/
theorem decodeBits_of_paths {l r : Node} {xs : List Symbol} {cs : List BitString}
    (h : List.Forall₂ (fun x c => (Node.inner l r).follow c = some (.leaf x)) xs cs) :
    decodeBits cs.flatten (.root (.inner l r)) = .value xs := by
  have hloop := decodeLoop_paths (rest := []) (k := 0) h rfl
  rwa [List.append_nil, if_pos rfl] at hloop

/-- With an inner root, bits that end inside a path are reported at its first bit (R201). -/
theorem decodeBits_of_unfinished {l r u v : Node} {xs : List Symbol} {cs : List BitString} {rest : BitString}
    (h : List.Forall₂ (fun x c => (Node.inner l r).follow c = some (.leaf x)) xs cs)
    (hrest : (Node.inner l r).follow rest = some (.inner u v)) (hne : rest ≠ []) :
    decodeBits (cs.flatten ++ rest) (.root (.inner l r)) = .raise .corruptStream cs.flatten.length := by
  have hloop := decodeLoop_paths (k := 0) h hrest
  rwa [if_neg hne, Nat.zero_add] at hloop

/-- Settles O44: what `decodeBits` gives for each kind of tree, and the check of its length; `exists_paths` is the last clause. -/
theorem hufDecRule : Obligations.HufDecRule := by
  refine ⟨decode_encode (i := .hufDec .sym0) rfl, decode_encode (i := .hufDec .sym1) rfl,
    fun s d hlegal => ⟨fun hnone => ?_, fun htree hgt => ?_, fun hcap => ⟨fun htree => ⟨fun hzero => ?_, fun b hs hne => ?_⟩,
      fun x b htree hs => ⟨fun hfits => ?_, fun hgt => ?_⟩, fun l r htree xs cs rest hs hpaths ⟨u, v, hrest⟩ => ?_⟩⟩, exists_paths⟩
  · exact hufDec_fails (by decide) (hufDecEval_of_none hnone)
  · exact hufDec_fails (by decide) (hufDecEval_of_long htree hgt)
  · have hs : s.HoldsBits [] := ⟨hzero, fun i hi => absurd hi (Nat.not_lt_zero i)⟩
    exact succeeds_of_ending rfl (endingOf_hufDec htree hs hcap rfl (Nat.zero_le _))
      ⟨(storeSyms_holds d (by decide) s).1, storeSyms_nil_mem d s⟩
  · exact hufDec_corrupt htree hs hcap (if_neg hne)
  · have h := hufDec_succeeds (d := d) hlegal htree hs hcap rfl (by rwa [List.length_replicate])
    rwa [List.length_replicate] at h
  · exact hufDec_overflows htree hs hcap rfl (by rwa [List.length_replicate])
  · refine ⟨fun hnil hfits => ?_, fun hnil hgt => ?_, fun hne => ?_⟩
    · rw [hnil, List.append_nil] at hs
      exact hufDec_succeeds hlegal htree hs hcap (decodeBits_of_paths hpaths) hfits
    · rw [hnil, List.append_nil] at hs
      exact hufDec_overflows htree hs hcap (decodeBits_of_paths hpaths) hgt
    · exact hufDec_corrupt htree hs hcap (decodeBits_of_unfinished hpaths hrest hne)

/-! ### HUF_ENC and HUF_DEC together (R202, R204) -/

/-- The decoder inverts the code table of its own tree: codewords one after the other give their symbols (R202). -/
theorem decodeBits_of_codes {tree : Tree} {xs : List Symbol} {cs : List BitString}
    (h : List.Forall₂ (fun x c => (⟨x, c⟩ : CodeEntry) ∈ tree.codes) xs cs) : decodeBits cs.flatten tree = .value xs := by
  match tree with
  | .empty => cases h with
    | nil => rfl
    | cons hx _ => cases hx
  | .root (.leaf y) =>
    refine congrArg Eval.value ?_
    induction h with
    | nil => rfl
    | cons hx _ ih =>
      cases List.mem_singleton.mp hx
      exact congrArg (y :: ·) ih
  | .root (.inner l r) => exact decodeBits_of_paths (h.imp fun _ _ => mem_codes_inner.mp)

/-- A symbol's codeword has one length, as the table's symbols are distinct (R15). -/
theorem rightUnique_codeLength {table : CodeTable} (hnodup : (table.map CodeEntry.sym).Nodup) :
    Relator.RightUnique fun (x : Symbol) (n : Nat) => ∃ e ∈ table, e.sym = x ∧ e.code.length = n := by
  rintro x _ _ ⟨e, he, rfl, rfl⟩ ⟨f, hf, hsym, rfl⟩
  rw [List.inj_on_of_nodup_map hnodup hf he hsym]

/-- Settles O59: the output is the codewords in input order (`bitLen_of_hufEnc_ok`), each of one length; with a single leaf the
decoder, which gives a symbol a bit, gives the input back. -/
theorem encodedLength : Obligations.EncodedLength := by
  intro s t b src table hinv hs hcode h hok
  obtain ⟨tree, htree, rfl, hnodup⟩ := hinv.code_eq hcode
  obtain ⟨cs, hcs, hlen⟩ := bitLen_of_hufEnc_ok hinv.cfgLegal hcode hs h hok
  have hmem := hcs.imp fun _ _ => (codeFor_eq_some hnodup).mp
  refine ⟨fun lens hlens => ?_, fun x hleaf => ?_⟩
  · have hlens' : List.Forall₂ (fun x n => ∃ e ∈ tree.codes, e.sym = x ∧ e.code.length = n) src (cs.map List.length) :=
      List.forall₂_map_right_iff.mpr (hmem.imp fun x c he => ⟨⟨x, c⟩, he, rfl, rfl⟩)
    rw [hlen, List.length_flatten, (rightUnique_codeLength hnodup).forall₂ hlens hlens']
  · obtain rfl : tree = .root (.leaf x) := Option.some.inj (htree.symm.trans hleaf)
    have hsrc : List.replicate cs.flatten.length x = src := Eval.value.inj (decodeBits_of_codes hmem)
    rw [hlen, ← hsrc, List.length_replicate]

/-- The codec half of R202: with the table of a tree whose distinct leaves hold every symbol of the sequence, HUF_ENC and then
HUF_DEC give it back. -/
theorem hufEnc_hufDec {s : State} {b : SymBuf} {tree : Tree} {xs : List Symbol} (d : SymBuf) (hlegal : s.cfg.Legal)
    (htree : s.tree = some tree) (hcode : s.code = some tree.codes) (hnodup : tree.leaves.Nodup)
    (hleaves : ∀ x ∈ xs, x ∈ tree.leaves) (hs : s.HoldsSyms b xs) (hcap : xs.length ≤ s.cfg.maxSyms)
    (hfits : (codewords tree.codes xs).flatten.length ≤ s.cfg.maxBits) :
    ∃ v, exec (.hufEnc b) s = .next v ∧ v.status.err = .ok ∧ v.bitLen = (codewords tree.codes xs).flatten.length ∧
      ∀ v', v.SameData v' → ∃ w, exec (.hufDec d) v' = .next w ∧ w.status.err = .ok ∧ w.HoldsSyms d xs := by
  rw [← codes_syms] at hnodup hleaves
  have hcs := codewords_forall₂ hleaves
  have hdec := decodeBits_of_codes (hcs.imp fun _ _ => (codeFor_eq_some hnodup).mp)
  have hbits := storeBits_holds (lt_word_of_le_maxBits hlegal hfits) s
  obtain ⟨v, henc, hverr, hvcfg, hv, hvtree⟩ := (hufEnc_succeeds
    (P := fun v => v.HoldsBits (codewords tree.codes xs).flatten ∧ v.tree = some tree) hcode hs (hs.1 ▸ hcap) hcs hfits
    ⟨hbits, htree⟩).exec_ok
  refine ⟨v, henc, hverr, hv.1, fun v' hdata => ?_⟩
  have ⟨hcfg, _, _, htree', _⟩ := hdata
  have hcfg : v'.cfg = s.cfg := hcfg.trans hvcfg
  have hv' := hv.of_sameData hdata
  obtain ⟨w, hexec, hwerr, -, hw, -⟩ := (hufDec_succeeds (d := d) (hcfg ▸ hlegal) (htree'.trans hvtree) hv'
    (by rw [hv'.1, hcfg]; exact hfits) hdec (hcfg ▸ hcap)).exec_ok
  exact ⟨w, hexec, hwerr, hw⟩

/-- BUILD_TREE counts the distinct symbols (R160). -/
theorem distinctSyms_length (xs : List Symbol) : (distinctSyms xs).length = xs.dedup.length := by
  have hmem : ∀ x, x ∈ distinctSyms xs ↔ x ∈ xs.dedup := fun x => by rw [mem_distinctSyms, List.mem_dedup]
  exact ((List.perm_ext_iff_of_nodup (distinctSyms_nodup xs) (List.nodup_dedup xs)).mpr hmem).length_eq

theorem mem_buildTree_leaves {xs : List Symbol} {x : Symbol} : x ∈ (buildTree xs).leaves ↔ x ∈ xs :=
  (buildTree_leaves xs).mem_iff.trans mem_distinctSyms

/-- The codewords of a built tree fit `MAX_CODE_LEN` on every legal build (R193). -/
theorem tooLong_buildTree {c : Config} (hlegal : c.Legal) {xs : List Symbol} (hcap : xs.length ≤ c.maxSyms) :
    tooLong (buildTree xs).codes = false := by
  cases htree : buildTree xs with
  | empty => rfl
  | root n =>
    have hmax : c.maxSyms ≤ 4194304 := hlegal.2.1
    have h34 : Nat.fib (32 + 2) = 5702887 := by norm_num
    exact tooLong_of_depth_le (depth_lt_of_fib (buildTree_fib htree) (by omega)).le

/-- Settles O58: BUILD_TREE leaves `buildTree xs`, whose leaves are the symbols of the sequence, DERIVE_CODES its table, and the
two coding commands are `hufEnc_hufDec`. -/
theorem huffmanRoundTrip : Obligations.HuffmanRoundTrip := by
  intro s b d xs hlegal hs hcap halpha
  rw [← distinctSyms_length] at halpha
  have hleaves : ∀ x ∈ xs, x ∈ (buildTree xs).leaves := fun _ => mem_buildTree_leaves.mpr
  obtain ⟨t, hbuild, hterr, htcfg, htree, ht⟩ := (buildTree_succeeds
    (P := fun t => t.tree = some (buildTree xs) ∧ t.HoldsSyms b xs) hs hcap halpha ⟨rfl, hs⟩).exec_ok
  refine ⟨t, hbuild, hterr, fun t' ht' => ?_⟩
  have hsource := ht.of_sameData ht'
  obtain ⟨hcfg', -, -, htree', -⟩ := ht'
  have htree' := htree'.trans htree
  obtain ⟨u, hderive, huerr, hucfg, hucode, hutree, hu⟩ := (deriveCodes_succeeds
    (P := fun u => u.code = some (buildTree xs).codes ∧ u.tree = some (buildTree xs) ∧ u.HoldsSyms b xs) htree'
    (tooLong_buildTree hlegal hcap) ⟨rfl, htree', hsource⟩).exec_ok
  refine ⟨u, _, hderive, huerr, hucode, fun x hx => ?_, fun hfits u' hu' => ?_⟩
  · rw [← mem_buildTree_leaves, ← codes_syms] at hx
    obtain ⟨⟨_, c⟩, he, rfl⟩ := List.mem_map.mp hx
    exact ⟨c, he⟩
  · have husource := hu.of_sameData hu'
    obtain ⟨hucfg', -, -, hutree', hucode'⟩ := hu'
    have hcfg : u'.cfg = s.cfg := hucfg'.trans (hucfg.trans (hcfg'.trans htcfg))
    rw [← codewords_flatten_length] at hfits ⊢
    exact hufEnc_hufDec d (hcfg ▸ hlegal) (hutree'.trans hutree) (hucode'.trans hucode)
      (buildTree_fits halpha).1 hleaves husource (hcfg ▸ hcap) (hcfg ▸ hfits)

end Sys2Proof.Machine

namespace Sys2Proof.Machine

/-! ## Results and the interrupt output (60_exceptions.md) -/

/-! ### The results of a command -/

/-- A command reports `OK` or one of its own errors (R221). -/
theorem exec_err_mem {i : Instr} {s t : State} (hi : i.wellFormed = true) (h : exec i s = .next t) :
    t.status.err ∈ .ok :: errorsOf i := by
  rcases exec_eq_next h with ⟨-, u, -, rfl⟩ | ⟨-, e, info, he, rfl⟩ | ⟨hbad, -⟩
  · exact List.mem_cons_self
  · exact List.mem_cons_of_mem _ (endingOf_error he).1
  · simp [hi] at hbad

/-- Settles O47: for each command the row of R221 is `OK` and the errors that `errorsOf` lists. -/
theorem possibleResults : Obligations.PossibleResults := by
  intro i s t hi h
  have hmem := exec_err_mem hi h
  cases i <;> exact hmem

/-! ### The interrupt output -/

theorem irq_eq_true_iff {s : State} : s.irq = true ↔ s.ie = true ∧ s.status.done = true := Bool.and_eq_true_iff

theorem irq_of_ie_false {s : State} (h : s.ie = false) : s.irq = false := by rw [State.irq, h, Bool.false_and]

theorem irq_of_done_false {s : State} (h : s.status.done = false) : s.irq = false := by rw [State.irq, h, Bool.and_false]

theorem irq_of_done_true {s : State} (h : s.status.done = true) : s.irq = s.ie := by rw [State.irq, h, Bool.and_true]

/-- `CTRL` takes a write, idle or busy (R68 (a)). -/
theorem busWrite_ctrl (v : Word) (s : State) : busWrite 0x004#32 v s = some (writeCtrl v s) :=
  busWrite_csr (r := .ctrl) v fun _ => rfl

/-- `STATUS` takes a write, idle or busy (R68 (a)). -/
theorem busWrite_status (v : Word) (s : State) : busWrite 0x008#32 v s = some (writeStatus v s) :=
  busWrite_csr (r := .status) v fun _ => rfl

theorem writeCtrl_of_no_reset {v : Word} (h : v.getLsbD 1 = false) (s : State) :
    writeCtrl v s = { s with ie := v.getLsbD 0 } := by
  rw [writeCtrl, h, if_neg Bool.false_ne_true]

theorem writeStatus_clears_done {v : Word} (h : v.getLsbD 1 = true) (s : State) : (writeStatus v s).status.done = false := by
  rw [writeStatus, h, Bool.not_true, Bool.and_false]

/-- Settles O23: completion sets DONE; the write of 1 to it, acceptance and reset clear it; a write to `CTRL` without SRST touches
only IE. -/
theorem interruptOutput : Obligations.InterruptOutput := by
  refine fun s => ⟨irq_eq_true_iff, fun e info => irq_of_done_true rfl, fun v t hv ht => ?_, fun w => irq_of_done_false rfl,
    irq_of_done_false rfl, fun v t hreset hie ht => ?_⟩
  · rw [busWrite_status] at ht
    obtain rfl := Option.some.inj ht
    exact irq_of_done_false (writeStatus_clears_done hv s)
  · rw [busWrite_ctrl, writeCtrl_of_no_reset hreset] at ht
    obtain rfl := Option.some.inj ht
    exact ⟨irq_of_ie_false hie, rfl⟩

end Sys2Proof.Machine

namespace Sys2Proof.Machine

/-! ## Reset, and the end of every command (70_reset_and_hazards.md) -/

/-! ### Reset -/

theorem reset_mem_sym (b : SymBuf) : State.reset.mem.sym b = [] := by cases b <;> rfl

/-- Settles O6, register by register: the constants of R27 and R38 at the default build, else 0; no buffer of `State.reset` lists an
entry. -/
theorem resetState : Obligations.ResetState := by
  refine ⟨fun r => ?_, rfl, rfl, rfl, rfl, rfl, rfl, fun b i => ?_, Store.get?_nil, Store.get?_nil, Store.get?_nil, Store.get?_nil⟩
  · cases r <;> rfl
  · rw [reset_mem_sym, Store.get?_nil]

theorem writeCtrl_of_reset {v : Word} (h : v.getLsbD 1 = true) (s : State) : writeCtrl v s = s.hardReset := if_pos h

/-- Settles O7: both events are `State.hardReset`, since `CTRL` is open to a busy block's writes. -/
theorem resetEvents : Obligations.ResetEvents := fun s =>
  ⟨rfl, fun v hv => by rw [busWrite_ctrl, writeCtrl_of_reset hv, State.hardReset]⟩

/-! ### The host leaves the list of turns alone -/

theorem busRead_turns {a v : Word} {s t : State} (h : busRead a s = some (v, t)) : t.env.turns = s.env.turns := by
  rw [readsHaveNoSideEffect s t a v h]

theorem busWrite_env {a v : Word} {s t : State} (h : busWrite a v s = some t) : t.env = s.env := by
  rcases busWrite_eq_some h with ⟨-, rfl⟩ | ⟨r, -, -, rfl⟩
  · exact dropWrite_env s
  · exact writeRegion_env v s r

theorem hostRead_turns (addr : Word) (enables : BitVec 4) (s : State) :
    (hostRead addr enables s).2.env.turns = s.env.turns := by
  unfold hostRead
  split
  · rfl
  · split
    next v t h => exact busRead_turns h
    · rfl

theorem hostWrite_turns (addr v : Word) (enables : BitVec 4) (s : State) :
    (hostWrite addr v enables s).2.env.turns = s.env.turns := by
  unfold hostWrite
  split
  · rfl
  · split
    next t h => exact congrArg Env.turns (busWrite_env h)
    · rfl

theorem waitTurn_turns (again : HostOp) (asStated : Bool) (r : BusResponse × State) :
    (waitTurn again asStated r).env.turns = r.2.env.turns := by
  unfold waitTurn
  split
  · split <;> rfl
  · rfl

theorem performHostOp_turns (op : HostOp) (s : State) : (performHostOp op s).env.turns = s.env.turns := by
  cases op with
  | wr addr v => exact hostWrite_turns addr v 15#4 s
  | rd addr => exact hostRead_turns addr 15#4 s
  | expect addr v =>
    simp only [performHostOp]
    split <;> exact hostRead_turns addr 15#4 s
  | wrBytes addr v enables => exact hostWrite_turns addr v enables s
  | rdBytes addr enables => exact hostRead_turns addr enables s
  | wait => exact (waitTurn_turns _ _ _).trans (hostRead_turns _ _ s)
  | waitErr err => exact (waitTurn_turns _ _ _).trans (hostRead_turns _ _ s)
  | resetInput => rfl

theorem hostStep_turns (s : State) : (hostStep s).env.turns = s.env.turns := by
  unfold hostStep
  split
  · rfl
  · exact performHostOp_turns _ _

/-! ### The end of a command (R101, R262) -/

/-- The engine's turn leaves nothing in flight, unless it stops. -/
theorem engineStep_ends (s : State) : (∃ f, engineStep s = .fault f) ∨ ∃ t, engineStep s = .next t ∧ t.inflight = none := by
  cases hw : s.inflight with
  | none => exact .inr ⟨s, by simp only [engineStep, hw], hw⟩
  | some w =>
    cases hi : decode w with
    | none => exact .inr ⟨s.completeIllegal, engineStep_of_decode_none hw hi, rfl⟩
    | some i =>
      rw [engineStep_of_decode hw hi]
      cases hx : exec i s with
      | next t => exact .inr ⟨t, rfl, (exec_completes hx).2.1⟩
      | fault f => exact .inl ⟨f, rfl⟩
      | refused q => exact absurd hx (exec_ne_refused i s q)

/-- Within `n` steps the run from `s` has met a state with nothing in flight, or has stopped. -/
def EndsWithin (n : Nat) (s : State) : Prop :=
  ∃ k, k ≤ n ∧ ((∃ f, core.run k s = .fault f) ∨ ∃ t : State, core.run k s = .next t ∧ t.inflight = none)

theorem core_run_of_next {s t : State} (k : Nat) (h : step s = .next t) : core.run (k + 1) s = core.run k t := by
  have hcore : core.step s = .next t := h
  simp only [Host.Core.run, hcore]

theorem core_run_of_fault {s : State} {f : Fault} (k : Nat) (h : step s = .fault f) : core.run (k + 1) s = .fault f := by
  have hcore : core.step s = .fault f := h
  simp only [Host.Core.run, hcore]

theorem endsWithin_of_idle {s : State} (n : Nat) (h : s.inflight = none) : EndsWithin n s :=
  ⟨0, Nat.zero_le n, .inr ⟨s, rfl, h⟩⟩

theorem endsWithin_of_fault {s : State} {f : Fault} (n : Nat) (h : step s = .fault f) : EndsWithin (n + 1) s :=
  ⟨1, Nat.le_add_left 1 n, .inl ⟨f, core_run_of_fault 0 h⟩⟩

theorem EndsWithin.of_step {s t : State} {n : Nat} (ht : EndsWithin n t) (h : step s = .next t) : EndsWithin (n + 1) s := by
  obtain ⟨k, hk, hrun⟩ := ht
  exact ⟨k + 1, Nat.succ_le_succ hk, by rwa [core_run_of_next k h]⟩

theorem endsWithin_of_engine {s : State} (n : Nat) (h : s.mover = .engine) : EndsWithin (n + 1) s := by
  rcases engineStep_ends s.tail with ⟨f, hf⟩ | ⟨t, ht, hnone⟩
  · exact endsWithin_of_fault n ((step_of_engine h).trans hf)
  · exact (endsWithin_of_idle n hnone).of_step ((step_of_engine h).trans ht)

/-- Each turn on the list is the engine's, which ends the command, or the host's, which uses up the turn; after the last of them
the engine moves. -/
theorem endsWithin_turns {turns : List Agent} {s : State} (h : s.env.turns = turns) : EndsWithin (turns.length + 1) s := by
  induction turns generalizing s with
  | nil =>
    cases hw : s.inflight with
    | none => exact endsWithin_of_idle _ hw
    | some w => exact endsWithin_of_engine _ (by simp [State.mover, h, hw])
  | cons a rest ih =>
    have hmover : s.mover = a := by rw [State.mover, h]
    cases a with
    | engine => exact endsWithin_of_engine _ hmover
    | host =>
      have hrest : (hostStep s.tail).env.turns = rest := by rw [hostStep_turns, tail_env, h, List.tail_cons]
      exact (ih hrest).of_step (step_of_host hmover)

/-- Settles O14, by induction on the list of turns (`endsWithin_turns`). -/
theorem commandsCompleteInBoundedSteps : Obligations.CommandsCompleteInBoundedSteps := fun _ _ => endsWithin_turns rfl

end Sys2Proof.Machine
